-- ==== Sys2Proof/Word.lean ====
section
/-! DEFINITION. Word.lean: the bit-vector and block types the spec's registers are made of, nothing else. -/

namespace Sys2Proof

/-- One 64-bit bus word (R60): a command word, a symbol word, or the pattern of a binary64 value. -/
abbrev Word := BitVec 64

/-- One byte of the output stream, or one quantization divisor (R25, R32). -/
abbrev Byte := BitVec 8

/-- A signed 16-bit quantity: a quantized coefficient or a DC predictor (R9, R23, R24, R30). -/
abbrev Half := BitVec 16

/-- A word address of the register space (R60: `ADDR_W` = 10). -/
abbrev BusAddr := BitVec 10

/-- A 64-element block buffer; natural order `k = 8·row + col` unless its register says zigzag order (R16). -/
abbrev Block (α : Type) := Vector α 64

end Sys2Proof
end

