-- ==== Sys2Proof/Syntax.lean ====
section
/-! DEFINITION. Syntax.lean: the commands of the core, one constructor per row of spec/opcode_table.json (R95). In this
spec a command plays the role of an instruction (R4). -/

namespace Sys2Proof

/-- Table class `t` (R17): `luma` is 0, `chroma` is 1. -/
inductive TableClass where
  | luma
  | chroma
  deriving DecidableEq, Repr

/-- Component `c` (R17): `y` is 0, `cb` is 1, `cr` is 2; the value 3 is not a component. -/
inductive Component where
  | y
  | cb
  | cr
  deriving DecidableEq, Repr

/-- The 16 commands of the opcode map (R95), with the operand fields of their formats (R92, R93). -/
inductive Instr where
  | nop
  | fdct
  | idct
  | qtbuild (t : TableClass) (q : BitVec 7)
  | quant (t : TableClass)
  | zigzag
  | unzigzag
  | symb (c : Component)
  | huff (t : TableClass)
  | encblk (c : Component) (t : TableClass)
  | wrbits (n : BitVec 5) (v : BitVec 16)
  | flush
  | bwreset
  | rstpred
  | clrerr
  | sreset
  deriving DecidableEq, Repr

end Sys2Proof
end

