-- ==== Sys2Proof/WellFormed.lean ====
section
/-! DEFINITION. WellFormed.lean: which terms of `Instr` are commands the core can be given. -/

namespace Sys2Proof

/-- R93, R94(d): the bit count of WRBITS is 0..16. Every other constraint of R94 holds of any term by its type: a component
is never 3, and a quality of 0 or above 100 is a legal operand that raises `E_QUALITY` when it is executed. -/
def WellFormed : Instr → Bool
  | .wrbits n _ => n.toNat ≤ 16
  | .nop | .fdct | .idct | .qtbuild _ _ | .quant _ | .zigzag | .unzigzag | .symb _ | .huff _ | .encblk _ _
  | .flush | .bwreset | .rstpred | .clrerr | .sreset => true

end Sys2Proof
end

