-- ==== Sys2Proof/Decode.lean ====
section
/-! DEFINITION. Decode.lean: the decoder of R96, total on every 64-bit word and rejecting by name, then the encoder of
R90, R92 and R95. -/

namespace Sys2Proof

/-- Why a word is ILLEGAL (R94 (a) to (d)). Every one of them raises `E_ILLEGAL_CMD(0)` (R251). -/
inductive DecodeError where
  | reservedOpcode
  | reservedBit
  | notAComponent
  | countAbove16
  deriving DecidableEq, Repr

/-- The field `d[lo+len-1 : lo]`, an unsigned integer (R10, R93). -/
def field (d : Word) (lo len : Nat) : Nat := d.toNat / 2 ^ lo % 2 ^ len

/-- The table class a one-bit field names (R17). -/
def tableClassOf (t : Nat) : TableClass := if t = 0 then .luma else .chroma

/-- The component a two-bit field names; 3 is none (R17, R93). -/
def componentOf : Nat → Option Component
  | 0 => some .y
  | 1 => some .cb
  | 2 => some .cr
  | _ => none

/-- Format N (R92): bits 31:8 are reserved. -/
def formatN (d : Word) (i : Instr) : Except DecodeError Instr :=
  if field d 8 24 = 0 then .ok i else .error .reservedBit

/-- Format T (R92): `t = d[8]`; bits 31:9 are reserved. -/
def formatT (d : Word) (f : TableClass → Instr) : Except DecodeError Instr :=
  if field d 9 23 = 0 then .ok (f (tableClassOf (field d 8 1))) else .error .reservedBit

/-- Format C (R92): `c = d[11:10]`; bits 31:12 and 9:8 are reserved. -/
def formatC (d : Word) (f : Component → Instr) : Except DecodeError Instr :=
  if field d 12 20 = 0 ∧ field d 8 2 = 0 then
    match componentOf (field d 10 2) with
    | some c => .ok (f c)
    | none => .error .notAComponent
  else .error .reservedBit

/-- Format CT (R92): `c = d[11:10]`, `t = d[8]`; bits 31:12 and 9 are reserved. -/
def formatCT (d : Word) (f : Component → TableClass → Instr) : Except DecodeError Instr :=
  if field d 12 20 = 0 ∧ field d 9 1 = 0 then
    match componentOf (field d 10 2) with
    | some c => .ok (f c (tableClassOf (field d 8 1)))
    | none => .error .notAComponent
  else .error .reservedBit

/-- Format Q (R92): `q = d[22:16]`, `t = d[8]`; bits 31:23 and 15:9 are reserved. -/
def formatQ (d : Word) (f : TableClass → BitVec 7 → Instr) : Except DecodeError Instr :=
  if field d 23 9 = 0 ∧ field d 9 7 = 0 then
    .ok (f (tableClassOf (field d 8 1)) (BitVec.ofNat 7 (field d 16 7)))
  else .error .reservedBit

/-- Format W (R92): `v = d[31:16]`, `n = d[12:8]`; bits 15:13 are reserved and `n > 16` is illegal. -/
def formatW (d : Word) (f : BitVec 5 → BitVec 16 → Instr) : Except DecodeError Instr :=
  if field d 13 3 = 0 then
    if field d 8 5 ≤ 16 then .ok (f (BitVec.ofNat 5 (field d 8 5)) (BitVec.ofNat 16 (field d 16 16)))
    else .error .countAbove16
  else .error .reservedBit

/-- R96: the command a word stands for, or the name of what makes it ILLEGAL. -/
def decode (d : Word) : Except DecodeError Instr :=
  if field d 32 32 = 0 then
    match field d 0 8 with
    | 0x00 => formatN d .nop
    | 0x01 => formatN d .fdct
    | 0x02 => formatN d .idct
    | 0x03 => formatQ d .qtbuild
    | 0x04 => formatT d .quant
    | 0x05 => formatN d .zigzag
    | 0x06 => formatN d .unzigzag
    | 0x07 => formatC d .symb
    | 0x08 => formatT d .huff
    | 0x09 => formatCT d .encblk
    | 0x0A => formatW d .wrbits
    | 0x0B => formatN d .flush
    | 0x0C => formatN d .bwreset
    | 0x0D => formatN d .rstpred
    | 0x0E => formatN d .clrerr
    | 0x0F => formatN d .sreset
    | _ => .error .reservedOpcode
  else .error .reservedBit

/-- `spec/opcode_table.json` numbers a command's bits as R90 does, so its word is the bus word itself. -/
def decodeTableWord (_nbits w : Nat) : Option Instr :=
  if w < 2 ^ 64 then (decode (BitVec.ofNat 64 w)).toOption else none

/-- The one-bit field of a table class (R17). -/
def tableClassCode : TableClass → Nat
  | .luma => 0
  | .chroma => 1

/-- The two-bit field of a component (R17). -/
def componentCode : Component → Nat
  | .y => 0
  | .cb => 1
  | .cr => 2

/-- The opcode of a command (R95). -/
def opcodeOf : Instr → Nat
  | .nop => 0x00
  | .fdct => 0x01
  | .idct => 0x02
  | .qtbuild _ _ => 0x03
  | .quant _ => 0x04
  | .zigzag => 0x05
  | .unzigzag => 0x06
  | .symb _ => 0x07
  | .huff _ => 0x08
  | .encblk _ _ => 0x09
  | .wrbits _ _ => 0x0A
  | .flush => 0x0B
  | .bwreset => 0x0C
  | .rstpred => 0x0D
  | .clrerr => 0x0E
  | .sreset => 0x0F

/-- The operand bits of a command, at their places in the word (R92). -/
def operandBits : Instr → Nat
  | .qtbuild t q => q.toNat * 2 ^ 16 + tableClassCode t * 2 ^ 8
  | .quant t => tableClassCode t * 2 ^ 8
  | .symb c => componentCode c * 2 ^ 10
  | .huff t => tableClassCode t * 2 ^ 8
  | .encblk c t => componentCode c * 2 ^ 10 + tableClassCode t * 2 ^ 8
  | .wrbits n v => v.toNat * 2 ^ 16 + n.toNat * 2 ^ 8
  | .nop | .fdct | .idct | .zigzag | .unzigzag | .flush | .bwreset | .rstpred | .clrerr | .sreset => 0

/-- The command word of a well-formed command (R90, R92, R95). -/
def encode (i : Instr) : Word := BitVec.ofNat 64 (operandBits i + opcodeOf i)

end Sys2Proof
end

