-- ==== Sys2Proof/Config.lean ====
section
/-! DEFINITION. Config.lean: the parameters of R8 and the identification constant: the value this hardware takes, or,
where the spec leaves the parameter open, a constant without a body. -/

namespace Sys2Proof

/-- `OUT_CAP`, the capacity of the output byte queue in bytes: 1024 for this hardware (R8, D18). -/
def Config.outCap : Nat := 1024

/-- The value of the read-only `ID` register (R3, D31). -/
def Config.idWord : Word := 0x4A50_4547_0007_0001

/-- FREE VALUE (parameter `LAT`, R8, R296, U4). The `n`-th accepted command takes `1 + Config.latExtra n` cycles:
finite, at least 1, otherwise unconstrained, and free for every execution. Log entry 4. -/
opaque Config.latExtra : Nat → Nat

/-- FREE VALUE (parameter `NAN_RESULT`, R8, R126, D39, U1). Bit 52 is the sign, bits 51:0 the fraction of the `n`-th NaN
that FDCT or IDCT draws (`Machine.nanPattern` keeps the fraction nonzero). Log entry 5. -/
opaque Config.freeNaN : Nat → BitVec 53

end Sys2Proof
end

