-- ==== Sys2Proof/Machine/Tables.lean ====
section
/-! DEFINITION. Machine/Tables.lean: the constant data of R37 that the transform, quantizer and zigzag engines read:
`COS`, `A0`, `SC` (R120), `BASE` (R140), `ZZ`, `ZI` (R160). The code tables stand in Machine/CodeTables.lean. -/

namespace Sys2Proof.Machine

/-- The block whose `k`-th element is `f k`. -/
def tabulate {α : Type} (f : Fin 64 → α) : Block α := ⟨⟨List.ofFn f⟩, by simp⟩

/-- The block whose elements are listed row by row, eight rows of eight (R16). -/
def blockOfRows {α : Type} (d : α) (rows : List (List α)) : Block α :=
  tabulate fun k => (rows.getD (k.val / 8) []).getD (k.val % 8) d

/-! ### Base quantization tables (R140) -/

def baseLumaRows : List (List Byte) :=
  [[16, 11, 10, 16, 24, 40, 51, 61],
   [12, 12, 14, 19, 26, 58, 60, 55],
   [14, 13, 16, 24, 40, 57, 69, 56],
   [14, 17, 22, 29, 51, 87, 80, 62],
   [18, 22, 37, 56, 68, 109, 103, 77],
   [24, 35, 55, 64, 81, 104, 113, 92],
   [49, 64, 78, 87, 103, 121, 120, 101],
   [72, 92, 95, 98, 112, 100, 103, 99]]

def baseChromaRows : List (List Byte) :=
  [[17, 18, 24, 47, 99, 99, 99, 99],
   [18, 21, 26, 66, 99, 99, 99, 99],
   [24, 26, 56, 99, 99, 99, 99, 99],
   [47, 66, 99, 99, 99, 99, 99, 99],
   [99, 99, 99, 99, 99, 99, 99, 99],
   [99, 99, 99, 99, 99, 99, 99, 99],
   [99, 99, 99, 99, 99, 99, 99, 99],
   [99, 99, 99, 99, 99, 99, 99, 99]]

/-- `BASE[t]` (R140). -/
def base : TableClass → Block Byte
  | .luma => blockOfRows 0 baseLumaRows
  | .chroma => blockOfRows 0 baseChromaRows

/-! ### Zigzag permutation (R160) -/

def zzRows : List (List (Fin 64)) :=
  [[0, 1, 8, 16, 9, 2, 3, 10], [17, 24, 32, 25, 18, 11, 4, 5],
   [12, 19, 26, 33, 40, 48, 41, 34], [27, 20, 13, 6, 7, 14, 21, 28],
   [35, 42, 49, 56, 57, 50, 43, 36], [29, 22, 15, 23, 30, 37, 44, 51],
   [58, 59, 52, 45, 38, 31, 39, 46], [53, 60, 61, 54, 47, 55, 62, 63]]

def ziRows : List (List (Fin 64)) :=
  [[0, 1, 5, 6, 14, 15, 27, 28],
   [2, 4, 7, 13, 16, 26, 29, 42],
   [3, 8, 12, 17, 25, 30, 41, 43],
   [9, 11, 18, 24, 31, 40, 44, 53],
   [10, 19, 23, 32, 39, 45, 52, 54],
   [20, 22, 33, 38, 46, 51, 55, 60],
   [21, 34, 37, 47, 50, 56, 59, 61],
   [35, 36, 48, 49, 57, 58, 62, 63]]

/-- `ZZ[i]`, the natural index at scan position `i` (R160). -/
def zz (i : Fin 64) : Fin 64 := (zzRows.getD (i.val / 8) []).getD (i.val % 8) 0

/-- `ZI[k]`, the scan position of natural index `k` (R160). -/
def zi (k : Fin 64) : Fin 64 := (ziRows.getD (k.val / 8) []).getD (k.val % 8) 0

/-! ### Transform constants (R120) -/

/-- `SC` = 0.25, the source's scale 1/4. -/
def scPattern : Word := 0x3FD0_0000_0000_0000

/-- `RN(cos(mπ/16))` for m = 0..7 (R120, first table); `A0` is the entry m = 4. -/
def c0 : Word := 0x3FF0_0000_0000_0000
def c1 : Word := 0x3FEF_6297_CFF7_5CB0
def c2 : Word := 0x3FED_906B_CF32_8D46
def c3 : Word := 0x3FEA_9B66_290E_A1A3
def c4 : Word := 0x3FE6_A09E_667F_3BCD
def c5 : Word := 0x3FE1_C73B_39AE_68C8
def c6 : Word := 0x3FD8_7DE2_A6AE_A963
def c7 : Word := 0x3FC8_F8B8_3C69_A60B

/-- The same pattern with bit 63 set (R120: the leading `-` of the second table). -/
def negated (w : Word) : Word := w ||| 0x8000_0000_0000_0000

def cosRows : List (List Word) :=
  [[c0, c1, c2, c3, c4, c5, c6, c7],
   [c0, c3, c6, negated c7, negated c4, negated c1, negated c2, negated c5],
   [c0, c5, negated c6, negated c1, negated c4, c7, c2, c3],
   [c0, c7, negated c2, negated c5, c4, c3, negated c6, negated c1],
   [c0, negated c7, negated c2, c5, c4, negated c3, negated c6, c1],
   [c0, negated c5, negated c6, c1, negated c4, negated c7, c2, negated c3],
   [c0, negated c3, c6, c7, negated c4, c1, negated c2, c5],
   [c0, negated c1, c2, negated c3, c4, negated c5, c6, negated c7]]

/-- The pattern of `COS[x][u]` (R120, second table). -/
def cosPattern (x u : Nat) : Word := (cosRows.getD x []).getD u 0

/-- The pattern of `alpha(k)`: `A0` for k = 0, else 1.0 (R120). -/
def alphaPattern (k : Nat) : Word := if k = 0 then c4 else c0

end Sys2Proof.Machine
end

