-- ==== Sys2Proof/Machine/State.lean ====
section
/-! DEFINITION. Machine/State.lean: everything the spec gives the core (R20), the reset input and the BUSY handshake, and
the host's accesses, as plain data; the reasons a step can stop; the state after reset (R280). -/

namespace Sys2Proof.Machine

/-- What the host does in one cycle (R14, R98, R99, R295). -/
inductive HostOp where
  /-- `MemRead(a, 8)` (R14). -/
  | read (a : BusAddr)
  /-- `MemWrite(a, 8, d)` (R14). -/
  | write (a : BusAddr) (d : Word)
  /-- `WAIT` (R98): read `STATUS` until `BUSY` = 0. -/
  | wait
  /-- `DRAIN` (R99): read `OUT_DATA` until bit 8 of the word read is 0. -/
  | drain
  /-- A cycle in which the host makes no access. -/
  | idle
  /-- The reset input is asserted (R280). -/
  | assertReset
  /-- The reset input is released (R280). -/
  | releaseReset
  deriving DecidableEq, Repr

/-- Why a step stops. Both reasons are hazards of the HOST; no command's meaning raises one, and the core itself never
stops (R252). -/
inductive Fault where
  /-- Raised by the bus when the host makes an access other than a `STATUS` read after a `CMD` write and before it has read
  `STATUS` with `BUSY` = 0 (R290, U2: the model treats it as a fault). Safe. -/
  | busyHazard
  /-- Raised by the bus when the host makes an access while the reset input is asserted (R281, U3). Safe. -/
  | accessDuringReset
  deriving DecidableEq, Repr

/-- Why the model gives no meaning. -/
inductive Refusal where
  /-- Raised by an arm of `exec` whose command has no meaning yet; no arm does. Safe. -/
  | notModelled (mnemonic : String)
  deriving DecidableEq, Repr

/-- The state of the core, its reset input and its host interface. The first seventeen fields are the items of R20 (`STATUS` is its
three fields `BUSY`, `ERR`, `ERRCODE`); the rest is named in INVENTORY.md. -/
structure State where
  /-- Spatial block, binary64 patterns, natural order (R21). -/
  S : Block Word
  /-- Coefficient block, binary64 patterns, natural order (R22). -/
  C : Block Word
  /-- Quantized block, signed, natural order (R23). -/
  QB : Block Half
  /-- Quantized block, signed, zigzag order (R24). -/
  ZB : Block Half
  /-- Quantization divisors of the two table classes, natural order (R25). -/
  QT : Vector (Block Byte) 2
  /-- The quality each table was built for (R26). -/
  QUAL : Vector (BitVec 7) 2
  /-- Symbol words (R27, R28). -/
  SYMBUF : Block Word
  /-- Number of valid symbol words (R29). -/
  SYMCNT : BitVec 7
  /-- DC predictors of Y, Cb, Cr (R30). -/
  PRED : Vector Half 3
  /-- Pending bits of the bit-writer (R31). -/
  ACC : BitVec 7
  /-- Their count (R31). -/
  NBITS : BitVec 3
  /-- The output byte queue, oldest byte first (R32). -/
  OUTQ : List Byte
  /-- `STATUS` bit 0 (R33). -/
  BUSY : Bool
  /-- `STATUS` bit 1 (R33). -/
  ERR : Bool
  /-- `STATUS` bits 15:8 (R33). -/
  ERRCODE : BitVec 8
  /-- Detail of the recorded error (R34). -/
  ERR_INFO : Word
  /-- The last word written to `CMD` (R35). -/
  LASTCMD : Word
  /-- The reset input is asserted (R280). -/
  inReset : Bool
  /-- The host has written `CMD` and not yet read `STATUS` with `BUSY` = 0 (R290). -/
  mustPoll : Bool
  /-- `ERR` at the acceptance of the command in flight, shown while `BUSY` = 1 (R39). -/
  heldERR : Bool
  /-- `ERRCODE` at the acceptance of the command in flight (R39). -/
  heldERRCODE : BitVec 8
  /-- Cycles until the command in flight ends (`LAT`, R8). -/
  latLeft : Nat
  /-- The model's own: draws made of `Config.latExtra`. -/
  latDraws : Nat
  /-- The model's own: draws made of `Config.freeNaN`. -/
  nanDraws : Nat
  /-- The model's own: what the host does in the coming cycles, next first. -/
  hostq : List HostOp
  /-- The model's own: what the host has read, address and word, newest first. -/
  reads : List (BusAddr × Word)
  deriving DecidableEq, Repr

/-- The state when the reset input has just been released (R280), and no host access is waiting. -/
def State.reset : State where
  S := Vector.replicate 64 0
  C := Vector.replicate 64 0
  QB := Vector.replicate 64 0
  ZB := Vector.replicate 64 0
  QT := #v[base .luma, base .chroma]
  QUAL := #v[50, 50]
  SYMBUF := Vector.replicate 64 0
  SYMCNT := 0
  PRED := #v[0, 0, 0]
  ACC := 0
  NBITS := 0
  OUTQ := []
  BUSY := false
  ERR := false
  ERRCODE := 0
  ERR_INFO := 0
  LASTCMD := 0
  inReset := false
  mustPoll := false
  heldERR := false
  heldERRCODE := 0
  latLeft := 0
  latDraws := 0
  nanDraws := 0
  hostq := []
  reads := []

end Sys2Proof.Machine
end

