-- ==== Sys2Proof/Machine/Operands.lean ====
section
/-! DEFINITION. Machine/Operands.lean: how a command's operands name registers (R17, R93), the fields of a symbol word (R28,
R172), and the integer helpers of R11, R170, R171. -/

namespace Sys2Proof.Machine

/-- The row of `QT` and `QUAL` that a table class selects (R17). -/
def tableIndex : TableClass → Fin 2
  | .luma => 0
  | .chroma => 1

/-- The element of `PRED` that a component selects (R17). -/
def predIndex : Component → Fin 3
  | .y => 0
  | .cb => 1
  | .cr => 2

/-- `QT[t]` (R25). -/
def State.qtOf (s : State) (t : TableClass) : Block Byte := s.QT[tableIndex t]

/-- `QUAL[t]` (R26). -/
def State.qualOf (s : State) (t : TableClass) : BitVec 7 := s.QUAL[tableIndex t]

/-- `PRED[c]` (R30). -/
def State.predOf (s : State) (c : Component) : Half := s.PRED[predIndex c]

/-- `SYMBUF[0..SYMCNT−1]` (R29). -/
def State.symbols (s : State) : List Word := s.SYMBUF.toList.take s.SYMCNT.toNat

/-- `bitlen(n)` (R11). -/
def bitlen (n : Nat) : Nat := if n = 0 then 0 else Nat.log2 n + 1

/-- The category of a value, uncapped (R170, 90_conflicts.md C3). -/
def category (v : Int) : Nat := bitlen v.natAbs

/-- The amplitude bits of `v` in `len` bits, as a number (R171). -/
def amp (v : Int) (len : Nat) : Nat := ((if 0 ≤ v then v else v + 2 ^ len - 1) % 2 ^ len).toNat

/-- What a symbol word stands for (R28). -/
inductive SymKind where
  | dc
  | ac
  | zrl
  | eob
  deriving DecidableEq, Repr

/-- The `kind` field, bits 49:48 (R28). -/
def kindCode : SymKind → Nat
  | .dc => 0
  | .ac => 1
  | .zrl => 2
  | .eob => 3

/-- `symword(kind, run, size, value)` (R172). The fields do not overlap, so the sum is the spec's bitwise or. -/
def symword (kind : SymKind) (run len : Nat) (value : Int) : Word :=
  BitVec.ofNat 64 (kindCode kind * 2 ^ 48 + run * 2 ^ 40 + len * 2 ^ 32 + (value % 2 ^ 32).toNat)

/-- `w[49:48]` (R28). -/
def symKind (w : Word) : SymKind :=
  match w.toNat / 2 ^ 48 % 4 with
  | 0 => .dc
  | 1 => .ac
  | 2 => .zrl
  | _ => .eob

/-- `w[43:40]` (R28). -/
def symRun (w : Word) : Nat := w.toNat / 2 ^ 40 % 2 ^ 4

/-- `w[36:32]` (R28). -/
def symSize (w : Word) : Nat := w.toNat / 2 ^ 32 % 2 ^ 5

/-- `sext_32(w[31:0])` (R28, R195). -/
def symValue (w : Word) : Int := (BitVec.ofNat 32 w.toNat).toInt

end Sys2Proof.Machine
end

