-- ==== Sys2Proof/Machine/Flags.lean ====
section
/-! DEFINITION. Machine/Flags.lean: the two flags of the core, `BUSY` and `ERR` (R38), as the host sees them in `STATUS` (R33),
the error record `ERR_INFO` (R34, R250), and what the flags do to a command (R91). -/

namespace Sys2Proof.Machine

/-- A number with a bit's value. -/
def bitOf (b : Bool) : Nat := if b then 1 else 0

/-- The layout of `STATUS` (R33): reserved bits read 0. -/
def statusLayout (busy err : Bool) (code : BitVec 8) : Word :=
  BitVec.ofNat 64 (code.toNat * 2 ^ 8 + bitOf err * 2 + bitOf busy)

/-- What a read of `STATUS` returns (R33, R74). While a command is in flight its results are not yet visible (R39), so `ERR` and
`ERRCODE` read as they stood when it was accepted. Log entry 3. -/
def State.statusWord (s : State) : Word :=
  if s.BUSY then statusLayout true s.heldERR s.heldERRCODE else statusLayout false s.ERR s.ERRCODE

/-- `BW_STATE` (R36, R77). -/
def State.bwStateWord (s : State) : Word := BitVec.ofNat 64 (s.NBITS.toNat * 2 ^ 8 + s.ACC.toNat)

/-- The errors a command raises, with their detail (R250). -/
inductive ErrorEvent where
  | illegalCmd
  | quality (q : Nat)
  | range (k : Nat)
  | category (i : Nat)
  | outFull (m : Nat)
  deriving DecidableEq, Repr

/-- `ERRCODE` of an error (R250). -/
def ErrorEvent.code : ErrorEvent → BitVec 8
  | .illegalCmd => 0x01
  | .quality _ => 0x02
  | .range _ => 0x03
  | .category _ => 0x04
  | .outFull _ => 0x05

/-- The detail of an error (R250). -/
def ErrorEvent.detail : ErrorEvent → Nat
  | .illegalCmd => 0
  | .quality q => q
  | .range k => k
  | .category i => i
  | .outFull m => m

/-- `(zext(detail) << 16) | zext(LASTCMD[7:0])`, the detail a 16-bit field (R34, R252). -/
def errInfoWord (detail : Nat) (lastcmd : Word) : Word :=
  BitVec.ofNat 64 (detail % 2 ^ 16 * 2 ^ 16 + lastcmd.toNat % 2 ^ 8)

/-- R91: while `ERR` = 1 every word is rejected whose opcode is not CLRERR's or SRESET's. -/
def State.rejects (s : State) (d : Word) : Bool :=
  s.ERR && !(d.toNat % 2 ^ 8 == 0x0E) && !(d.toNat % 2 ^ 8 == 0x0F)

/-- One cycle of the latency of the command in flight passes; in its last cycle `BUSY` falls (R91, R296). -/
def State.tick (s : State) : State :=
  if s.BUSY then
    { s with latLeft := s.latLeft - 1, BUSY := decide (1 < s.latLeft) }
  else s

/-- R290: the host may read `STATUS` only. (A state with `BUSY` = 1 that no `CMD` write led to is in the window too.) -/
def State.inWindow (s : State) : Bool := s.mustPoll || s.BUSY

end Sys2Proof.Machine
end

