-- ==== Sys2Proof/Machine/Ops.lean ====
section
/-! DEFINITION. Machine/Ops.lean: the operations the commands share: the commits of each register (R15), the error entry (R252) and the
return from it (R254), the bit-writer (R210, R211, R216) and soft reset (R234, R280). -/

namespace Sys2Proof.Machine

/-- The outcome of one step. -/
abbrev Result := Host.Outcome State Fault Refusal

/-! ### Commits: each changes the registers it names and nothing else -/

def State.setS (s : State) (b : Block Word) : State := { s with S := b }

def State.setC (s : State) (b : Block Word) : State := { s with C := b }

def State.setQB (s : State) (b : Block Half) : State := { s with QB := b }

def State.setZB (s : State) (b : Block Half) : State := { s with ZB := b }

/-- `QT[t] <- b; QUAL[t] <- q` (R142). -/
def State.setTable (s : State) (t : TableClass) (b : Block Byte) (q : BitVec 7) : State :=
  { s with QT := s.QT.set (tableIndex t).val b, QUAL := s.QUAL.set (tableIndex t).val q }

/-- The list `l` over the first words of a buffer; the words past it are unchanged (R174). -/
def overlay (buf : Block Word) (l : List Word) : Block Word := tabulate fun i => l.getD i.val buf[i]

/-- `SYMBUF[0..n−1] <- l; SYMCNT <- n; PRED[c] <- p` (R174). -/
def State.setSymbols (s : State) (l : List Word) (c : Component) (p : Half) : State :=
  { s with SYMBUF := overlay s.SYMBUF l, SYMCNT := BitVec.ofNat 7 l.length, PRED := s.PRED.set (predIndex c).val p }

def State.setPred (s : State) (p : Vector Half 3) : State := { s with PRED := p }

/-- `ACC <- a; NBITS <- nb; OUTQ <- q` (R213). -/
def State.setWriter (s : State) (a nb : Nat) (q : List Byte) : State :=
  { s with ACC := BitVec.ofNat 7 a, NBITS := BitVec.ofNat 3 nb, OUTQ := q }

/-- `OUTQ <- q` (R76). -/
def State.setOutq (s : State) (q : List Byte) : State := { s with OUTQ := q }

/-- `SYMBUF <- b` (R71). -/
def State.setSymbuf (s : State) (b : Block Word) : State := { s with SYMBUF := b }

/-- `SYMCNT <- n` (R73). -/
def State.setSymcnt (s : State) (n : BitVec 7) : State := { s with SYMCNT := n }

/-- What the host does from now on. -/
def State.setHostq (s : State) (q : List HostOp) : State := { s with hostq := q }

/-- The reset input is asserted or released (R280). -/
def State.setInReset (s : State) (b : Bool) : State := { s with inReset := b }

/-- `BUSY <- 0`: no cycles of `LAT` are left (R91). -/
def State.setIdle (s : State) : State := { s with BUSY := false, latLeft := 0 }

/-- `n` draws of the free NaN encodings have been made (R126). -/
def State.drawNaNs (s : State) (n : Nat) : State := { s with nanDraws := s.nanDraws + n }

/-! ### Errors -/

/-- The error entry (R252): the first error is recorded with the opcode of the command being executed (`LASTCMD[7:0]`); a second
one changes nothing. No temporary of the command is committed, nothing is saved and control goes nowhere. -/
def errorEntry (e : ErrorEvent) (s : State) : State :=
  if s.ERR then s
  else { s with ERR := true, ERRCODE := e.code, ERR_INFO := errInfoWord e.detail s.LASTCMD }

/-- The return from an error (R233, R254). -/
def clearError (s : State) : State := { s with ERR := false, ERRCODE := 0, ERR_INFO := 0 }

/-- `raise` or commit (R15): a command that raised leaves the state before it, but for the error entry. -/
def conclude (s : State) : Except ErrorEvent State → Result
  | .ok s' => .next s'
  | .error e => .next (errorEntry e s)

/-! ### The bit-writer -/

/-- A (length, value) item (R195, R211). -/
structure CodeItem where
  len : Nat
  val : Nat
  deriving DecidableEq, Repr

/-- `emit(b, Q)` as the bytes it appends: a 0xFF is followed by a stuffed 0x00 (R210). -/
def emit (b : Byte) : List Byte := if b = 0xFF then [0xFF, 0x00] else [b]

/-- The `len` low bits of `val`, most significant first (R211, R212). -/
def itemBits (it : CodeItem) : List Bool := (List.range it.len).reverse.map it.val.testBit

/-- What `pack` returns: the pending state and the bytes completed. -/
structure Packed where
  acc : Nat
  nbits : Nat
  bytes : List Byte
  deriving DecidableEq, Repr

/-- The loop body of `pack` over the bits of its items (R211). -/
def packBits (a nb : Nat) : List Bool → Packed
  | [] => ⟨a, nb, []⟩
  | b :: bs =>
    if nb + 1 = 8 then
      let r := packBits 0 0 bs
      { r with bytes := emit (BitVec.ofNat 8 (2 * a + bitOf b)) ++ r.bytes }
    else packBits (2 * a + bitOf b) (nb + 1) bs

/-- `pack(a, nb, items)` (R211). -/
def pack (a nb : Nat) (items : List CodeItem) : Packed := packBits a nb (items.flatMap itemBits)

/-- Append items to the stream (R213, R214, R197, R198): all the bytes, or `E_OUT_FULL` and none (R216). -/
def appendItems (items : List CodeItem) (s : State) : Except ErrorEvent State :=
  let r := pack s.ACC.toNat s.NBITS.toNat items
  if s.OUTQ.length + r.bytes.length > Config.outCap then .error (.outFull r.bytes.length)
  else .ok (s.setWriter r.acc r.nbits (s.OUTQ ++ r.bytes))

/-! ### Reset -/

/-- Every item of R20 at its reset value (R280), but for `LASTCMD` and `BUSY`; the host's side of the interface is no state of the
core and stays (R234; `BUSY` follows the acceptance rule). -/
def softReset (s : State) : State :=
  { State.reset with
    LASTCMD := s.LASTCMD, BUSY := s.BUSY, inReset := s.inReset, mustPoll := s.mustPoll, heldERR := s.heldERR,
    heldERRCODE := s.heldERRCODE, latLeft := s.latLeft, latDraws := s.latDraws, nanDraws := s.nanDraws,
    hostq := s.hostq, reads := s.reads }

/-- The state when the reset input is released (R280): `State.reset`, but for what the model's own counters, the host's coming accesses and
the host's record of its reads hold. -/
def hardReset (s : State) : State :=
  { State.reset with latDraws := s.latDraws, nanDraws := s.nanDraws, hostq := s.hostq, reads := s.reads }

end Sys2Proof.Machine
end

