-- ==== Sys2Proof/Machine/BitPacker.lean ====
section
/-! DEFINITION. Machine/BitPacker.lean: WRBITS (R213), FLUSH (R214), BWRESET (R215). -/

namespace Sys2Proof.Machine

/-- WRBITS n, v (R213): the low `n` bits of `v`. -/
def execWrbits (n : BitVec 5) (v : BitVec 16) (s : State) : Result :=
  conclude s (appendItems [⟨n.toNat, v.toNat % 2 ^ n.toNat⟩] s)

/-- The padding of FLUSH: `8 − NBITS` one-bits, or nothing on an aligned stream (R214). -/
def padding (nb : Nat) : List CodeItem := if nb = 0 then [] else [⟨8 - nb, 2 ^ (8 - nb) - 1⟩]

/-- FLUSH (R214). -/
def execFlush (s : State) : Result := conclude s (appendItems (padding s.NBITS.toNat) s)

/-- BWRESET (R215): pending bits and undrained bytes are discarded. -/
def execBwreset (s : State) : Result := conclude s (.ok (s.setWriter 0 0 []))

end Sys2Proof.Machine
end

