-- ==== Sys2Proof/Machine/Control.lean ====
section
/-! DEFINITION. Machine/Control.lean: NOP (R232), CLRERR (R233), SRESET (R234). -/

namespace Sys2Proof.Machine

/-- NOP (R232): nothing beyond the effects of acceptance. -/
def execNop (s : State) : Result := conclude s (.ok s)

/-- CLRERR (R233). -/
def execClrerr (s : State) : Result := conclude s (.ok (clearError s))

/-- SRESET (R234). -/
def execSreset (s : State) : Result := conclude s (.ok (softReset s))

end Sys2Proof.Machine
end

