-- ==== Sys2Proof/Machine/CodeTables.lean ====
section
/-! DEFINITION. Machine/CodeTables.lean: the four fixed code tables (R190 to R193), row by row as the spec prints them, and the lists and
procedure of R194 that generate them. -/

namespace Sys2Proof.Machine

/-- One row of a code table: its key (a size, or a run/size byte), the code's length, the code with its first bit most significant. -/
structure CodeRow where
  key : Nat
  len : Nat
  code : Nat
  deriving DecidableEq, Repr

/-- `DCTAB[0]` (R190), keyed by size. -/
def dcLumaRows : List CodeRow :=
  [⟨0x00, 2, 0b00⟩, ⟨0x01, 3, 0b010⟩, ⟨0x02, 3, 0b011⟩, ⟨0x03, 3, 0b100⟩] ++
  [⟨0x04, 3, 0b101⟩, ⟨0x05, 3, 0b110⟩, ⟨0x06, 4, 0b1110⟩, ⟨0x07, 5, 0b11110⟩] ++
  [⟨0x08, 6, 0b111110⟩, ⟨0x09, 7, 0b1111110⟩, ⟨0x0A, 8, 0b11111110⟩, ⟨0x0B, 9, 0b111111110⟩]

/-- `DCTAB[1]` (R191), keyed by size. -/
def dcChromaRows : List CodeRow :=
  [⟨0x00, 2, 0b00⟩, ⟨0x01, 2, 0b01⟩, ⟨0x02, 2, 0b10⟩, ⟨0x03, 3, 0b110⟩] ++
  [⟨0x04, 4, 0b1110⟩, ⟨0x05, 5, 0b11110⟩, ⟨0x06, 6, 0b111110⟩, ⟨0x07, 7, 0b1111110⟩] ++
  [⟨0x08, 8, 0b11111110⟩, ⟨0x09, 9, 0b111111110⟩, ⟨0x0A, 10, 0b1111111110⟩, ⟨0x0B, 11, 0b11111111110⟩]

/-! ### `ACTAB[0]` (R192), keyed by the run/size byte: EOB and ZRL, then one list for each run -/

def acLumaEscapes : List CodeRow :=
  [⟨0x00, 4, 0b1010⟩, ⟨0xF0, 11, 0b11111111001⟩]

def acLumaRun0 : List CodeRow :=
  [⟨0x01, 2, 0b00⟩, ⟨0x02, 2, 0b01⟩, ⟨0x03, 3, 0b100⟩, ⟨0x04, 4, 0b1011⟩, ⟨0x05, 5, 0b11010⟩,
   ⟨0x06, 7, 0b1111000⟩, ⟨0x07, 8, 0b11111000⟩, ⟨0x08, 10, 0b1111110110⟩, ⟨0x09, 16, 0b1111111110000010⟩, ⟨0x0A, 16, 0b1111111110000011⟩]

def acLumaRun1 : List CodeRow :=
  [⟨0x11, 4, 0b1100⟩, ⟨0x12, 5, 0b11011⟩, ⟨0x13, 7, 0b1111001⟩, ⟨0x14, 9, 0b111110110⟩, ⟨0x15, 11, 0b11111110110⟩,
   ⟨0x16, 16, 0b1111111110000100⟩, ⟨0x17, 16, 0b1111111110000101⟩, ⟨0x18, 16, 0b1111111110000110⟩, ⟨0x19, 16, 0b1111111110000111⟩, ⟨0x1A, 16, 0b1111111110001000⟩]

def acLumaRun2 : List CodeRow :=
  [⟨0x21, 5, 0b11100⟩, ⟨0x22, 8, 0b11111001⟩, ⟨0x23, 10, 0b1111110111⟩, ⟨0x24, 12, 0b111111110100⟩, ⟨0x25, 16, 0b1111111110001001⟩,
   ⟨0x26, 16, 0b1111111110001010⟩, ⟨0x27, 16, 0b1111111110001011⟩, ⟨0x28, 16, 0b1111111110001100⟩, ⟨0x29, 16, 0b1111111110001101⟩, ⟨0x2A, 16, 0b1111111110001110⟩]

def acLumaRun3 : List CodeRow :=
  [⟨0x31, 6, 0b111010⟩, ⟨0x32, 9, 0b111110111⟩, ⟨0x33, 12, 0b111111110101⟩, ⟨0x34, 16, 0b1111111110001111⟩, ⟨0x35, 16, 0b1111111110010000⟩,
   ⟨0x36, 16, 0b1111111110010001⟩, ⟨0x37, 16, 0b1111111110010010⟩, ⟨0x38, 16, 0b1111111110010011⟩, ⟨0x39, 16, 0b1111111110010100⟩, ⟨0x3A, 16, 0b1111111110010101⟩]

def acLumaRun4 : List CodeRow :=
  [⟨0x41, 6, 0b111011⟩, ⟨0x42, 10, 0b1111111000⟩, ⟨0x43, 16, 0b1111111110010110⟩, ⟨0x44, 16, 0b1111111110010111⟩, ⟨0x45, 16, 0b1111111110011000⟩,
   ⟨0x46, 16, 0b1111111110011001⟩, ⟨0x47, 16, 0b1111111110011010⟩, ⟨0x48, 16, 0b1111111110011011⟩, ⟨0x49, 16, 0b1111111110011100⟩, ⟨0x4A, 16, 0b1111111110011101⟩]

def acLumaRun5 : List CodeRow :=
  [⟨0x51, 7, 0b1111010⟩, ⟨0x52, 11, 0b11111110111⟩, ⟨0x53, 16, 0b1111111110011110⟩, ⟨0x54, 16, 0b1111111110011111⟩, ⟨0x55, 16, 0b1111111110100000⟩,
   ⟨0x56, 16, 0b1111111110100001⟩, ⟨0x57, 16, 0b1111111110100010⟩, ⟨0x58, 16, 0b1111111110100011⟩, ⟨0x59, 16, 0b1111111110100100⟩, ⟨0x5A, 16, 0b1111111110100101⟩]

def acLumaRun6 : List CodeRow :=
  [⟨0x61, 7, 0b1111011⟩, ⟨0x62, 12, 0b111111110110⟩, ⟨0x63, 16, 0b1111111110100110⟩, ⟨0x64, 16, 0b1111111110100111⟩, ⟨0x65, 16, 0b1111111110101000⟩,
   ⟨0x66, 16, 0b1111111110101001⟩, ⟨0x67, 16, 0b1111111110101010⟩, ⟨0x68, 16, 0b1111111110101011⟩, ⟨0x69, 16, 0b1111111110101100⟩, ⟨0x6A, 16, 0b1111111110101101⟩]

def acLumaRun7 : List CodeRow :=
  [⟨0x71, 8, 0b11111010⟩, ⟨0x72, 12, 0b111111110111⟩, ⟨0x73, 16, 0b1111111110101110⟩, ⟨0x74, 16, 0b1111111110101111⟩, ⟨0x75, 16, 0b1111111110110000⟩,
   ⟨0x76, 16, 0b1111111110110001⟩, ⟨0x77, 16, 0b1111111110110010⟩, ⟨0x78, 16, 0b1111111110110011⟩, ⟨0x79, 16, 0b1111111110110100⟩, ⟨0x7A, 16, 0b1111111110110101⟩]

def acLumaRun8 : List CodeRow :=
  [⟨0x81, 9, 0b111111000⟩, ⟨0x82, 15, 0b111111111000000⟩, ⟨0x83, 16, 0b1111111110110110⟩, ⟨0x84, 16, 0b1111111110110111⟩, ⟨0x85, 16, 0b1111111110111000⟩,
   ⟨0x86, 16, 0b1111111110111001⟩, ⟨0x87, 16, 0b1111111110111010⟩, ⟨0x88, 16, 0b1111111110111011⟩, ⟨0x89, 16, 0b1111111110111100⟩, ⟨0x8A, 16, 0b1111111110111101⟩]

def acLumaRun9 : List CodeRow :=
  [⟨0x91, 9, 0b111111001⟩, ⟨0x92, 16, 0b1111111110111110⟩, ⟨0x93, 16, 0b1111111110111111⟩, ⟨0x94, 16, 0b1111111111000000⟩, ⟨0x95, 16, 0b1111111111000001⟩,
   ⟨0x96, 16, 0b1111111111000010⟩, ⟨0x97, 16, 0b1111111111000011⟩, ⟨0x98, 16, 0b1111111111000100⟩, ⟨0x99, 16, 0b1111111111000101⟩, ⟨0x9A, 16, 0b1111111111000110⟩]

def acLumaRun10 : List CodeRow :=
  [⟨0xA1, 9, 0b111111010⟩, ⟨0xA2, 16, 0b1111111111000111⟩, ⟨0xA3, 16, 0b1111111111001000⟩, ⟨0xA4, 16, 0b1111111111001001⟩, ⟨0xA5, 16, 0b1111111111001010⟩,
   ⟨0xA6, 16, 0b1111111111001011⟩, ⟨0xA7, 16, 0b1111111111001100⟩, ⟨0xA8, 16, 0b1111111111001101⟩, ⟨0xA9, 16, 0b1111111111001110⟩, ⟨0xAA, 16, 0b1111111111001111⟩]

def acLumaRun11 : List CodeRow :=
  [⟨0xB1, 10, 0b1111111001⟩, ⟨0xB2, 16, 0b1111111111010000⟩, ⟨0xB3, 16, 0b1111111111010001⟩, ⟨0xB4, 16, 0b1111111111010010⟩, ⟨0xB5, 16, 0b1111111111010011⟩,
   ⟨0xB6, 16, 0b1111111111010100⟩, ⟨0xB7, 16, 0b1111111111010101⟩, ⟨0xB8, 16, 0b1111111111010110⟩, ⟨0xB9, 16, 0b1111111111010111⟩, ⟨0xBA, 16, 0b1111111111011000⟩]

def acLumaRun12 : List CodeRow :=
  [⟨0xC1, 10, 0b1111111010⟩, ⟨0xC2, 16, 0b1111111111011001⟩, ⟨0xC3, 16, 0b1111111111011010⟩, ⟨0xC4, 16, 0b1111111111011011⟩, ⟨0xC5, 16, 0b1111111111011100⟩,
   ⟨0xC6, 16, 0b1111111111011101⟩, ⟨0xC7, 16, 0b1111111111011110⟩, ⟨0xC8, 16, 0b1111111111011111⟩, ⟨0xC9, 16, 0b1111111111100000⟩, ⟨0xCA, 16, 0b1111111111100001⟩]

def acLumaRun13 : List CodeRow :=
  [⟨0xD1, 11, 0b11111111000⟩, ⟨0xD2, 16, 0b1111111111100010⟩, ⟨0xD3, 16, 0b1111111111100011⟩, ⟨0xD4, 16, 0b1111111111100100⟩, ⟨0xD5, 16, 0b1111111111100101⟩,
   ⟨0xD6, 16, 0b1111111111100110⟩, ⟨0xD7, 16, 0b1111111111100111⟩, ⟨0xD8, 16, 0b1111111111101000⟩, ⟨0xD9, 16, 0b1111111111101001⟩, ⟨0xDA, 16, 0b1111111111101010⟩]

def acLumaRun14 : List CodeRow :=
  [⟨0xE1, 16, 0b1111111111101011⟩, ⟨0xE2, 16, 0b1111111111101100⟩, ⟨0xE3, 16, 0b1111111111101101⟩, ⟨0xE4, 16, 0b1111111111101110⟩, ⟨0xE5, 16, 0b1111111111101111⟩,
   ⟨0xE6, 16, 0b1111111111110000⟩, ⟨0xE7, 16, 0b1111111111110001⟩, ⟨0xE8, 16, 0b1111111111110010⟩, ⟨0xE9, 16, 0b1111111111110011⟩, ⟨0xEA, 16, 0b1111111111110100⟩]

def acLumaRun15 : List CodeRow :=
  [⟨0xF1, 16, 0b1111111111110101⟩, ⟨0xF2, 16, 0b1111111111110110⟩, ⟨0xF3, 16, 0b1111111111110111⟩, ⟨0xF4, 16, 0b1111111111111000⟩, ⟨0xF5, 16, 0b1111111111111001⟩,
   ⟨0xF6, 16, 0b1111111111111010⟩, ⟨0xF7, 16, 0b1111111111111011⟩, ⟨0xF8, 16, 0b1111111111111100⟩, ⟨0xF9, 16, 0b1111111111111101⟩, ⟨0xFA, 16, 0b1111111111111110⟩]

/-! ### `ACTAB[1]` (R193) -/

def acChromaEscapes : List CodeRow :=
  [⟨0x00, 2, 0b00⟩, ⟨0xF0, 10, 0b1111111010⟩]

def acChromaRun0 : List CodeRow :=
  [⟨0x01, 2, 0b01⟩, ⟨0x02, 3, 0b100⟩, ⟨0x03, 4, 0b1010⟩, ⟨0x04, 5, 0b11000⟩, ⟨0x05, 5, 0b11001⟩,
   ⟨0x06, 6, 0b111000⟩, ⟨0x07, 7, 0b1111000⟩, ⟨0x08, 9, 0b111110100⟩, ⟨0x09, 10, 0b1111110110⟩, ⟨0x0A, 12, 0b111111110100⟩]

def acChromaRun1 : List CodeRow :=
  [⟨0x11, 4, 0b1011⟩, ⟨0x12, 6, 0b111001⟩, ⟨0x13, 8, 0b11110110⟩, ⟨0x14, 9, 0b111110101⟩, ⟨0x15, 11, 0b11111110110⟩,
   ⟨0x16, 12, 0b111111110101⟩, ⟨0x17, 16, 0b1111111110001000⟩, ⟨0x18, 16, 0b1111111110001001⟩, ⟨0x19, 16, 0b1111111110001010⟩, ⟨0x1A, 16, 0b1111111110001011⟩]

def acChromaRun2 : List CodeRow :=
  [⟨0x21, 5, 0b11010⟩, ⟨0x22, 8, 0b11110111⟩, ⟨0x23, 10, 0b1111110111⟩, ⟨0x24, 12, 0b111111110110⟩, ⟨0x25, 15, 0b111111111000010⟩,
   ⟨0x26, 16, 0b1111111110001100⟩, ⟨0x27, 16, 0b1111111110001101⟩, ⟨0x28, 16, 0b1111111110001110⟩, ⟨0x29, 16, 0b1111111110001111⟩, ⟨0x2A, 16, 0b1111111110010000⟩]

def acChromaRun3 : List CodeRow :=
  [⟨0x31, 5, 0b11011⟩, ⟨0x32, 8, 0b11111000⟩, ⟨0x33, 10, 0b1111111000⟩, ⟨0x34, 12, 0b111111110111⟩, ⟨0x35, 16, 0b1111111110010001⟩,
   ⟨0x36, 16, 0b1111111110010010⟩, ⟨0x37, 16, 0b1111111110010011⟩, ⟨0x38, 16, 0b1111111110010100⟩, ⟨0x39, 16, 0b1111111110010101⟩, ⟨0x3A, 16, 0b1111111110010110⟩]

def acChromaRun4 : List CodeRow :=
  [⟨0x41, 6, 0b111010⟩, ⟨0x42, 9, 0b111110110⟩, ⟨0x43, 16, 0b1111111110010111⟩, ⟨0x44, 16, 0b1111111110011000⟩, ⟨0x45, 16, 0b1111111110011001⟩,
   ⟨0x46, 16, 0b1111111110011010⟩, ⟨0x47, 16, 0b1111111110011011⟩, ⟨0x48, 16, 0b1111111110011100⟩, ⟨0x49, 16, 0b1111111110011101⟩, ⟨0x4A, 16, 0b1111111110011110⟩]

def acChromaRun5 : List CodeRow :=
  [⟨0x51, 6, 0b111011⟩, ⟨0x52, 10, 0b1111111001⟩, ⟨0x53, 16, 0b1111111110011111⟩, ⟨0x54, 16, 0b1111111110100000⟩, ⟨0x55, 16, 0b1111111110100001⟩,
   ⟨0x56, 16, 0b1111111110100010⟩, ⟨0x57, 16, 0b1111111110100011⟩, ⟨0x58, 16, 0b1111111110100100⟩, ⟨0x59, 16, 0b1111111110100101⟩, ⟨0x5A, 16, 0b1111111110100110⟩]

def acChromaRun6 : List CodeRow :=
  [⟨0x61, 7, 0b1111001⟩, ⟨0x62, 11, 0b11111110111⟩, ⟨0x63, 16, 0b1111111110100111⟩, ⟨0x64, 16, 0b1111111110101000⟩, ⟨0x65, 16, 0b1111111110101001⟩,
   ⟨0x66, 16, 0b1111111110101010⟩, ⟨0x67, 16, 0b1111111110101011⟩, ⟨0x68, 16, 0b1111111110101100⟩, ⟨0x69, 16, 0b1111111110101101⟩, ⟨0x6A, 16, 0b1111111110101110⟩]

def acChromaRun7 : List CodeRow :=
  [⟨0x71, 7, 0b1111010⟩, ⟨0x72, 11, 0b11111111000⟩, ⟨0x73, 16, 0b1111111110101111⟩, ⟨0x74, 16, 0b1111111110110000⟩, ⟨0x75, 16, 0b1111111110110001⟩,
   ⟨0x76, 16, 0b1111111110110010⟩, ⟨0x77, 16, 0b1111111110110011⟩, ⟨0x78, 16, 0b1111111110110100⟩, ⟨0x79, 16, 0b1111111110110101⟩, ⟨0x7A, 16, 0b1111111110110110⟩]

def acChromaRun8 : List CodeRow :=
  [⟨0x81, 8, 0b11111001⟩, ⟨0x82, 16, 0b1111111110110111⟩, ⟨0x83, 16, 0b1111111110111000⟩, ⟨0x84, 16, 0b1111111110111001⟩, ⟨0x85, 16, 0b1111111110111010⟩,
   ⟨0x86, 16, 0b1111111110111011⟩, ⟨0x87, 16, 0b1111111110111100⟩, ⟨0x88, 16, 0b1111111110111101⟩, ⟨0x89, 16, 0b1111111110111110⟩, ⟨0x8A, 16, 0b1111111110111111⟩]

def acChromaRun9 : List CodeRow :=
  [⟨0x91, 9, 0b111110111⟩, ⟨0x92, 16, 0b1111111111000000⟩, ⟨0x93, 16, 0b1111111111000001⟩, ⟨0x94, 16, 0b1111111111000010⟩, ⟨0x95, 16, 0b1111111111000011⟩,
   ⟨0x96, 16, 0b1111111111000100⟩, ⟨0x97, 16, 0b1111111111000101⟩, ⟨0x98, 16, 0b1111111111000110⟩, ⟨0x99, 16, 0b1111111111000111⟩, ⟨0x9A, 16, 0b1111111111001000⟩]

def acChromaRun10 : List CodeRow :=
  [⟨0xA1, 9, 0b111111000⟩, ⟨0xA2, 16, 0b1111111111001001⟩, ⟨0xA3, 16, 0b1111111111001010⟩, ⟨0xA4, 16, 0b1111111111001011⟩, ⟨0xA5, 16, 0b1111111111001100⟩,
   ⟨0xA6, 16, 0b1111111111001101⟩, ⟨0xA7, 16, 0b1111111111001110⟩, ⟨0xA8, 16, 0b1111111111001111⟩, ⟨0xA9, 16, 0b1111111111010000⟩, ⟨0xAA, 16, 0b1111111111010001⟩]

def acChromaRun11 : List CodeRow :=
  [⟨0xB1, 9, 0b111111001⟩, ⟨0xB2, 16, 0b1111111111010010⟩, ⟨0xB3, 16, 0b1111111111010011⟩, ⟨0xB4, 16, 0b1111111111010100⟩, ⟨0xB5, 16, 0b1111111111010101⟩,
   ⟨0xB6, 16, 0b1111111111010110⟩, ⟨0xB7, 16, 0b1111111111010111⟩, ⟨0xB8, 16, 0b1111111111011000⟩, ⟨0xB9, 16, 0b1111111111011001⟩, ⟨0xBA, 16, 0b1111111111011010⟩]

def acChromaRun12 : List CodeRow :=
  [⟨0xC1, 9, 0b111111010⟩, ⟨0xC2, 16, 0b1111111111011011⟩, ⟨0xC3, 16, 0b1111111111011100⟩, ⟨0xC4, 16, 0b1111111111011101⟩, ⟨0xC5, 16, 0b1111111111011110⟩,
   ⟨0xC6, 16, 0b1111111111011111⟩, ⟨0xC7, 16, 0b1111111111100000⟩, ⟨0xC8, 16, 0b1111111111100001⟩, ⟨0xC9, 16, 0b1111111111100010⟩, ⟨0xCA, 16, 0b1111111111100011⟩]

def acChromaRun13 : List CodeRow :=
  [⟨0xD1, 11, 0b11111111001⟩, ⟨0xD2, 16, 0b1111111111100100⟩, ⟨0xD3, 16, 0b1111111111100101⟩, ⟨0xD4, 16, 0b1111111111100110⟩, ⟨0xD5, 16, 0b1111111111100111⟩,
   ⟨0xD6, 16, 0b1111111111101000⟩, ⟨0xD7, 16, 0b1111111111101001⟩, ⟨0xD8, 16, 0b1111111111101010⟩, ⟨0xD9, 16, 0b1111111111101011⟩, ⟨0xDA, 16, 0b1111111111101100⟩]

def acChromaRun14 : List CodeRow :=
  [⟨0xE1, 14, 0b11111111100000⟩, ⟨0xE2, 16, 0b1111111111101101⟩, ⟨0xE3, 16, 0b1111111111101110⟩, ⟨0xE4, 16, 0b1111111111101111⟩, ⟨0xE5, 16, 0b1111111111110000⟩,
   ⟨0xE6, 16, 0b1111111111110001⟩, ⟨0xE7, 16, 0b1111111111110010⟩, ⟨0xE8, 16, 0b1111111111110011⟩, ⟨0xE9, 16, 0b1111111111110100⟩, ⟨0xEA, 16, 0b1111111111110101⟩]

def acChromaRun15 : List CodeRow :=
  [⟨0xF1, 15, 0b111111111000011⟩, ⟨0xF2, 16, 0b1111111111110110⟩, ⟨0xF3, 16, 0b1111111111110111⟩, ⟨0xF4, 16, 0b1111111111111000⟩, ⟨0xF5, 16, 0b1111111111111001⟩,
   ⟨0xF6, 16, 0b1111111111111010⟩, ⟨0xF7, 16, 0b1111111111111011⟩, ⟨0xF8, 16, 0b1111111111111100⟩, ⟨0xF9, 16, 0b1111111111111101⟩, ⟨0xFA, 16, 0b1111111111111110⟩]

def acLumaRows : List CodeRow :=
  acLumaEscapes ++ acLumaRun0 ++ acLumaRun1 ++ acLumaRun2 ++ acLumaRun3 ++ acLumaRun4 ++ acLumaRun5 ++ acLumaRun6 ++ acLumaRun7 ++
  acLumaRun8 ++ acLumaRun9 ++ acLumaRun10 ++ acLumaRun11 ++ acLumaRun12 ++ acLumaRun13 ++ acLumaRun14 ++ acLumaRun15

def acChromaRows : List CodeRow :=
  acChromaEscapes ++ acChromaRun0 ++ acChromaRun1 ++ acChromaRun2 ++ acChromaRun3 ++ acChromaRun4 ++ acChromaRun5 ++ acChromaRun6 ++ acChromaRun7 ++
  acChromaRun8 ++ acChromaRun9 ++ acChromaRun10 ++ acChromaRun11 ++ acChromaRun12 ++ acChromaRun13 ++ acChromaRun14 ++ acChromaRun15

/-- The rows of `DCTAB[t]` (R17, R190, R191). -/
def dcRows : TableClass → List CodeRow
  | .luma => dcLumaRows
  | .chroma => dcChromaRows

/-- The rows of `ACTAB[t]` (R17, R192, R193). -/
def acRows : TableClass → List CodeRow
  | .luma => acLumaRows
  | .chroma => acChromaRows

/-- The code of a key, if the table has one. -/
def lookupCode (rows : List CodeRow) (key : Nat) : Option CodeItem :=
  (rows.find? fun r => r.key == key).map fun r => ⟨r.len, r.code⟩

/-- `DCTAB[t][size]`. -/
def dctab (t : TableClass) (len : Nat) : Option CodeItem := lookupCode (dcRows t) len

/-- `ACTAB[t][rs]`. -/
def actab (t : TableClass) (rs : Nat) : Option CodeItem := lookupCode (acRows t) rs

/-! ### The generating lists and procedure (R194) -/

/-- The codes of one length, assigned to consecutive keys (R194, the inner loop). -/
def assignCodes (len : Nat) : Nat → Nat → List Nat → List CodeRow
  | 0, _, _ => []
  | _ + 1, _, [] => []
  | n + 1, code, k :: ks => ⟨k, len, code⟩ :: assignCodes len n (code + 1) ks

/-- The canonical code of (BITS, HUFFVAL), from length `len` on (R194, the outer loop). -/
def canonicalRows (len code : Nat) : List Nat → List Nat → List CodeRow
  | [], _ => []
  | n :: bits, keys =>
    assignCodes len n code keys ++ canonicalRows (len + 1) (2 * (code + n)) bits (keys.drop n)

/-- `BITS_DC_L` (R194). -/
def bitsDcLuma : List Nat :=
  [0x00, 0x01, 0x05, 0x01, 0x01, 0x01, 0x01, 0x01, 0x01, 0x00, 0x00, 0x00, 0x00, 0x00, 0x00, 0x00]

/-- `HUFFVAL_DC_L` (R194). -/
def huffvalDcLuma : List Nat :=
  [0x00, 0x01, 0x02, 0x03, 0x04, 0x05, 0x06, 0x07, 0x08, 0x09, 0x0A, 0x0B]

/-- `BITS_DC_C` (R194). -/
def bitsDcChroma : List Nat :=
  [0x00, 0x03, 0x01, 0x01, 0x01, 0x01, 0x01, 0x01, 0x01, 0x01, 0x01, 0x00, 0x00, 0x00, 0x00, 0x00]

/-- `HUFFVAL_DC_C` (R194). -/
def huffvalDcChroma : List Nat :=
  [0x00, 0x01, 0x02, 0x03, 0x04, 0x05, 0x06, 0x07, 0x08, 0x09, 0x0A, 0x0B]

/-- `BITS_AC_L` (R194). -/
def bitsAcLuma : List Nat :=
  [0x00, 0x02, 0x01, 0x03, 0x03, 0x02, 0x04, 0x03, 0x05, 0x05, 0x04, 0x04, 0x00, 0x00, 0x01, 0x7D]

/-- `HUFFVAL_AC_L` (R194). -/
def huffvalAcLuma : List Nat :=
  [0x01, 0x02, 0x03, 0x00, 0x04, 0x11, 0x05, 0x12, 0x21, 0x31, 0x41, 0x06, 0x13, 0x51, 0x61, 0x07] ++
  [0x22, 0x71, 0x14, 0x32, 0x81, 0x91, 0xA1, 0x08, 0x23, 0x42, 0xB1, 0xC1, 0x15, 0x52, 0xD1, 0xF0] ++
  [0x24, 0x33, 0x62, 0x72, 0x82, 0x09, 0x0A, 0x16, 0x17, 0x18, 0x19, 0x1A, 0x25, 0x26, 0x27, 0x28] ++
  [0x29, 0x2A, 0x34, 0x35, 0x36, 0x37, 0x38, 0x39, 0x3A, 0x43, 0x44, 0x45, 0x46, 0x47, 0x48, 0x49] ++
  [0x4A, 0x53, 0x54, 0x55, 0x56, 0x57, 0x58, 0x59, 0x5A, 0x63, 0x64, 0x65, 0x66, 0x67, 0x68, 0x69] ++
  [0x6A, 0x73, 0x74, 0x75, 0x76, 0x77, 0x78, 0x79, 0x7A, 0x83, 0x84, 0x85, 0x86, 0x87, 0x88, 0x89] ++
  [0x8A, 0x92, 0x93, 0x94, 0x95, 0x96, 0x97, 0x98, 0x99, 0x9A, 0xA2, 0xA3, 0xA4, 0xA5, 0xA6, 0xA7] ++
  [0xA8, 0xA9, 0xAA, 0xB2, 0xB3, 0xB4, 0xB5, 0xB6, 0xB7, 0xB8, 0xB9, 0xBA, 0xC2, 0xC3, 0xC4, 0xC5] ++
  [0xC6, 0xC7, 0xC8, 0xC9, 0xCA, 0xD2, 0xD3, 0xD4, 0xD5, 0xD6, 0xD7, 0xD8, 0xD9, 0xDA, 0xE1, 0xE2] ++
  [0xE3, 0xE4, 0xE5, 0xE6, 0xE7, 0xE8, 0xE9, 0xEA, 0xF1, 0xF2, 0xF3, 0xF4, 0xF5, 0xF6, 0xF7, 0xF8] ++
  [0xF9, 0xFA]

/-- `BITS_AC_C` (R194). -/
def bitsAcChroma : List Nat :=
  [0x00, 0x02, 0x01, 0x02, 0x04, 0x04, 0x03, 0x04, 0x07, 0x05, 0x04, 0x04, 0x00, 0x01, 0x02, 0x77]

/-- `HUFFVAL_AC_C` (R194). -/
def huffvalAcChroma : List Nat :=
  [0x00, 0x01, 0x02, 0x03, 0x11, 0x04, 0x05, 0x21, 0x31, 0x06, 0x12, 0x41, 0x51, 0x07, 0x61, 0x71] ++
  [0x13, 0x22, 0x32, 0x81, 0x08, 0x14, 0x42, 0x91, 0xA1, 0xB1, 0xC1, 0x09, 0x23, 0x33, 0x52, 0xF0] ++
  [0x15, 0x62, 0x72, 0xD1, 0x0A, 0x16, 0x24, 0x34, 0xE1, 0x25, 0xF1, 0x17, 0x18, 0x19, 0x1A, 0x26] ++
  [0x27, 0x28, 0x29, 0x2A, 0x35, 0x36, 0x37, 0x38, 0x39, 0x3A, 0x43, 0x44, 0x45, 0x46, 0x47, 0x48] ++
  [0x49, 0x4A, 0x53, 0x54, 0x55, 0x56, 0x57, 0x58, 0x59, 0x5A, 0x63, 0x64, 0x65, 0x66, 0x67, 0x68] ++
  [0x69, 0x6A, 0x73, 0x74, 0x75, 0x76, 0x77, 0x78, 0x79, 0x7A, 0x82, 0x83, 0x84, 0x85, 0x86, 0x87] ++
  [0x88, 0x89, 0x8A, 0x92, 0x93, 0x94, 0x95, 0x96, 0x97, 0x98, 0x99, 0x9A, 0xA2, 0xA3, 0xA4, 0xA5] ++
  [0xA6, 0xA7, 0xA8, 0xA9, 0xAA, 0xB2, 0xB3, 0xB4, 0xB5, 0xB6, 0xB7, 0xB8, 0xB9, 0xBA, 0xC2, 0xC3] ++
  [0xC4, 0xC5, 0xC6, 0xC7, 0xC8, 0xC9, 0xCA, 0xD2, 0xD3, 0xD4, 0xD5, 0xD6, 0xD7, 0xD8, 0xD9, 0xDA] ++
  [0xE2, 0xE3, 0xE4, 0xE5, 0xE6, 0xE7, 0xE8, 0xE9, 0xEA, 0xF2, 0xF3, 0xF4, 0xF5, 0xF6, 0xF7, 0xF8] ++
  [0xF9, 0xFA]

end Sys2Proof.Machine
end

