-- ==== Sys2Proof/Machine/Symbolizer.lean ====
section
/-! DEFINITION. Machine/Symbolizer.lean: SYMB (R173, R174) and RSTPRED (R176). -/

namespace Sys2Proof.Machine

/-- The DC symbol of a difference (R172). -/
def dcWord (d : Int) : Word := symword .dc 0 (category d) d

/-- The AC symbol of a run below 16 and a nonzero value (R172). -/
def acWord (run : Nat) (v : Int) : Word := symword .ac run (category v) v

/-- The zero-run-length escape (R172, C4). -/
def zrlWord : Word := symword .zrl 15 0 0

/-- The end-of-block symbol (R172). -/
def eobWord : Word := symword .eob 0 0 0

/-- The loop of `symbolize` over the AC coefficients that remain, with `run` zeros counted (R173): a nonzero coefficient emits one ZRL for
each full group of 16 zeros, then itself with the remainder; zeros left at the end emit one EOB. -/
def acSymbols (run : Nat) : List Half → List Word
  | [] => if run > 0 then [eobWord] else []
  | z :: zs =>
    if z = 0 then acSymbols (run + 1) zs
    else List.replicate (run / 16) zrlWord ++ acWord (run % 16) z.toInt :: acSymbols 0 zs

/-- The list of `symbolize(Z, p)` (R173); the difference is exact (D14). The new predictor value is `Z[0]`. -/
def symbolize (z : Block Half) (p : Half) : List Word :=
  dcWord (z[0].toInt - p.toInt) :: acSymbols 0 z.toList.tail

/-- SYMB c (R174). -/
def execSymb (c : Component) (s : State) : Result :=
  conclude s (.ok (s.setSymbols (symbolize s.ZB (s.predOf c)) c s.ZB[0]))

/-- RSTPRED (R176). -/
def execRstpred (s : State) : Result := conclude s (.ok (s.setPred #v[0, 0, 0]))

end Sys2Proof.Machine
end

