-- ==== Sys2Proof/Machine/Huffman.lean ====
section
/-! DEFINITION. Machine/Huffman.lean: `code(L, t)` (R195), HUFF (R197), ENCBLK (R198). -/

namespace Sys2Proof.Machine

/-- The items of one symbol word: its code, then `size` amplitude bits of its value; `none` is the lookup miss `E_CATEGORY` (R195). Only the
fields kind, run, size and value are read (R196). -/
def codeSymbol (t : TableClass) (w : Word) : Option (List CodeItem) :=
  match symKind w with
  | .dc =>
    if symSize w > 11 then none
    else (dctab t (symSize w)).map fun c =>
      if symSize w > 0 then [c, ⟨symSize w, amp (symValue w) (symSize w)⟩] else [c]
  | .ac =>
    if symSize w = 0 ∨ symSize w > 10 then none
    else (actab t (16 * symRun w + symSize w)).map fun c => [c, ⟨symSize w, amp (symValue w) (symSize w)⟩]
  | .zrl => (actab t 0xF0).map fun c => [c]
  | .eob => (actab t 0x00).map fun c => [c]

/-- `code(L, t)` for the words from index `i` on (R195): all the items, or `E_CATEGORY` at the least index that misses. -/
def codeFrom (t : TableClass) (i : Nat) : List Word → Except ErrorEvent (List CodeItem)
  | [] => .ok []
  | w :: ws =>
    match codeSymbol t w with
    | none => .error (.category i)
    | some items => (codeFrom t (i + 1) ws).map fun rest => items ++ rest

/-- HUFF t (R197). -/
def execHuff (t : TableClass) (s : State) : Result :=
  conclude s ((codeFrom t 0 s.symbols).bind fun items => appendItems items s)

/-- ENCBLK c, t (R198): one commit. -/
def execEncblk (c : Component) (t : TableClass) (s : State) : Result :=
  let l := symbolize s.ZB (s.predOf c)
  conclude s
    (((codeFrom t 0 l).bind fun items => appendItems items s).map fun s' => s'.setSymbols l c s.ZB[0])

end Sys2Proof.Machine
end

