-- ==== Sys2Proof/Machine/Binary64.lean ====
section
/-! DEFINITION. Machine/Binary64.lean: IEEE 754 binary64 with roundTiesToEven and default exception handling (R13, R63,
R127), computed on exact integers so that it can be evaluated. -/

namespace Sys2Proof.Machine

/-- A binary64 datum. `num neg m e` is the finite value `(−1)^neg · m · 2^(e − 1074)`; in canonical form `m < 2^53`, and
`2^52 ≤ m` unless `e = 0`, so that zero and the subnormals have `e = 0` (R127: no flush to zero). The sign and payload of a NaN
are no part of the datum (R126). -/
inductive F64 where
  | nan
  | inf (neg : Bool)
  | num (neg : Bool) (m e : Nat)
  deriving DecidableEq, Repr

/-- +0.0. -/
def fzero : F64 := .num false 0 0

/-- The datum of a 64-bit pattern: bit 63 sign, bits 62:52 exponent, bits 51:0 fraction (R63). -/
def f64Unpack (w : Word) : F64 :=
  let neg := decide (w.toNat / 2 ^ 63 % 2 = 1)
  let expo := w.toNat / 2 ^ 52 % 2 ^ 11
  let frac := w.toNat % 2 ^ 52
  if expo = 2047 then (if frac = 0 then .inf neg else .nan)
  else if expo = 0 then .num neg frac 0
  else .num neg (2 ^ 52 + frac) (expo - 1)

/-- The sign bit's weight. -/
def signWeight (neg : Bool) : Nat := if neg then 2 ^ 63 else 0

/-- R126, U1: some NaN encoding. Every encoding with exponent all ones and a nonzero fraction is reached by some free
value `f`, and no other. -/
def nanPattern (f : BitVec 53) : Word :=
  let frac := f.toNat % 2 ^ 52
  BitVec.ofNat 64 (signWeight (f.getLsbD 52) + 2047 * 2 ^ 52 + (if frac = 0 then 1 else frac))

/-- The pattern of a datum (R63); `f` chooses the encoding of a NaN. -/
def f64Pack (f : BitVec 53) : F64 → Word
  | .nan => nanPattern f
  | .inf neg => BitVec.ofNat 64 (signWeight neg + 2047 * 2 ^ 52)
  | .num neg m e => BitVec.ofNat 64 (signWeight neg + e * 2 ^ 52 + m)

/-- `⌊m / 2^k + tie to even⌉`: the integer nearest to `m / 2^k`, the even one when two are nearest. -/
def roundShift (m k : Nat) : Nat :=
  let t := m >>> k
  let twice := 2 * (m % 2 ^ k)
  if twice > 2 ^ k ∨ (twice = 2 ^ k ∧ t % 2 = 1) then t + 1 else t

/-- `RN(±m · 2^(x − 1074))` (R13): the result's last place is 53 bits below the leading bit, or that of the subnormals if
that is higher; past the largest finite value it is an infinity. -/
def f64Round (neg : Bool) (m : Nat) (x : Int) : F64 :=
  if m = 0 then .num neg 0 0
  else
    let q := (Nat.log2 m + x - 52).toNat
    let r := if (q : Int) ≤ x then m <<< (x - q).toNat else roundShift m (q - x).toNat
    let r' := if r = 2 ^ 53 then 2 ^ 52 else r
    let q' := if r = 2 ^ 53 then q + 1 else q
    if q' > 2045 then .inf neg else .num neg r' q'

/-- `fmul` (R13). -/
def fmul : F64 → F64 → F64
  | .nan, _ => .nan
  | .inf _, .nan => .nan
  | .num _ _ _, .nan => .nan
  | .inf s, .inf t => .inf (s != t)
  | .inf s, .num t n _ => if n = 0 then .nan else .inf (s != t)
  | .num s m _, .inf t => if m = 0 then .nan else .inf (s != t)
  | .num s m e, .num t n f => f64Round (s != t) (m * n) ((e : Int) + f - 1074)

/-- `fadd` (R13): an exact cancellation gives +0.0, and the sum of two zeros of one sign keeps the sign (R127). -/
def fadd : F64 → F64 → F64
  | .nan, _ => .nan
  | .inf _, .nan => .nan
  | .num _ _ _, .nan => .nan
  | .inf s, .inf t => if s = t then .inf s else .nan
  | .inf s, .num _ _ _ => .inf s
  | .num _ _ _, .inf t => .inf t
  | .num s m e, .num t n f =>
    let g := min e f
    let a := m <<< (e - g)
    let b := n <<< (f - g)
    if s = t then f64Round s (a + b) g
    else if b < a then f64Round s (a - b) g
    else if a < b then f64Round t (b - a) g
    else fzero

/-- Bits by which a dividend is scaled up, so that the quotient's rounding is decided by its integer part and a sticky bit. -/
def divScale : Nat := 120

/-- `fdiv` (R13). -/
def fdiv : F64 → F64 → F64
  | .nan, _ => .nan
  | .inf _, .nan => .nan
  | .num _ _ _, .nan => .nan
  | .inf _, .inf _ => .nan
  | .inf s, .num t _ _ => .inf (s != t)
  | .num s _ _, .inf t => .num (s != t) 0 0
  | .num s m e, .num t n f =>
    if n = 0 then (if m = 0 then .nan else .inf (s != t))
    else
      let scaled := m <<< divScale
      let sticky := if scaled % n = 0 then 0 else 1
      f64Round (s != t) (2 * (scaled / n) + sticky) ((e : Int) - f - divScale - 1 + 1074)

/-- `i2f` (R13): exact for `|n| < 2^53`. -/
def i2f (n : Int) : F64 := f64Round (decide (n < 0)) n.natAbs 1074

/-- `rha` (R13): round half away from zero, `sign(a) · ⌊|a| + 1/2⌋` on the exact value; `none` when `a` is not finite. -/
def rha : F64 → Option Int
  | .nan => none
  | .inf _ => none
  | .num neg m e =>
    let r := if 1074 ≤ e then m <<< (e - 1074) else (2 * m + 2 ^ (1074 - e)) / 2 ^ (1075 - e)
    some (if neg then -(r : Int) else r)

/-- `isfinite` (R13). -/
def isfinite : F64 → Bool
  | .nan => false
  | .inf _ => false
  | .num _ _ _ => true

end Sys2Proof.Machine
end

