-- ==== Sys2Proof/Machine/Quantizer.lean ====
section
/-! DEFINITION. Machine/Quantizer.lean: QTBUILD (R141, R142) and QUANT (R144). -/

namespace Sys2Proof.Machine

/-- `scale(q)` (R141). -/
def scale (q : Nat) : Nat := if q < 50 then 5000 / q else 200 - 2 * q

/-- `clamp(v, lo, hi)` (R11). -/
def clamp (v lo hi : Nat) : Nat := min (max v lo) hi

/-- `entry(b, q)` (R141). -/
def entry (b q : Nat) : Nat := clamp ((b * scale q + 50) / 100) 1 255

/-- The table QTBUILD makes (R142). -/
def builtTable (t : TableClass) (q : Nat) : Block Byte :=
  tabulate fun k => BitVec.ofNat 8 (entry (base t)[k].toNat q)

/-- QTBUILD t, q (R142). -/
def execQtbuild (t : TableClass) (q : BitVec 7) (s : State) : Result :=
  conclude s
    (if q.toNat < 1 ∨ q.toNat > 100 then .error (.quality q.toNat)
     else .ok (s.setTable t (builtTable t q.toNat) q))

/-- One coefficient over one divisor, rounded half away from zero (R144, R145); `none` is `E_RANGE`: the quotient is not finite, or
rounds outside int16. -/
def quantOne (c : Word) (d : Byte) : Option Half :=
  match rha (fdiv (f64Unpack c) (i2f d.toNat)) with
  | none => none
  | some r => if r < -32768 ∨ r > 32767 then none else some (BitVec.ofInt 16 r)

/-- The 64 quotients (R144). -/
def quotients (coefs : Block Word) (qt : Block Byte) : Block (Option Half) :=
  tabulate fun k => quantOne coefs[k] qt[k]

/-- The least index whose quotient is out of range (R144, R253). -/
def firstBad (v : Block (Option Half)) : Option (Fin 64) := (List.finRange 64).find? fun k => v[k].isNone

/-- QUANT t (R144). -/
def execQuant (t : TableClass) (s : State) : Result :=
  let v := quotients s.C (s.qtOf t)
  conclude s
    (match firstBad v with
     | some k => .error (.range k.val)
     | none => .ok (s.setQB (tabulate fun k => v[k].getD 0)))

end Sys2Proof.Machine
end

