-- ==== Sys2Proof/Machine/Transform.lean ====
section
/-! DEFINITION. Machine/Transform.lean: FDCT (R122) and IDCT (R124), `DCT_ARITH = REFERENCE`: every `fmul` and `fadd` is one binary64
operation, in exactly the order of the spec's pseudocode. -/

namespace Sys2Proof.Machine

def cosF (x u : Nat) : F64 := f64Unpack (cosPattern x u)

def alphaF (k : Nat) : F64 := f64Unpack (alphaPattern k)

def scF : F64 := f64Unpack scPattern

/-- Element `8·row + col` of a block of patterns, as a datum (R16). -/
def elemF (b : Block Word) (row col : Nat) : F64 := f64Unpack (b.toList.getD (8 * row + col) 0)

/-- `acc` after the two nested loops, outer index `i`, inner index `j`, each 0..7 in rising order, starting at +0.0. -/
def sum64 (term : Nat → Nat → F64) : F64 :=
  (List.range 8).foldl (fun acc i => (List.range 8).foldl (fun acc j => fadd acc (term i j)) acc) fzero

/-- `T[8v+u]` of FDCT (R122). -/
def fdctElem (b : Block Word) (u v : Nat) : F64 :=
  fmul (fmul (fmul scF (alphaF u)) (alphaF v))
    (sum64 fun x y => fmul (fmul (elemF b y x) (cosF x u)) (cosF y v))

/-- `T[8y+x]` of IDCT (R124). -/
def idctElem (b : Block Word) (x y : Nat) : F64 :=
  fmul scF
    (sum64 fun u v => fmul (fmul (fmul (fmul (alphaF u) (alphaF v)) (elemF b v u)) (cosF x u)) (cosF y v))

/-- The patterns of 64 results; the `k`-th takes the `(n + k)`-th free NaN encoding if it is a NaN (R126). -/
def packBlock (n : Nat) (f : Nat → Nat → F64) : Block Word :=
  tabulate fun k => f64Pack (Config.freeNaN (n + k.val)) (f (k.val % 8) (k.val / 8))

/-- FDCT (R122): `C <- forward(S)`. -/
def execFdct (s : State) : Result :=
  conclude s (.ok ((s.setC (packBlock s.nanDraws (fdctElem s.S))).drawNaNs 64))

/-- IDCT (R124): `S <- inverse(C)`. -/
def execIdct (s : State) : Result :=
  conclude s (.ok ((s.setS (packBlock s.nanDraws (idctElem s.C))).drawNaNs 64))

end Sys2Proof.Machine
end

