-- ==== Sys2Proof/Machine/Zigzag.lean ====
section
/-! DEFINITION. Machine/Zigzag.lean: ZIGZAG (R162) and UNZIGZAG (R163). -/

namespace Sys2Proof.Machine

/-- Scan order from natural order: `T[i] <- QB[ZZ[i]]` (R162). -/
def toScan (b : Block Half) : Block Half := tabulate fun i => b[zz i]

/-- Natural order from scan order: `T[k] <- ZB[ZI[k]]` (R163). -/
def toNatural (b : Block Half) : Block Half := tabulate fun k => b[zi k]

/-- ZIGZAG (R162). -/
def execZigzag (s : State) : Result := conclude s (.ok (s.setZB (toScan s.QB)))

/-- UNZIGZAG (R163). -/
def execUnzigzag (s : State) : Result := conclude s (.ok (s.setQB (toNatural s.ZB)))

end Sys2Proof.Machine
end

