-- ==== Sys2Proof/Machine/Dispatch.lean ====
section
/-! DEFINITION. Machine/Dispatch.lean: the meaning of each command of the opcode map (R95). -/

namespace Sys2Proof.Machine

def exec (i : Instr) (s : State) : Host.Outcome State Fault Refusal :=
  match i with
  | .nop => Sys2Proof.Machine.execNop s
  | .fdct => Sys2Proof.Machine.execFdct s
  | .idct => Sys2Proof.Machine.execIdct s
  | .qtbuild t q => Sys2Proof.Machine.execQtbuild t q s
  | .quant t => Sys2Proof.Machine.execQuant t s
  | .zigzag => Sys2Proof.Machine.execZigzag s
  | .unzigzag => Sys2Proof.Machine.execUnzigzag s
  | .symb c => Sys2Proof.Machine.execSymb c s
  | .huff t => Sys2Proof.Machine.execHuff t s
  | .encblk c t => Sys2Proof.Machine.execEncblk c t s
  | .wrbits n v => Sys2Proof.Machine.execWrbits n v s
  | .flush => Sys2Proof.Machine.execFlush s
  | .bwreset => Sys2Proof.Machine.execBwreset s
  | .rstpred => Sys2Proof.Machine.execRstpred s
  | .clrerr => Sys2Proof.Machine.execClrerr s
  | .sreset => Sys2Proof.Machine.execSreset s

end Sys2Proof.Machine
end

