-- ==== Sys2Proof/Machine/Accept.lean ====
section
/-! DEFINITION. Machine/Accept.lean: what a write of `CMD` does (R72, R91): acceptance, rejection while `ERR` = 1, the error entry of an
ILLEGAL word (R251), or the command's meaning. -/

namespace Sys2Proof.Machine

/-- The effects of acceptance (R91): `LASTCMD <- d`, `BUSY <- 1`, and the start of the latency, a free value of at least 1 (R8). The window of
R290 opens, and `STATUS` shows `ERR` and `ERRCODE` as they stand now until `BUSY` falls (R39). -/
def accept (d : Word) (s : State) : State :=
  { s with
    LASTCMD := d, BUSY := true, mustPoll := true, heldERR := s.ERR, heldERRCODE := s.ERRCODE,
    latLeft := 1 + Config.latExtra s.latDraws, latDraws := s.latDraws + 1 }

/-- R91: a word written to `CMD` while `BUSY` = 0. -/
def issue (d : Word) (s : State) : Result :=
  if s.rejects d then .next (accept d s)
  else
    match decode d with
    | .error _ => .next (errorEntry .illegalCmd (accept d s))
    | .ok i => exec i (accept d s)

end Sys2Proof.Machine
end

