-- ==== Sys2Proof/Machine/Bus.lean ====
section
/-! DEFINITION. Machine/Bus.lean: the register space (R60, R61): what each address names, what a read of it returns and does, what a write
of it does (R64 to R78). -/

namespace Sys2Proof.Machine

/-- What a word address names (R61). -/
inductive Target where
  | s (k : Fin 64)
  | sPix (k : Fin 64)
  | c (k : Fin 64)
  | qb (k : Fin 64)
  | zb (i : Fin 64)
  | qt (t : TableClass) (k : Fin 64)
  | symbuf (i : Fin 64)
  | cmd
  | status
  | errInfo
  | symcnt
  | pred (c : Component)
  | bwState
  | outCount
  | outData
  | qual (t : TableClass)
  | outCapReg
  | ident
  | reserved
  deriving DecidableEq, Repr

/-- The registers from 0x200 on (R61). -/
def registerAt (a : Nat) : Target :=
  match a with
  | 0x200 => .cmd
  | 0x201 => .status
  | 0x202 => .errInfo
  | 0x203 => .symcnt
  | 0x204 => .pred .y
  | 0x205 => .pred .cb
  | 0x206 => .pred .cr
  | 0x207 => .bwState
  | 0x208 => .outCount
  | 0x209 => .outData
  | 0x20A => .qual .luma
  | 0x20B => .qual .chroma
  | 0x20C => .outCapReg
  | 0x20D => .ident
  | _ => .reserved

/-- The address map (R61): eight windows of 64 words, then the registers, then reserved addresses. -/
def targetOf (a : BusAddr) : Target :=
  let k := Fin.ofNat 64 a.toNat
  match a.toNat / 64 with
  | 0 => .s k
  | 1 => .sPix k
  | 2 => .c k
  | 3 => .qb k
  | 4 => .zb k
  | 5 => .qt .luma k
  | 6 => .qt .chroma k
  | 7 => .symbuf k
  | _ => registerAt a.toNat

/-- `sext_16` to a bus word (R68, R75). -/
def sext16 (h : Half) : Word := h.signExtend 64

/-- What a read of `OUT_DATA` returns: the oldest byte with bit 8 set, or 0 when the queue is empty (R76). -/
def outDataWord : List Byte → Word
  | [] => 0
  | b :: _ => BitVec.ofNat 64 (2 ^ 8 + b.toNat)

/-- The word a read of an address returns (R64 to R77). -/
def peek (a : BusAddr) (s : State) : Word :=
  match targetOf a with
  | .s k => s.S[k]
  | .sPix _ => 0
  | .c k => s.C[k]
  | .qb k => sext16 s.QB[k]
  | .zb i => sext16 s.ZB[i]
  | .qt t k => (s.qtOf t)[k].setWidth 64
  | .symbuf i => s.SYMBUF[i]
  | .cmd => s.LASTCMD
  | .status => s.statusWord
  | .errInfo => s.ERR_INFO
  | .symcnt => s.SYMCNT.setWidth 64
  | .pred c => sext16 (s.predOf c)
  | .bwState => s.bwStateWord
  | .outCount => BitVec.ofNat 64 s.OUTQ.length
  | .outData => outDataWord s.OUTQ
  | .qual t => (s.qualOf t).setWidth 64
  | .outCapReg => BitVec.ofNat 64 Config.outCap
  | .ident => Config.idWord
  | .reserved => 0

/-- What a read does to the core: a read of `OUT_DATA` removes the oldest byte, every other read nothing (R76, R78). -/
def afterRead (a : BusAddr) (s : State) : State :=
  match targetOf a with
  | .outData => s.setOutq s.OUTQ.tail
  | _ => s

/-- `i2f(zext_8(d[7:0]) − 128)`, the level shift of `S_PIX` (R66). -/
def levelShift (d : Word) : Word := f64Pack 0 (i2f ((d.toNat % 2 ^ 8 : Nat) - 128))

/-- What a write does to the core, `CMD` apart (R64 to R73): it changes the element it names, and is ignored at a read-only or reserved
address. A write of `CMD` issues a command (Machine/Accept.lean). -/
def poke (a : BusAddr) (d : Word) (s : State) : State :=
  match targetOf a with
  | .s k => s.setS (s.S.set k.val d)
  | .sPix k => s.setS (s.S.set k.val (levelShift d))
  | .c k => s.setC (s.C.set k.val d)
  | .qb k => s.setQB (s.QB.set k.val (d.setWidth 16))
  | .zb i => s.setZB (s.ZB.set i.val (d.setWidth 16))
  | .symbuf i => s.setSymbuf (s.SYMBUF.set i.val d)
  | .symcnt => s.setSymcnt (BitVec.ofNat 7 (min (d.toNat % 2 ^ 7) 64))
  | .qt _ _ | .cmd | .status | .errInfo | .pred _ | .bwState | .outCount | .outData | .qual _ | .outCapReg | .ident
  | .reserved => s

/-- The address of `CMD` (R61). -/
def cmdAddr : BusAddr := 0x200

/-- The address of `STATUS` (R61). -/
def statusAddr : BusAddr := 0x201

/-- The address of `OUT_DATA` (R61). -/
def outDataAddr : BusAddr := 0x209

end Sys2Proof.Machine
end

