-- ==== Sys2Proof/Machine/HostCycle.lean ====
section
/-! DEFINITION. Machine/HostCycle.lean: one cycle of the machine: the latency of the command in flight, then at most one access of the host
(R82, R290, R295), or the reset input (R280, R281). -/

namespace Sys2Proof.Machine

/-- The host's record of a read. -/
def State.record (s : State) (a : BusAddr) (w : Word) : State := { s with reads := (a, w) :: s.reads }

/-- A read of `STATUS` with `BUSY` = 0 closes the window of R290. -/
def State.polled (s : State) : State := { s with mustPoll := s.mustPoll && s.BUSY }

/-- `MemRead(a, 8)` (R14): the word is recorded and the read's effect happens; inside the window only `STATUS` may be read (R290). -/
def busRead (a : BusAddr) (s : State) : Result :=
  if a = statusAddr then .next (s.record a (peek a s)).polled
  else if s.inWindow then .fault .busyHazard
  else .next ((afterRead a s).record a (peek a s))

/-- `MemWrite(a, 8, d)` (R14): a hazard inside the window (R290); a write of `CMD` issues a command (R72). -/
def busWrite (a : BusAddr) (d : Word) (s : State) : Result :=
  if s.inWindow then .fault .busyHazard
  else if a = cmdAddr then issue d s
  else .next (poke a d s)

/-- `WAIT` (R98) as one step: the polls that read `BUSY` = 1 pass, however many the latency takes, and the one that reads `BUSY` = 0 is
recorded (R82, R237). Log entry 2. -/
def waitIdle (s : State) : State :=
  (s.setIdle.record statusAddr s.setIdle.statusWord).polled

/-- Does a word read from `OUT_DATA` hold a byte (R76)? -/
def validByte (w : Word) : Bool := w.toNat / 2 ^ 8 % 2 == 1

/-- One read of a `DRAIN` (R99): it is repeated until it finds the queue empty. -/
def drainOnce (s : State) : Result :=
  if validByte (peek outDataAddr s) then busRead outDataAddr (s.setHostq (.drain :: s.hostq))
  else busRead outDataAddr s

/-- A host action while the reset input is released. -/
def hostAction (op : HostOp) (s : State) : Result :=
  match op with
  | .read a => busRead a s.tick
  | .write a d => busWrite a d s.tick
  | .wait => .next (waitIdle s)
  | .drain => drainOnce s.tick
  | .idle => .next s.tick
  | .assertReset => .next (s.tick.setInReset true)
  | .releaseReset => .next s.tick

/-- A host action while the reset input is asserted (R280, R281): an access is a hazard; releasing the input leaves the reset state. -/
def resetAction (op : HostOp) (s : State) : Result :=
  match op with
  | .read _ => .fault .accessDuringReset
  | .write _ _ => .fault .accessDuringReset
  | .wait => .fault .accessDuringReset
  | .drain => .fault .accessDuringReset
  | .idle => .next s
  | .assertReset => .next s
  | .releaseReset => .next (hardReset s)

/-- One cycle: the host's next action, or none if it has none (R281: the core waits). -/
def cycle (s : State) : Result :=
  match s.hostq with
  | [] => .next (if s.inReset then s else s.tick)
  | op :: rest =>
    if s.inReset then resetAction op (s.setHostq rest) else hostAction op (s.setHostq rest)

end Sys2Proof.Machine
end

