-- ==== Sys2Proof/Machine/Step.lean ====
section
/-! DEFINITION. Machine/Step.lean: the step function, and the state whose next step issues a given command word. -/

namespace Sys2Proof.Machine

/-- One step of the machine is one cycle (Machine/HostCycle.lean). -/
def step (s : State) : Host.Outcome State Fault Refusal := cycle s

/-- The core fetches nothing (R4, R85): a command is the word the host writes to `CMD`. So the next thing the host does is to write it, and
the core is ready to accept it: not in reset, no command in flight, the last one's end seen by the host (R290). Log entry 1. -/
def State.withFetchWord (s : State) (_nbits w : Nat) : State :=
  { s with
    hostq := .write cmdAddr (BitVec.ofNat 64 w) :: s.hostq, inReset := false, BUSY := false, mustPoll := false, latLeft := 0 }

end Sys2Proof.Machine
end

