-- ==== Sys2Proof/Machine/HostProgram.lean ====
section
/-! DEFINITION. Machine/HostProgram.lean: the assembler lines and macros of R98 and R99, the host's procedures of R239, R240, R242, R243 and R282,
and the output of a run (R237), as lists of host actions. -/

namespace Sys2Proof.Machine

/-- A command line: write its encoding to `CMD`, then `WAIT` (R98). -/
def commandLine (i : Instr) : List HostOp := [.write cmdAddr (encode i), .wait]

/-- One command line after another. -/
def commandLines (l : List Instr) : List HostOp := l.flatMap commandLine

/-- `PIX` (R99): `WR 0x040+k, p_k` for k = 0..63. -/
def pixLines (p : Block Byte) : List HostOp :=
  (List.finRange 64).map fun k => .write (BitVec.ofNat 10 (0x040 + k.val)) (p[k].setWidth 64)

/-- `BLOCK c, t` (R99). -/
def blockLines (c : Component) (t : TableClass) : List HostOp :=
  commandLines [.fdct, .quant t, .zigzag, .encblk c t]

/-- `INIT q` (R99). -/
def initLines (q : BitVec 7) : List HostOp := commandLines [.sreset, .qtbuild .luma q, .qtbuild .chroma q]

/-- `ENDSCAN` (R99). -/
def endScanLines : List HostOp := commandLine .flush ++ [.drain]

/-- The table class of a component: luma for Y, chroma for Cb and Cr (R240). -/
def classOf : Component → TableClass
  | .y => .luma
  | .cb => .chroma
  | .cr => .chroma

/-- Before an encode, in this order (R282): `BUSY` = 0; CLRERR; the tables; RSTPRED and BWRESET. CLRERR with no error recorded has no effect
(R233), so it is issued always. -/
def bootLines (colour : Bool) (q : BitVec 7) : List HostOp :=
  .wait :: commandLines
    ([.clrerr, .qtbuild .luma q] ++ (if colour then [.qtbuild .chroma q] else []) ++ [.rstpred, .bwreset])

/-- One block of an encode, its output drained (R239). -/
def encodeBlockLines (c : Component) (p : Block Byte) : List HostOp :=
  pixLines p ++ blockLines c (classOf c) ++ [.drain]

/-- One encode (R239): start, tables, the blocks in their order, flush, drain. -/
def encodeLines (colour : Bool) (q : BitVec 7) (blocks : List (Component × Block Byte)) : List HostOp :=
  commandLines ([.sreset, .qtbuild .luma q] ++ if colour then [.qtbuild .chroma q] else []) ++
    blocks.flatMap (fun b => encodeBlockLines b.1 b.2) ++ endScanLines

/-- The blocks of one minimum coded unit: four luma blocks (top-left, top-right, bottom-left, bottom-right), Cb, Cr (R242). -/
def mcuBlocks (tl tr bl br cb cr : Block Byte) : List (Component × Block Byte) :=
  [(.y, tl), (.y, tr), (.y, bl), (.y, br), (.cb, cb), (.cr, cr)]

/-- Recovery (a) of R243: the encode is abandoned. -/
def abandonLines : List HostOp := commandLines [.clrerr, .bwreset]

/-- Recovery (b) of R243, for `E_OUT_FULL`: the same command again, after a drain. -/
def retryLines (i : Instr) : List HostOp := commandLine .clrerr ++ [.drain] ++ commandLine i

/-- The output of a run (R237): bits 7:0 of each read of `OUT_DATA` with bit 8 = 1, in read order. -/
def State.runOutput (s : State) : List Byte :=
  (s.reads.reverse.filter fun r => r.1 == outDataAddr && r.2.toNat / 2 ^ 8 % 2 == 1).map fun r => r.2.setWidth 8

end Sys2Proof.Machine
end

