-- ==== Sys2Proof/Safety.lean ====
section
/-! DEFINITION. Safety.lean: the terms the claims use: well-formed states (R40), the stuffing of the stream (R218), clean entry (R283), host hazards
(R290, R281). -/

namespace Sys2Proof.Machine

/-- Every 0xFF is immediately followed by 0x00 (R218). -/
def stuffed : List Byte → Bool
  | [] => true
  | b :: bs => (b != 0xFF || bs.head? == some 0) && stuffed bs

/-- The data bytes of a stuffed sequence: the 0x00 that directly follows a 0xFF is dropped (R218). -/
def unstuff : List Byte → List Byte
  | [] => []
  | [b] => [b]
  | b :: c :: rest => if b = 0xFF then b :: unstuff rest else b :: unstuff (c :: rest)

/-- The `n` low bits of a number, most significant first: pending bits, and the bits of a byte (R218). -/
def bitsMsb (n v : Nat) : List Bool := itemBits ⟨n, v⟩

/-- The bits of a byte sequence, each byte most significant bit first (R218). -/
def bitsOfBytes (l : List Byte) : List Bool := l.flatMap fun b => bitsMsb 8 b.toNat

/-- R40: the well-formedness of the architectural state. (That `QB`, `ZB` and `PRED` are int16 is their type.) -/
structure State.Wf (s : State) : Prop where
  divisors : ∀ (t : Fin 2) (k : Fin 64), 1 ≤ s.QT[t][k].toNat
  quality : ∀ t : Fin 2, 1 ≤ s.QUAL[t].toNat ∧ s.QUAL[t].toNat ≤ 100
  symcnt : s.SYMCNT.toNat ≤ 64
  pending : s.ACC.toNat < 2 ^ s.NBITS.toNat
  capacity : s.OUTQ.length ≤ Config.outCap
  noError : s.ERR = false → s.ERRCODE = 0

/-- What the model adds to R40: `BUSY` is 1 only inside the window of R290 and while cycles of `LAT` are left; the error record is that of R34 and R250;
the stream is stuffed (R218). -/
structure State.Inv (s : State) : Prop where
  wf : s.Wf
  busyInWindow : s.BUSY = true → s.mustPoll = true ∧ 1 ≤ s.latLeft
  noInfo : s.ERR = false → s.ERR_INFO = 0
  errorCode : s.ERR = true → 1 ≤ s.ERRCODE.toNat ∧ s.ERRCODE.toNat ≤ 5
  infoReserved : s.ERR_INFO.toNat / 2 ^ 8 % 2 ^ 8 = 0 ∧ s.ERR_INFO.toNat / 2 ^ 32 = 0
  heldCode : s.heldERR = false → s.heldERRCODE = 0
  stream : stuffed s.OUTQ = true

/-- The clean-entry state (R283) of an encode that uses the table classes in `tables`, each with its quality: among the rest, `QT[t]` and `QUAL[t]` are as QTBUILD
makes them for the encode (R142, R282). -/
structure State.CleanEntry (s : State) (tables : List (TableClass × BitVec 7)) : Prop where
  idle : s.BUSY = false
  noError : s.ERR = false ∧ s.ERRCODE = 0
  emptyQueue : s.OUTQ = []
  aligned : s.NBITS = 0 ∧ s.ACC = 0
  predictors : s.PRED = #v[0, 0, 0]
  built : ∀ b ∈ tables, s.qtOf b.1 = builtTable b.1 b.2.toNat ∧ s.qualOf b.1 = b.2

/-- Is a host action an access that R290 forbids inside the window? A read of `STATUS` is not, and `WAIT` makes no other. -/
def HostOp.forbiddenInWindow : HostOp → Bool
  | .read a => a != statusAddr
  | .write _ _ => true
  | .drain => true
  | .wait | .idle | .assertReset | .releaseReset => false

/-- Is a host action an access (R281)? -/
def HostOp.isAccess : HostOp → Bool
  | .read _ | .write _ _ | .wait | .drain => true
  | .idle | .assertReset | .releaseReset => false

/-- The host's next action is a hazard of R281 (in reset) or of R290 (inside the window, as it stands in the coming cycle). -/
def State.hazard (s : State) : Bool :=
  match s.hostq with
  | [] => false
  | op :: _ => if s.inReset then op.isAccess else op.forbiddenInWindow && s.tick.inWindow

/-- A safe step goes on; only a host hazard stops the machine. -/
def Safe (r : Result) : Prop := ∃ t, r = .next t

end Sys2Proof.Machine
end

