-- ==== Sys2Proof/Certificates/Slice0/Obligations.lean ====
section
/-! DEFINITION. Certificates/Slice0/Obligations.lean: the statements for the provers. Each docstring names the rule or section of spec/ it
formalises, and the log entry where a clause is the model's own choice. -/

open Sys2Proof Sys2Proof.Machine

/-! ### Terms the statements are written in -/

namespace Sys2Proof.Claims

/-- The example encodings of R100, in its order; `none` is ILLEGAL. -/
def exampleWords : List (Word × Option Instr) :=
  [(0x0000_0000_0000_0000, some .nop), (0x0000_0000_0000_0001, some .fdct), (0x0000_0000_0000_0002, some .idct),
   (0x0000_0000_004B_0003, some (.qtbuild .luma 75)), (0x0000_0000_0032_0103, some (.qtbuild .chroma 50)),
   (0x0000_0000_0000_0004, some (.quant .luma)), (0x0000_0000_0000_0104, some (.quant .chroma)),
   (0x0000_0000_0000_0005, some .zigzag), (0x0000_0000_0000_0006, some .unzigzag)] ++
  [(0x0000_0000_0000_0807, some (.symb .cr)), (0x0000_0000_0000_0108, some (.huff .chroma)),
   (0x0000_0000_0000_0009, some (.encblk .y .luma)), (0x0000_0000_0000_0509, some (.encblk .cb .chroma)),
   (0x0000_0000_0000_0909, some (.encblk .cr .chroma)), (0x0000_0000_00FF_080A, some (.wrbits 8 0xFF)),
   (0x0000_0000_FFFF_100A, some (.wrbits 16 0xFFFF)), (0x0000_0000_0000_000B, some .flush),
   (0x0000_0000_0000_000C, some .bwreset), (0x0000_0000_0000_000D, some .rstpred)] ++
  [(0x0000_0000_0000_000E, some .clrerr), (0x0000_0000_0000_000F, some .sreset), (0x0000_0000_0000_0C07, none),
   (0x0000_0000_0000_110A, none), (0x0000_0000_0000_0010, none), (0x0000_0001_0000_0001, none),
   (0x0000_0000_0000_0003, some (.qtbuild .luma 0))]

/-- The bit positions `lo .. hi`. -/
def bitRange (lo hi : Nat) : List Nat := (List.range (hi + 1)).filter fun j => lo ≤ j

/-- The bits the format of an opcode marks `0` (R92), bits 63:32 among them; `none` for an opcode that is not in the map. -/
def reservedBits (op : Nat) : Option (List Nat) :=
  if op ∈ [0x00, 0x01, 0x02, 0x05, 0x06, 0x0B, 0x0C, 0x0D, 0x0E, 0x0F] then some (bitRange 8 63)
  else if op = 0x04 ∨ op = 0x08 then some (bitRange 9 63)
  else if op = 0x07 then some (bitRange 12 63 ++ bitRange 8 9)
  else if op = 0x09 then some (bitRange 12 63 ++ [9])
  else if op = 0x03 then some (bitRange 23 63 ++ bitRange 9 15)
  else if op = 0x0A then some (bitRange 32 63 ++ bitRange 13 15)
  else none

/-- R94: (a) an opcode outside the map, (b) a reserved bit set, (c) `c = 3`, (d) `n > 16`. -/
def Illegal (d : Word) : Prop :=
  reservedBits (d.extractLsb' 0 8).toNat = none ∨
  (∃ l, reservedBits (d.extractLsb' 0 8).toNat = some l ∧ ∃ j ∈ l, d.getLsbD j = true) ∨
  ((d.extractLsb' 0 8 = 0x07 ∨ d.extractLsb' 0 8 = 0x09) ∧ d.extractLsb' 10 2 = 3) ∨
  (d.extractLsb' 0 8 = 0x0A ∧ (d.extractLsb' 8 5).toNat > 16)

/-- The state after the acceptance effects of R91 on a state whose host queue has lost its head. -/
def accepted (s : State) (d : Word) (rest : List HostOp) : State := accept d { s with hostq := rest }

/-- `s` with an error recorded as R252 records it. -/
def withError (s : State) (code : BitVec 8) (detail : Nat) : State :=
  { s with ERR := true, ERRCODE := code, ERR_INFO := BitVec.ofNat 64 (detail * 2 ^ 16) ||| s.LASTCMD &&& 0xFF }

/-- The magnitude `m · 2^(e − 1074)` of a finite datum. -/
def magnitude (m e : Nat) : ℚ := (m : ℚ) * (2 : ℚ) ^ ((e : ℤ) - 1074)

/-- The value of a finite datum. -/
def value (neg : Bool) (m e : Nat) : ℚ := if neg then -magnitude m e else magnitude m e

/-- The finite binary64 data in canonical form. -/
def Canonical (m e : Nat) : Prop := m < 2 ^ 53 ∧ e ≤ 2045 ∧ (2 ^ 52 ≤ m ∨ e = 0)

/-- The midpoint between the largest finite binary64 value and the first power of two that is none. -/
def overflowBound : ℚ := (2 ^ 54 - 1) * 2 ^ 970

/-- `r` is `RN(x)` (R13): nearest, ties to even, with the overflow of IEEE 754. The sign of a zero result is not constrained here. -/
def IsRN (x : ℚ) : F64 → Prop
  | .nan => False
  | .inf neg => overflowBound ≤ |x| ∧ (neg = true ↔ x < 0)
  | .num neg m e =>
    Canonical m e ∧ |x| < overflowBound ∧ (x ≠ 0 → (neg = true ↔ x < 0)) ∧
    ∀ neg' m' e', Canonical m' e' →
      |x - value neg m e| ≤ |x - value neg' m' e'| ∧
      (|x - value neg m e| = |x - value neg' m' e'| → value neg m e ≠ value neg' m' e' → m % 2 = 0)

/-- The summation of R122 or R124 unrolled: 64 terms, outer index `n / 8`, inner index `n mod 8`, from +0.0. -/
def sumInOrder (term : Nat → Nat → F64) : F64 :=
  (List.range 64).foldl (fun acc n => fadd acc (term (n / 8) (n % 8))) (.num false 0 0)

/-- Read by the host, does a symbol word have a code in the tables (R195)? -/
def Codable (w : Word) : Prop :=
  (symKind w = .dc → symSize w ≤ 11) ∧ (symKind w = .ac → 1 ≤ symSize w ∧ symSize w ≤ 10)

/-- The bits a codable symbol word is coded as under table class `t` (R195). -/
def symbolBits (t : TableClass) (w : Word) : List Bool :=
  match symKind w with
  | .dc => ((dctab t (symSize w)).map itemBits).getD [] ++ itemBits ⟨symSize w, amp (symValue w) (symSize w)⟩
  | .ac =>
    ((actab t (16 * symRun w + symSize w)).map itemBits).getD [] ++ itemBits ⟨symSize w, amp (symValue w) (symSize w)⟩
  | .zrl => ((actab t 0xF0).map itemBits).getD []
  | .eob => ((actab t 0x00).map itemBits).getD []

/-- The bits of a list of symbol words, in order. -/
def streamBits (t : TableClass) (l : List Word) : List Bool := l.flatMap (symbolBits t)

/-- `t` is `s` with `bits` appended to the stream (R211, R213, R218): whole bytes go to `OUTQ`, stuffed, the rest stays pending; nothing else changes. -/
def Appended (s t : State) (bits : List Bool) : Prop :=
  ∃ bytes, t = { s with ACC := t.ACC, NBITS := t.NBITS, OUTQ := s.OUTQ ++ bytes } ∧ stuffed bytes = true ∧
    t.ACC.toNat < 2 ^ t.NBITS.toNat ∧
    bitsMsb s.NBITS.toNat s.ACC.toNat ++ bits = bitsOfBytes (unstuff bytes) ++ bitsMsb t.NBITS.toNat t.ACC.toNat

/-- `t` is `s` with the items packed onto the stream (R211, R213): all the completed bytes, the new pending bits, and nothing else. -/
def Packs (s t : State) (items : List CodeItem) : Prop :=
  let p := pack s.ACC.toNat s.NBITS.toNat items
  t = { s with ACC := t.ACC, NBITS := t.NBITS, OUTQ := s.OUTQ ++ p.bytes } ∧ t.ACC.toNat = p.acc ∧ t.NBITS.toNat = p.nbits

/-- The sign of the term of a transform's sum that an infinite element of sign `neg` gives, under the two cosines it is multiplied by (R122, R124, R126). -/
def termNeg (neg : Bool) (c d : Word) : Bool := (neg != c.msb) != d.msb

/-- Zero of either sign, or infinite. -/
def ZeroOrInfinite (w : Word) : Prop := (∃ neg, f64Unpack w = .num neg 0 0) ∨ ∃ neg, f64Unpack w = .inf neg

/-- The sum of R122 or R124 with elements that are zero or infinite: `sg k` is the sign of the term of the element `b[k]`. It is an infinity when all infinite terms have one
sign, a NaN when two differ (R126: ∞ − ∞). -/
def InfinitySum (b : Block Word) (sg : Fin 64 → Bool → Bool) (r : F64) : Prop :=
  (∀ out, (∃ (k : Fin 64) (neg : Bool), f64Unpack b[k] = .inf neg) →
    (∀ (k : Fin 64) (neg : Bool), f64Unpack b[k] = .inf neg → sg k neg = out) → r = .inf out) ∧
  ((∃ (k : Fin 64) (neg : Bool) (k' : Fin 64) (neg' : Bool), f64Unpack b[k] = .inf neg ∧ f64Unpack b[k'] = .inf neg' ∧ sg k neg ≠ sg k' neg') → r = .nan)

/-- The words of a nonzero coefficient at scan position `j` whose nearest nonzero coefficient before it, or the DC position, is at `i`: one ZRL for each 16 zeros between, then
the AC word (R173). -/
def acWordsBetween (z : Block Half) (i j : Fin 64) : List Word :=
  List.replicate ((j.val - i.val - 1) / 16) 0x0002_0F00_0000_0000 ++
    [symword .ac ((j.val - i.val - 1) % 16) (category z[j].toInt) z[j].toInt]

/-- Successive `pack`s from the empty bit-writer, their bytes joined (R219). -/
def packAll (l : List (List CodeItem)) : Packed :=
  l.foldl
    (fun r items =>
      ⟨(pack r.acc r.nbits items).acc, (pack r.acc r.nbits items).nbits, r.bytes ++ (pack r.acc r.nbits items).bytes⟩)
    ⟨0, 0, []⟩

/-- The addresses of the register space, grouped by the state a read of them shows; `fixed` is what no command changes. -/
inductive Window where
  | s
  | c
  | qb
  | zb
  | qt (t : TableClass)
  | qual (t : TableClass)
  | symbuf
  | symcnt
  | pred (c : Component)
  | writer
  | error
  | fixed
  deriving DecidableEq, Repr

/-- The window of a target: `BW_STATE`, `OUT_COUNT` and `OUT_DATA` show the bit-writer, `STATUS` and `ERR_INFO` the error record. -/
def windowOf : Target → Window
  | .s _ => .s
  | .c _ => .c
  | .qb _ => .qb
  | .zb _ => .zb
  | .qt t _ => .qt t
  | .qual t => .qual t
  | .symbuf _ => .symbuf
  | .symcnt => .symcnt
  | .pred c => .pred c
  | .bwState | .outCount | .outData => .writer
  | .status | .errInfo => .error
  | .sPix _ | .cmd | .outCapReg | .ident | .reserved => .fixed

/-- The windows a command writes, as its rule names them (R122 to R234), `error` for the commands that raise an error (R250). -/
def windowsOf : Instr → List Window
  | .nop => []
  | .fdct => [.c]
  | .idct => [.s]
  | .qtbuild t _ => [.qt t, .qual t, .error]
  | .quant _ => [.qb, .error]
  | .zigzag => [.zb]
  | .unzigzag => [.qb]
  | .symb c => [.symbuf, .symcnt, .pred c]
  | .huff _ => [.writer, .error]
  | .encblk c _ => [.symbuf, .symcnt, .pred c, .writer, .error]
  | .wrbits _ _ => [.writer, .error]
  | .flush => [.writer, .error]
  | .bwreset => [.writer]
  | .rstpred => [.pred .y, .pred .cb, .pred .cr]
  | .clrerr => [.error]
  | .sreset =>
    [.s, .c, .qb, .zb, .qt .luma, .qt .chroma, .qual .luma, .qual .chroma, .symbuf, .symcnt, .pred .y, .pred .cb,
     .pred .cr, .writer, .error]

/-- The codes a command may record (R250). -/
def mayRaise : Instr → List (BitVec 8)
  | .qtbuild _ _ => [0x02]
  | .quant _ => [0x03]
  | .huff _ | .encblk _ _ => [0x04, 0x05]
  | .wrbits _ _ | .flush => [0x05]
  | .nop | .fdct | .idct | .zigzag | .unzigzag | .symb _ | .bwreset | .rstpred | .clrerr | .sreset => []

/-- The most bytes a command may append (R217). -/
def mostAppended : Instr → Nat
  | .huff _ | .encblk _ _ => 416
  | .wrbits _ _ => 4
  | .flush => 2
  | .nop | .fdct | .idct | .qtbuild _ _ | .quant _ | .zigzag | .unzigzag | .symb _ | .bwreset | .rstpred | .clrerr
  | .sreset => 0

end Sys2Proof.Claims

open Sys2Proof.Claims

/-! ### Encoding -/

/-- R100, all 26 rows: each word decodes as the table says, and each command named there encodes to its word. -/
def Obligations.ExampleEncodingsOfTheSpec : Prop :=
  ∀ p ∈ exampleWords, (decode p.1).toOption = p.2 ∧ ∀ i, p.2 = some i → encode i = p.1

/-- R90, R92, R93, R96: no operand bit is lost; every well-formed command is read back from its word. -/
def Obligations.DecodeReadsBackEveryEncoding : Prop :=
  ∀ i : Instr, WellFormed i = true → decode (encode i) = .ok i

/-- R97: a word that decodes is the one encoding of a well-formed command, so no two words stand for one command. -/
def Obligations.DecodedWordIsTheOnlyEncoding : Prop :=
  ∀ (d : Word) (i : Instr), decode d = .ok i → WellFormed i = true ∧ encode i = d

/-- R94, R251: a word is rejected by the decoder exactly when (a), (b), (c) or (d) holds; issuing it then executes nothing and raises `E_ILLEGAL_CMD` with
detail 0, which is recorded unless an error is recorded already. -/
def Obligations.IllegalWordsAreExactlyThoseOfTheRule : Prop :=
  ∀ d : Word, ((∃ e, decode d = .error e) ↔ Illegal d) ∧
    (Illegal d → ∀ s : State,
      issue d s = .next (if s.ERR then accept d s else withError (accept d s) 0x01 0))

/-! ### Acceptance and the step -/

/-- R91 (a word written to `CMD` outside the window of R290): when no error is recorded, or the word's opcode is CLRERR's or SRESET's, a word that decodes
to `i` runs as `exec i` on the state after the acceptance effects. The second clause is the model's choice, no rule of the spec: how `withFetchWord` places a word as
the host's next action (log entry 1). -/
def Obligations.StepRunsTheDecodedCommand : Prop :=
  (∀ (s : State) (d : Word) (rest : List HostOp) (i : Instr),
    s.hostq = .write 0x200 d :: rest → s.inReset = false → s.mustPoll = false → s.BUSY = false →
    (s.ERR = false ∨ d.extractLsb' 0 8 = 0x0E ∨ d.extractLsb' 0 8 = 0x0F) →
    decode d = .ok i → step s = exec i (accepted s d rest)) ∧
  ∀ (s : State) (w : Nat), (s.withFetchWord 64 w).hostq = .write 0x200 (BitVec.ofNat 64 w) :: s.hostq ∧
    (s.withFetchWord 64 w).inReset = false ∧ (s.withFetchWord 64 w).mustPoll = false ∧
    (s.withFetchWord 64 w).BUSY = false

/-- R91, of a word written to `CMD` outside the window of R290. Acceptance writes `LASTCMD` and sets `BUSY`; of the items of R20 it changes no other; it starts a
latency of at least one cycle (R8) and opens the window. While an error is recorded every word whose opcode is neither CLRERR's nor SRESET's, legal or not,
changes nothing beyond that. Otherwise an ILLEGAL word raises `E_ILLEGAL_CMD`, the first error kept (R252), and any other word runs. Inside the window the write
is a hazard (log entry 6). -/
def Obligations.CmdWriteFollowsTheAcceptanceRule : Prop :=
  (∀ (s : State) (d : Word), ∃ lat, 1 ≤ lat ∧
    accept d s =
      { s with LASTCMD := d, BUSY := true, mustPoll := true, heldERR := s.ERR, heldERRCODE := s.ERRCODE, latLeft := lat,
               latDraws := s.latDraws + 1 }) ∧
  ∀ (s : State) (d : Word) (rest : List HostOp), s.hostq = .write 0x200 d :: rest → s.inReset = false →
    (s.mustPoll = true → step s = .fault .busyHazard) ∧
    (s.mustPoll = false → s.BUSY = false →
      (s.ERR = true → d.extractLsb' 0 8 ≠ 0x0E → d.extractLsb' 0 8 ≠ 0x0F → step s = .next (accepted s d rest)) ∧
      (s.ERR = true → (∃ e, decode d = .error e) → step s = .next (accepted s d rest)) ∧
      (s.ERR = false → (∃ e, decode d = .error e) → step s = .next (withError (accepted s d rest) 0x01 0)) ∧
      (s.ERR = false ∨ d.extractLsb' 0 8 = 0x0E ∨ d.extractLsb' 0 8 = 0x0F → ∀ i, decode d = .ok i →
        step s = exec i (accepted s d rest)))

/-! ### Control commands -/

/-- R232: NOP completes, and its only effects are those of acceptance. -/
def Obligations.NopChangesNothing : Prop :=
  ∀ s : State, exec .nop s = .next s

/-- R233: CLRERR completes in every state, clears the error record and changes nothing else. -/
def Obligations.ClrerrClearsOnlyTheErrorRecord : Prop :=
  ∀ s : State, exec .clrerr s = .next { s with ERR := false, ERRCODE := 0, ERR_INFO := 0 }

/-- R234, R280: SRESET completes in every state, with an error recorded or not; every item of R20 takes its reset value, except `LASTCMD`, and `BUSY`, which
follows acceptance. The host's side of the interface is unchanged (log entry 8). -/
def Obligations.SresetRestoresTheResetState : Prop :=
  ∀ s : State, exec .sreset s = .next
    { s with
      S := Vector.replicate 64 0, C := Vector.replicate 64 0, QB := Vector.replicate 64 0, ZB := Vector.replicate 64 0,
      QT := #v[base .luma, base .chroma], QUAL := #v[50, 50], SYMBUF := Vector.replicate 64 0, SYMCNT := 0,
      PRED := #v[0, 0, 0], ACC := 0, NBITS := 0, OUTQ := [], ERR := false, ERRCODE := 0, ERR_INFO := 0 }

/-! ### Transform -/

/-- 40_transform.md, FDCT, under the arithmetic `DCT_ARITH = REFERENCE` (R123, U10; the value this model takes: log entry 12): FDCT completes in every state, writes
`C[8v+u]` as the pseudocode computes it from `S`, and changes nothing else. (A NaN is written as some NaN encoding, log entry 5.) -/
def Obligations.FdctComputesTheForwardTransform : Prop :=
  ∀ s : State, ∃ t : State, exec .fdct s = .next t ∧ t = { s with C := t.C, nanDraws := t.nanDraws } ∧
    ∀ u v : Fin 8, ∃ free : BitVec 53,
      t.C[8 * v.val + u.val] = f64Pack free
        (fmul (fmul (fmul (f64Unpack 0x3FD0_0000_0000_0000) (f64Unpack (alphaPattern u))) (f64Unpack (alphaPattern v)))
          (sumInOrder fun x y =>
            fmul (fmul (f64Unpack (s.S.toList.getD (8 * y + x) 0)) (f64Unpack (cosPattern x u)))
              (f64Unpack (cosPattern y v))))

/-- 40_transform.md, IDCT, under the arithmetic `DCT_ARITH = REFERENCE` (R123, U10; the value this model takes: log entry 12): IDCT completes in every state, writes
`S[8y+x]` as the pseudocode computes it from `C`, with no rounding, shift or clamp, and changes nothing else. (A NaN is written as some NaN encoding, log entry 5.) -/
def Obligations.IdctComputesTheInverseTransform : Prop :=
  ∀ s : State, ∃ t : State, exec .idct s = .next t ∧ t = { s with S := t.S, nanDraws := t.nanDraws } ∧
    ∀ x y : Fin 8, ∃ free : BitVec 53,
      t.S[8 * y.val + x.val] = f64Pack free
        (fmul (f64Unpack 0x3FD0_0000_0000_0000)
          (sumInOrder fun u v =>
            fmul
              (fmul
                (fmul (fmul (f64Unpack (alphaPattern u)) (f64Unpack (alphaPattern v)))
                  (f64Unpack (s.C.toList.getD (8 * v + u) 0)))
                (f64Unpack (cosPattern x u)))
              (f64Unpack (cosPattern y v))))

/-- 40_transform.md, under the arithmetic `DCT_ARITH = REFERENCE` (log entry 12): a NaN operand of FDCT or IDCT makes every output a NaN, whatever the free encodings
are (log entry 5), and no error is recorded; an infinite operand makes every output infinite or a NaN, and when every operand is zero or infinite the output is the infinity of
the one sign that the infinite terms have, or a NaN when two of them differ in sign (R126); an all-zero block, whose elements may be +0.0 or -0.0, gives +0.0 in every place (R122,
R124, Corner cases; R127). -/
def Obligations.TransformsOfSpecialBlocks : Prop :=
  (∀ (s t : State) (k : Fin 64),
    (f64Unpack s.S[k] = .nan → exec .fdct s = .next t → t.ERR = s.ERR ∧ ∀ j : Fin 64, f64Unpack t.C[j] = .nan) ∧
    (f64Unpack s.C[k] = .nan → exec .idct s = .next t → t.ERR = s.ERR ∧ ∀ j : Fin 64, f64Unpack t.S[j] = .nan)) ∧
  (∀ (s t : State) (k : Fin 64) (neg : Bool),
    (f64Unpack s.S[k] = .inf neg → exec .fdct s = .next t →
      t.ERR = s.ERR ∧ ∀ j : Fin 64, isfinite (f64Unpack t.C[j]) = false) ∧
    (f64Unpack s.C[k] = .inf neg → exec .idct s = .next t →
      t.ERR = s.ERR ∧ ∀ j : Fin 64, isfinite (f64Unpack t.S[j]) = false)) ∧
  (∀ s t : State,
    ((∀ k : Fin 64, ZeroOrInfinite s.S[k]) → exec .fdct s = .next t → ∀ j : Fin 64,
      InfinitySum s.S (fun k neg => termNeg neg (cosPattern (k.val % 8) (j.val % 8)) (cosPattern (k.val / 8) (j.val / 8))) (f64Unpack t.C[j])) ∧
    ((∀ k : Fin 64, ZeroOrInfinite s.C[k]) → exec .idct s = .next t → ∀ j : Fin 64,
      InfinitySum s.C (fun k neg => termNeg neg (cosPattern (j.val % 8) (k.val % 8)) (cosPattern (j.val / 8) (k.val / 8))) (f64Unpack t.S[j]))) ∧
  ∀ s t : State,
    ((∀ k : Fin 64, s.S[k] = 0 ∨ s.S[k] = 0x8000_0000_0000_0000) → exec .fdct s = .next t →
      t.C = Vector.replicate 64 0) ∧
    ((∀ k : Fin 64, s.C[k] = 0 ∨ s.C[k] = 0x8000_0000_0000_0000) → exec .idct s = .next t →
      t.S = Vector.replicate 64 0)

/-! ### Binary64 arithmetic -/

/-- R13, R126, R127: `fmul`, `fadd`, `fdiv` of finite values round the exact result to nearest, ties to even; a finite product or quotient has the exclusive or of the operands'
signs, also when it is zero, and a sum whose exact value is 0 is +0.0 unless both operands are -0.0; NaN operands give NaN; infinite operands and division by zero follow IEEE
754 (∞ − ∞, 0 · ∞, ∞ / ∞ and 0 / 0 are NaN). -/
def Obligations.ArithmeticRoundsToNearestEven : Prop :=
  (∀ (s t : Bool) (m e n f : Nat), Canonical m e → Canonical n f →
    IsRN (value s m e * value t n f) (fmul (.num s m e) (.num t n f)) ∧
    IsRN (value s m e + value t n f) (fadd (.num s m e) (.num t n f)) ∧
    (n ≠ 0 → IsRN (value s m e / value t n f) (fdiv (.num s m e) (.num t n f))) ∧
    (∀ r m' e', fmul (.num s m e) (.num t n f) = .num r m' e' → r = (s != t)) ∧
    (value s m e + value t n f = 0 → fadd (.num s m e) (.num t n f) = .num (s && t) 0 0) ∧
    ∀ r m' e', fdiv (.num s m e) (.num t n f) = .num r m' e' → r = (s != t)) ∧
  (∀ a : F64, fmul .nan a = .nan ∧ fmul a .nan = .nan ∧ fadd .nan a = .nan ∧ fadd a .nan = .nan ∧ fdiv .nan a = .nan ∧
    fdiv a .nan = .nan) ∧
  ∀ (s t : Bool) (m e : Nat),
    fmul (.inf s) (.inf t) = .inf (s != t) ∧
    (m ≠ 0 → fmul (.inf s) (.num t m e) = .inf (s != t) ∧ fmul (.num t m e) (.inf s) = .inf (s != t)) ∧
    fmul (.inf s) (.num t 0 e) = .nan ∧ fmul (.num t 0 e) (.inf s) = .nan ∧
    fadd (.inf s) (.inf s) = .inf s ∧ fadd (.inf s) (.inf (!s)) = .nan ∧
    fadd (.inf s) (.num t m e) = .inf s ∧ fadd (.num t m e) (.inf s) = .inf s ∧
    fdiv (.inf s) (.inf t) = .nan ∧ fdiv (.inf s) (.num t m e) = .inf (s != t) ∧
    fdiv (.num s m e) (.inf t) = .num (s != t) 0 0 ∧
    (m ≠ 0 → fdiv (.num s m e) (.num t 0 0) = .inf (s != t)) ∧ fdiv (.num s 0 e) (.num t 0 0) = .nan

/-- R63, R13: every 64-bit pattern is a NaN, an infinity or a canonical finite datum, and packing gives the pattern back unless it is a NaN; a packed NaN is a NaN whatever
encoding is drawn; `i2f` is exact below 2^53; `rha` is `sign(a) · floor(|a| + 1/2)` on the exact value, and is defined exactly of the finite data. -/
def Obligations.ConversionsAreExact : Prop :=
  (∀ (w : Word) (free : BitVec 53), f64Unpack w ≠ .nan → f64Pack free (f64Unpack w) = w) ∧
  (∀ (w : Word) (neg : Bool) (m e : Nat), f64Unpack w = .num neg m e → Canonical m e) ∧
  (∀ free : BitVec 53, f64Unpack (f64Pack free .nan) = .nan) ∧
  (∀ n : ℤ, |n| < 2 ^ 53 → ∃ neg m e, i2f n = .num neg m e ∧ Canonical m e ∧ value neg m e = (n : ℚ)) ∧
  (∀ (neg : Bool) (m e : Nat), Canonical m e →
    rha (.num neg m e) = some ((if neg then -1 else 1) * ⌊magnitude m e + 1 / 2⌋)) ∧
  rha .nan = none ∧ ∀ neg : Bool, rha (.inf neg) = none

/-! ### Quantizer -/

/-- R142 (with `entry` of R141 written out): for every quality 1..100 QTBUILD completes, writes the 64 scaled and clamped divisors and the quality of its own table class, and
changes nothing else; a quality of 0 or above 100 raises `E_QUALITY` with detail q, and nothing is written; q = 50 copies the base table, q = 100 gives all 1, q = 1
all 255; the command words are those of format Q. -/
def Obligations.QtbuildFollowsItsRule : Prop :=
  (∀ (c : TableClass) (q : BitVec 7) (s : State), 1 ≤ q.toNat → q.toNat ≤ 100 →
    ∃ t : State, exec (.qtbuild c q) s = .next t ∧ t = { s with QT := t.QT, QUAL := t.QUAL } ∧
      t.qualOf c = q ∧ (∀ c', c' ≠ c → t.qtOf c' = s.qtOf c' ∧ t.qualOf c' = s.qualOf c') ∧
      ∀ k : Fin 64, ((t.qtOf c)[k].toNat : ℤ) =
          max 1 (min 255
            (((base c)[k].toNat * (if q.toNat < 50 then 5000 / q.toNat else 200 - 2 * q.toNat : ℤ) + 50) / 100)) ∧
        (q = 50 → (t.qtOf c)[k] = (base c)[k]) ∧ (q = 100 → (t.qtOf c)[k] = 1) ∧ (q = 1 → (t.qtOf c)[k] = 255)) ∧
  (∀ (c : TableClass) (q : BitVec 7) (s : State), q.toNat = 0 ∨ 100 < q.toNat → s.ERR = false →
    exec (.qtbuild c q) s = .next (withError s 0x02 q.toNat)) ∧
  ∀ (c : TableClass) (q : BitVec 7),
    decode (BitVec.ofNat 64 (q.toNat * 2 ^ 16 + (if c = .luma then 0 else 1) * 2 ^ 8 + 0x03)) = .ok (.qtbuild c q)

/-- R143: a higher quality never gives a larger divisor. -/
def Obligations.HigherQualityNeverRaisesADivisor : Prop :=
  ∀ (c : TableClass) (q1 q2 : BitVec 7) (s1 s2 t1 t2 : State), 1 ≤ q1.toNat → q1.toNat < q2.toNat → q2.toNat ≤ 100 →
    exec (.qtbuild c q1) s1 = .next t1 → exec (.qtbuild c q2) s2 = .next t2 →
    ∀ k : Fin 64, (t2.qtOf c)[k].toNat ≤ (t1.qtOf c)[k].toNat

/-- R144: when every binary64 quotient `C[k] / QT[t][k]` rounds (half away from zero) into int16, QUANT completes, writes the rounded quotients to `QB`, and changes nothing
else; else it raises `E_RANGE` with the lowest index whose quotient is not finite or rounds outside int16, and writes nothing; a coefficient of -0.0 gives 0; the command
words are those of format T. -/
def Obligations.QuantFollowsItsRule : Prop :=
  (∀ (c : TableClass) (s : State) (r : Fin 64 → ℤ),
    (∀ k : Fin 64, rha (fdiv (f64Unpack s.C[k]) (i2f (s.qtOf c)[k].toNat)) = some (r k) ∧ -32768 ≤ r k ∧ r k ≤ 32767) →
    ∃ t : State, exec (.quant c) s = .next t ∧ t = { s with QB := t.QB } ∧ ∀ k : Fin 64, t.QB[k].toInt = r k) ∧
  (∀ (c : TableClass) (s : State) (k : Fin 64), s.ERR = false →
    (∀ r, rha (fdiv (f64Unpack s.C[k]) (i2f (s.qtOf c)[k].toNat)) = some r → r < -32768 ∨ 32767 < r) →
    (∀ j : Fin 64, j < k → ∃ r, rha (fdiv (f64Unpack s.C[j]) (i2f (s.qtOf c)[j].toNat)) = some r ∧
      -32768 ≤ r ∧ r ≤ 32767) →
    exec (.quant c) s = .next (withError s 0x03 k.val)) ∧
  (∀ d : Byte, 1 ≤ d.toNat → rha (fdiv (f64Unpack 0x8000_0000_0000_0000) (i2f d.toNat)) = some 0) ∧
  ∀ c : TableClass, decode (BitVec.ofNat 64 ((if c = .luma then 0 else 1) * 2 ^ 8 + 0x04)) = .ok (.quant c)

/-! ### Zigzag -/

/-- R160: `ZZ` is a permutation that starts at 0 and ends at 63, visits the anti-diagonals in order, upwards on even and downwards on odd ones, and `ZI` is its inverse. -/
def Obligations.ZigzagTableIsTheAntiDiagonalScan : Prop :=
  zz 0 = 0 ∧ zz 63 = 63 ∧ (∀ i : Fin 64, zi (zz i) = i ∧ zz (zi i) = i) ∧
  ∀ i j : Fin 64, j.val = i.val + 1 →
    let a := (zz i).val / 8 + (zz i).val % 8
    let b := (zz j).val / 8 + (zz j).val % 8
    a = b ∧ (if a % 2 = 0 then (zz j).val / 8 < (zz i).val / 8 else (zz i).val / 8 < (zz j).val / 8) ∨ b = a + 1

/-- R162: ZIGZAG completes, writes `ZB[i] = QB[ZZ[i]]` and changes nothing else; the values are moved, none is changed or lost, and the first and last stay in place; its word
is 0x5; on `QB[k] = k` it gives `ZB[i] = ZZ[i]`. -/
def Obligations.ZigzagReordersIntoScanOrder : Prop :=
  decode 0x5 = .ok .zigzag ∧
  ∀ s : State, ∃ t : State, exec .zigzag s = .next t ∧ t = { s with ZB := t.ZB } ∧
    (∀ i : Fin 64, t.ZB[i] = s.QB[zz i]) ∧ t.ZB.toList.Perm s.QB.toList ∧ t.ZB[0] = s.QB[0] ∧ t.ZB[63] = s.QB[63] ∧
    ((∀ k : Fin 64, s.QB[k].toNat = k.val) → ∀ i : Fin 64, t.ZB[i].toNat = (zz i).val)

/-- R163: UNZIGZAG completes, writes `QB[ZZ[i]] = ZB[i]` (equivalently `QB[k] = ZB[ZI[k]]`) and changes nothing else; its word is 0x6; on `ZB[i] = i` it gives
`QB[k] = ZI[k]`. -/
def Obligations.UnzigzagRestoresNaturalOrder : Prop :=
  decode 0x6 = .ok .unzigzag ∧
  ∀ s : State, ∃ t : State, exec .unzigzag s = .next t ∧ t = { s with QB := t.QB } ∧
    (∀ i : Fin 64, t.QB[zz i] = s.ZB[i]) ∧ (∀ k : Fin 64, t.QB[k] = s.ZB[zi k]) ∧
    ((∀ i : Fin 64, s.ZB[i].toNat = i.val) → ∀ k : Fin 64, t.QB[k].toNat = (zi k).val)

/-- R164: UNZIGZAG then ZIGZAG leaves `ZB` unchanged, ZIGZAG then UNZIGZAG leaves `QB` unchanged. -/
def Obligations.ZigzagRoundTrips : Prop :=
  ∀ s t u : State,
    (exec .unzigzag s = .next t → exec .zigzag t = .next u → u.ZB = s.ZB) ∧
    (exec .zigzag s = .next t → exec .unzigzag t = .next u → u.QB = s.QB)

/-! ### Symbolizer -/

/-- R170, with its values: the category is the least s with |v| < 2^s, it is not capped, and it is at most 16 for the values the symbolizer can produce. -/
def Obligations.CategoryIsTheBitLength : Prop :=
  (∀ v : ℤ, |v| < 2 ^ category v ∧ (∀ len : Nat, |v| < 2 ^ len → category v ≤ len) ∧
    (|v| ≤ 65535 → category v ≤ 16)) ∧
  (∀ v : ℤ, (1024 ≤ |v| → |v| ≤ 2047 → category v = 11) ∧ (|v| = 2048 → category v = 12)) ∧
  category 0 = 0 ∧ category 32767 = 15 ∧ category (-32768) = 16 ∧ category 65535 = 16 ∧ category (-65535) = 16

/-- 43_symbolizer.md, Category and amplitude: with the value's own category, a positive value is its binary magnitude, with a leading 1; a negative value is the
complement of its magnitude, with a leading 0; and category and amplitude bits determine the value. In any other size the bits are the low bits of the value, or, of a
negative value, of its complement form, the value less 1 (R171, R196); V-H4: 7 in 2 bits is 11. -/
def Obligations.AmplitudeBitsDetermineTheValue : Prop :=
  (∀ v : ℤ, 0 < v → (amp v (category v) : ℤ) = v ∧ (itemBits ⟨category v, amp v (category v)⟩).head? = some true) ∧
  (∀ v : ℤ, v < 0 → (amp v (category v) : ℤ) = 2 ^ category v - 1 - |v| ∧
    (itemBits ⟨category v, amp v (category v)⟩).head? = some false) ∧
  (∀ v w : ℤ, category v = category w → amp v (category v) = amp w (category w) → v = w) ∧
  (∀ (v : ℤ) (len : Nat), (0 ≤ v → (amp v len : ℤ) = v % 2 ^ len) ∧ (v < 0 → (amp v len : ℤ) = (v - 1) % 2 ^ len)) ∧
  itemBits ⟨2, amp 7 2⟩ = [true, true]

/-- 10_state.md, the symbol-word format: the constructor of a symbol word puts each field where the format says and clears every reserved bit. -/
def Obligations.SymbolWordHoldsItsFields : Prop :=
  ∀ (kind : SymKind) (run len : Nat) (v : ℤ), run < 16 → len < 32 → -2 ^ 31 ≤ v → v < 2 ^ 31 →
    let w := symword kind run len v
    symKind w = kind ∧ symRun w = run ∧ symSize w = len ∧ symValue w = v ∧ w.extractLsb' 37 3 = 0 ∧
      w.extractLsb' 44 4 = 0 ∧ w.extractLsb' 50 14 = 0

/-- 43_symbolizer.md, SYMB: SYMB completes in every state; the words of `symbolize` go to the first places of `SYMBUF`, the words past them stay, `SYMCNT` counts them, `PRED[c]`
takes `ZB[0]`, and nothing else changes. The whole list, in terms of the positions of the nonzero AC coefficients in rising order (R173): the DC word; for each of them, the ZRLs and
the AC word of the zeros since the one before it; and one EOB unless the last of them is 63. -/
def Obligations.SymbWritesTheSymbols : Prop :=
  ∀ (c : Component) (s : State), ∃ t : State, exec (.symb c) s = .next t ∧
    t = { s with SYMBUF := t.SYMBUF, SYMCNT := t.SYMCNT, PRED := t.PRED } ∧
    t.symbols = symbolize s.ZB (s.predOf c) ∧ t.SYMCNT.toNat = (symbolize s.ZB (s.predOf c)).length ∧
    (∀ i : Fin 64, t.SYMCNT.toNat ≤ i.val → t.SYMBUF[i] = s.SYMBUF[i]) ∧ t.predOf c = s.ZB[0] ∧
    (∀ c', c' ≠ c → t.predOf c' = s.predOf c') ∧
    ∀ ps : List (Fin 64), ps.Pairwise (· < ·) → (∀ k : Fin 64, k ∈ ps ↔ k ≠ 0 ∧ s.ZB[k] ≠ 0) →
      let d := s.ZB[0].toInt - (s.predOf c).toInt
      t.symbols = symword .dc 0 (category d) d :: ((0 :: ps).zip ps).flatMap (fun ij => acWordsBetween s.ZB ij.1 ij.2) ++
        (if ps.getLast? = some 63 then [] else [0x0003_0000_0000_0000])

/-- R175: the bounds of every list that `symbolize` returns. -/
def Obligations.SymbolListBounds : Prop :=
  ∀ (z : Block Half) (p : Half),
    let l := symbolize z p
    1 ≤ l.length ∧ l.length ≤ 64 ∧
    (∀ w ∈ l.head?, symKind w = .dc ∧ |symValue w| ≤ 65535 ∧ symSize w ≤ 16) ∧
    (∀ w ∈ l.tail, symKind w ≠ .dc ∧ (symKind w = .ac → symRun w ≤ 15 ∧ 1 ≤ symSize w ∧ symSize w ≤ 16)) ∧
    (l.filter fun w => symKind w = .zrl).length ≤ 3 ∧
    ∀ i w, l[i]? = some w → symKind w = .zrl → ∃ w', l[i + 1]? = some w' ∧ (symKind w' = .zrl ∨ symKind w' = .ac)

/-- R177: if `ZB[1..63]` are all 0, `symbolize` returns exactly the DC symbol and EOB. And, of every other block (R173): the list begins with the DC word, and ends with the AC word of
the last nonzero coefficient, followed by one EOB, the only one, unless that coefficient is at 63, where there is no EOB. -/
def Obligations.AllZeroAcGivesOneEndOfBlock : Prop :=
  (∀ (z : Block Half) (p : Half), (∀ i : Fin 64, i ≠ 0 → z[i] = 0) →
    symbolize z p = [symword .dc 0 (category (z[0].toInt - p.toInt)) (z[0].toInt - p.toInt), 0x0003_0000_0000_0000]) ∧
  ∀ (z : Block Half) (p : Half) (j : Fin 64), j ≠ 0 → z[j] ≠ 0 → (∀ k : Fin 64, j < k → z[k] = 0) →
    ∃ (l : List Word) (r : Nat), r < 16 ∧ 0x0003_0000_0000_0000 ∉ l ∧
      symbolize z p =
        symword .dc 0 (category (z[0].toInt - p.toInt)) (z[0].toInt - p.toInt) :: l ++
          symword .ac r (category z[j].toInt) z[j].toInt :: (if j = 63 then [] else [0x0003_0000_0000_0000])

/-- R178, for a run of any length, wherever it stands: the zeros strictly between two positions, the first of which is the DC position or holds a nonzero coefficient and the
second of which holds a nonzero one, give one ZRL for each full 16 zeros and then an AC symbol with the remainder, and nothing stands between these words and the AC word of the
first position, or the DC symbol. (20 zeros: one ZRL and run 4; 15: none and run 15; 16: one and run 0; 32: two and run 0; 47: two and run 15.) -/
def Obligations.ZeroRunsGiveEscapesAndRemainder : Prop :=
  ∀ (z : Block Half) (p : Half) (i j : Fin 64), i < j → (i = 0 ∨ z[i] ≠ 0) →
    (∀ k : Fin 64, i < k → k < j → z[k] = 0) → z[j] ≠ 0 →
    let n := j.val - i.val - 1
    let words := List.replicate (n / 16) (0x0002_0F00_0000_0000 : Word) ++
      [symword .ac (n % 16) (category z[j].toInt) z[j].toInt]
    (i = 0 → words <+: (symbolize z p).tail) ∧
    (i ≠ 0 → ∃ r, r < 16 ∧ (symword .ac r (category z[i].toInt) z[i].toInt :: words) <:+: symbolize z p)

/-- 43_symbolizer.md, section 2: the symbols of a block determine the block, given the predictor. -/
def Obligations.SymbolsDetermineTheBlock : Prop :=
  ∀ (z z' : Block Half) (p : Half), symbolize z p = symbolize z' p → z = z'

/-- R176: RSTPRED completes, sets the three predictors to 0 and changes nothing else. -/
def Obligations.RstpredZeroesThePredictors : Prop :=
  decode 0xD = .ok .rstpred ∧ ∀ s : State, exec .rstpred s = .next { s with PRED := #v[0, 0, 0] }

/-! ### Huffman coder -/

/-- R194 and the first half of R201: the rows of the four code tables are exactly the canonical codes of the BITS and HUFFVAL lists; each table is prefix-free, and none of its
codes is all 1-bits. -/
def Obligations.CodeTablesAreCanonicalAndPrefixFree : Prop :=
  (dcRows .luma = canonicalRows 1 0 bitsDcLuma huffvalDcLuma ∧
    dcRows .chroma = canonicalRows 1 0 bitsDcChroma huffvalDcChroma ∧
    (acRows .luma).Perm (canonicalRows 1 0 bitsAcLuma huffvalAcLuma) ∧
    (acRows .chroma).Perm (canonicalRows 1 0 bitsAcChroma huffvalAcChroma)) ∧
  ∀ t : TableClass, ∀ rows ∈ [dcRows t, acRows t],
    (∀ r ∈ rows, false ∈ itemBits ⟨r.len, r.code⟩) ∧
    ∀ r ∈ rows, ∀ r' ∈ rows, itemBits ⟨r.len, r.code⟩ <+: itemBits ⟨r'.len, r'.code⟩ → r = r'

/-- 44_huffman.md, HUFF: when every valid symbol word has a code and the host has left the room R216 asks for, HUFF completes: the codes and amplitude bits of the symbols, in
order, are appended to the stream, and nothing else changes. -/
def Obligations.HuffAppendsTheCodes : Prop :=
  ∀ (c : TableClass) (s : State), s.Wf → (∀ w ∈ s.symbols, Codable w) → s.OUTQ.length + 416 ≤ Config.outCap →
    ∃ t : State, exec (.huff c) s = .next t ∧ Appended s t (streamBits c s.symbols)

/-- R253, 44_huffman.md, HUFF, Errors: a HUFF whose symbols hold a word without a code raises `E_CATEGORY` with the least such index, whether its output would fit or not, and
writes nothing. -/
def Obligations.HuffRaisesCategoryAtTheLowestIndex : Prop :=
  ∀ (c : TableClass) (s : State) (i : Nat) (w : Word), s.ERR = false → s.symbols[i]? = some w → ¬ Codable w →
    (∀ w' ∈ s.symbols.take i, Codable w') → exec (.huff c) s = .next (withError s 0x04 i)

/-- 44_huffman.md, ENCBLK: when the block's symbols all have codes and there is room, ENCBLK completes with no error, in exactly the state that SYMB c and then HUFF t lead
to; wherever the HUFF of the two separate commands succeeds, whatever room it had, ENCBLK ends in its state; where it would fail, ENCBLK records the same error and writes nothing
else, so that the predictor and the symbols keep their old values. -/
def Obligations.EncblkIsSymbThenHuffInOneCommit : Prop :=
  ∀ (c : Component) (k : TableClass) (s : State),
    (s.Wf → (∀ w ∈ symbolize s.ZB (s.predOf c), Codable w) → s.OUTQ.length + 416 ≤ Config.outCap →
      ∃ m t : State, exec (.symb c) s = .next m ∧ exec (.encblk c k) s = .next t ∧ exec (.huff k) m = .next t ∧
        t.ERR = s.ERR ∧ Appended m t (streamBits k (symbolize s.ZB (s.predOf c)))) ∧
    (∀ m t : State, s.ERR = false → exec (.symb c) s = .next m → exec (.huff k) m = .next t → t.ERR = false →
      exec (.encblk c k) s = .next t) ∧
    ∀ m t : State, s.ERR = false → exec (.symb c) s = .next m → exec (.huff k) m = .next t → t.ERR = true →
      exec (.encblk c k) s = .next { s with ERR := true, ERRCODE := t.ERRCODE, ERR_INFO := t.ERR_INFO }

/-- R201, second half: the coded bits of a block, followed by anything, are decodable: two blocks symbolized against the same predictor and coded under the same tables whose bits
begin one stream are the same block. -/
def Obligations.CodedBlockIsUniquelyDecodable : Prop :=
  ∀ (k : TableClass) (p : Half) (z z' : Block Half) (r r' : List Bool),
    (∀ w ∈ symbolize z p, Codable w) → (∀ w ∈ symbolize z' p, Codable w) →
    streamBits k (symbolize z p) ++ r = streamBits k (symbolize z' p) ++ r' → z = z'

/-! ### Bit-packer -/

/-- 45_bitpacker.md, WRBITS: with room for four bytes WRBITS completes and appends the low `n` bits of `v`, most significant first; with `n` = 0 it changes nothing. -/
def Obligations.WrbitsAppendsTheLowBits : Prop :=
  ∀ (n : BitVec 5) (v : BitVec 16) (s : State), s.Wf → n.toNat ≤ 16 → s.OUTQ.length + 4 ≤ Config.outCap →
    ∃ t : State, exec (.wrbits n v) s = .next t ∧
      Appended s t ((List.range n.toNat).reverse.map fun j => v.getLsbD j) ∧ (n = 0 → t = s)

/-- 45_bitpacker.md, FLUSH: on an aligned stream FLUSH changes nothing; else, with room for the byte, or the two, that it appends, it completes one byte with 1-bits, stuffs it if
it is 0xFF, and leaves nothing pending. -/
def Obligations.FlushPadsWithOnes : Prop :=
  ∀ s : State, s.Wf →
    (s.NBITS = 0 → exec .flush s = .next s) ∧
    (s.NBITS ≠ 0 →
      let b := BitVec.ofNat 8 ((s.ACC.toNat + 1) * 2 ^ (8 - s.NBITS.toNat) - 1)
      s.OUTQ.length + (if b = 0xFF then 2 else 1) ≤ Config.outCap →
      exec .flush s = .next
        { s with ACC := 0, NBITS := 0, OUTQ := s.OUTQ ++ (if b = 0xFF then [0xFF, 0x00] else [b]) })

/-- R215: BWRESET completes, empties the bit-writer and `OUTQ`, and changes nothing else. -/
def Obligations.BwresetEmptiesTheStream : Prop :=
  decode 0xC = .ok .bwreset ∧ ∀ s : State, exec .bwreset s = .next { s with ACC := 0, NBITS := 0, OUTQ := [] }

/-- R216: a command that appends, WRBITS, FLUSH, HUFF or ENCBLK, first computes all its bytes; when they fit in the queue, exactly too, it appends them all; when they do not, it raises
`E_OUT_FULL` with their number and appends none; the queue never passes its capacity. -/
def Obligations.CapacityIsAllOrNothing : Prop :=
  ∀ (s : State) (items : List CodeItem),
    let m := (pack s.ACC.toNat s.NBITS.toNat items).bytes.length
    (s.ERR = false → Config.outCap < s.OUTQ.length + m →
      (∀ n v, items = [⟨n.toNat, v.toNat % 2 ^ n.toNat⟩] → exec (.wrbits n v) s = .next (withError s 0x05 m)) ∧
      (s.NBITS ≠ 0 → items = [⟨8 - s.NBITS.toNat, 2 ^ (8 - s.NBITS.toNat) - 1⟩] →
        exec .flush s = .next (withError s 0x05 m)) ∧
      (∀ k, codeFrom k 0 s.symbols = .ok items → exec (.huff k) s = .next (withError s 0x05 m)) ∧
      ∀ c k, codeFrom k 0 (symbolize s.ZB (s.predOf c)) = .ok items →
        exec (.encblk c k) s = .next (withError s 0x05 m)) ∧
    (s.Wf → s.OUTQ.length + m ≤ Config.outCap →
      (∀ n v, items = [⟨n.toNat, v.toNat % 2 ^ n.toNat⟩] → ∃ t : State, exec (.wrbits n v) s = .next t ∧ Packs s t items) ∧
      (s.NBITS ≠ 0 → items = [⟨8 - s.NBITS.toNat, 2 ^ (8 - s.NBITS.toNat) - 1⟩] →
        ∃ t : State, exec .flush s = .next t ∧ Packs s t items) ∧
      (∀ k, codeFrom k 0 s.symbols = .ok items → ∃ t : State, exec (.huff k) s = .next t ∧ Packs s t items) ∧
      ∀ c k, codeFrom k 0 (symbolize s.ZB (s.predOf c)) = .ok items →
        ∃ u t : State, exec (.symb c) s = .next u ∧ exec (.encblk c k) s = .next t ∧ Packs u t items) ∧
    ∀ (i : Instr) (t : State), s.OUTQ.length ≤ Config.outCap → exec i s = .next t → t.OUTQ.length ≤ Config.outCap

/-- R217: no command appends more than its bound, none but the four appends at all, and with `OUTQ` empty none fails for want of room. -/
def Obligations.OutputBoundsPerCommand : Prop :=
  ∀ (i : Instr) (s t : State), s.Wf → WellFormed i = true → exec i s = .next t →
    ((∃ bytes, t.OUTQ = s.OUTQ ++ bytes ∧ bytes.length ≤ mostAppended i) ∨
      ((i = .bwreset ∨ i = .sreset) ∧ t.OUTQ = [])) ∧
    (s.OUTQ = [] → s.ERR = false → t.ERRCODE ≠ 0x05)

/-- R218, R219: over any sequence of appends from the empty bit-writer, the bits written are the data bits of the emitted bytes with the stuffed zeros removed, followed by the pending bits, and every
emitted 0xFF is followed by 0x00. -/
def Obligations.StreamHoldsExactlyTheBitsWritten : Prop :=
  ∀ cmds : List (List CodeItem),
    let r := packAll cmds
    (cmds.flatMap fun items => items.flatMap itemBits) = bitsOfBytes (unstuff r.bytes) ++ bitsMsb r.nbits r.acc ∧
      stuffed r.bytes = true ∧ r.nbits ≤ 7 ∧ r.acc < 2 ^ r.nbits

/-! ### Errors -/

/-- R252: a command that raises an error changes the error record alone; the record holds the code, the opcode of the word last written to `CMD`, and zeros in the reserved bits. -/
def Obligations.ErrorsArePreciseAndRecorded : Prop :=
  ∀ (i : Instr) (s t : State), exec i s = .next t → s.ERR = false → t.ERR = true →
    t = { s with ERR := true, ERRCODE := t.ERRCODE, ERR_INFO := t.ERR_INFO } ∧ t.ERRCODE ∈ mayRaise i ∧
      t.ERR_INFO.extractLsb' 0 8 = s.LASTCMD.extractLsb' 0 8 ∧ t.ERR_INFO.extractLsb' 8 8 = 0 ∧
      t.ERR_INFO.extractLsb' 32 32 = 0

/-- R254, of every step: a recorded error is cleared by CLRERR, SRESET or the reset input, and by nothing else; until then the first error is kept. -/
def Obligations.OnlyThreeEventsClearAnError : Prop :=
  ∀ s t : State, step s = .next t → s.ERR = true →
    (t.ERR = true ∧ t.ERRCODE = s.ERRCODE ∧ t.ERR_INFO = s.ERR_INFO) ∨
    ∃ rest, s.hostq = .write 0x200 0xE :: rest ∨ s.hostq = .write 0x200 0xF :: rest ∨
      (s.hostq = .releaseReset :: rest ∧ s.inReset = true)

/-! ### The register space -/

/-- R65, R67 to R71, R73: what a read of each buffer window returns and what a write of it does, for every element; it changes nothing else. -/
def Obligations.WindowsReadAndWriteTheirElements : Prop :=
  ∀ (s : State) (d : Word) (k : Fin 64) (t : TableClass),
    (peek (BitVec.ofNat 10 (0x000 + k)) s = s.S[k] ∧
      poke (BitVec.ofNat 10 (0x000 + k)) d s = { s with S := s.S.set k d }) ∧
    (peek (BitVec.ofNat 10 (0x080 + k)) s = s.C[k] ∧
      poke (BitVec.ofNat 10 (0x080 + k)) d s = { s with C := s.C.set k d }) ∧
    (peek (BitVec.ofNat 10 (0x0C0 + k)) s = s.QB[k].signExtend 64 ∧
      poke (BitVec.ofNat 10 (0x0C0 + k)) d s = { s with QB := s.QB.set k (d.extractLsb' 0 16) }) ∧
    (peek (BitVec.ofNat 10 (0x100 + k)) s = s.ZB[k].signExtend 64 ∧
      poke (BitVec.ofNat 10 (0x100 + k)) d s = { s with ZB := s.ZB.set k (d.extractLsb' 0 16) }) ∧
    (peek (BitVec.ofNat 10 (0x140 + 64 * (if t = .luma then 0 else 1) + k)) s = (s.qtOf t)[k].setWidth 64 ∧
      poke (BitVec.ofNat 10 (0x140 + 64 * (if t = .luma then 0 else 1) + k)) d s = s) ∧
    (peek (BitVec.ofNat 10 (0x1C0 + k)) s = s.SYMBUF[k] ∧
      poke (BitVec.ofNat 10 (0x1C0 + k)) d s = { s with SYMBUF := s.SYMBUF.set k d }) ∧
    (peek 0x203 s = s.SYMCNT.setWidth 64 ∧
      poke 0x203 d s = { s with SYMCNT := if 64 ≤ (d.extractLsb' 0 7).toNat then 64 else d.extractLsb' 0 7 })

/-- R66: a write of `S_PIX[k]` stores the level-shifted sample, exactly, whatever the other bits of the word are: the stored pattern is the integer `d[7:0] − 128`;
nothing else changes, and a read returns 0. -/
def Obligations.LevelShiftIsExact : Prop :=
  ∀ (s : State) (d : Word) (k : Fin 64),
    peek (BitVec.ofNat 10 (0x040 + k)) s = 0 ∧
    ∃ w : Word, poke (BitVec.ofNat 10 (0x040 + k)) d s = { s with S := s.S.set k w } ∧
      f64Unpack w = i2f (((d.extractLsb' 0 8).toNat : ℤ) - 128) ∧
      ∃ neg m e, f64Unpack w = .num neg m e ∧ value neg m e = ((d.extractLsb' 0 8).toNat : ℚ) - 128

/-- R72, R74, R75, R77, and R33 for `STATUS`: what a read of each register returns. (While a command is in flight the error bits of `STATUS` are those of its
acceptance: log entry 3.) -/
def Obligations.RegistersReadTheirFields : Prop :=
  ∀ s : State,
    peek 0x200 s = s.LASTCMD ∧ peek 0x202 s = s.ERR_INFO ∧
    (s.BUSY = false → peek 0x201 s = (s.ERRCODE.setWidth 64 <<< 8) ||| (if s.ERR then 2 else 0)) ∧
    (s.BUSY = true → peek 0x201 s = (s.heldERRCODE.setWidth 64 <<< 8) ||| (if s.heldERR then 2 else 0) ||| 1) ∧
    peek 0x204 s = (s.predOf .y).signExtend 64 ∧ peek 0x205 s = (s.predOf .cb).signExtend 64 ∧
    peek 0x206 s = (s.predOf .cr).signExtend 64 ∧
    peek 0x207 s = (s.NBITS.setWidth 64 <<< 8) ||| s.ACC.setWidth 64 ∧
    (s.OUTQ.length ≤ Config.outCap → (peek 0x208 s).toNat = s.OUTQ.length) ∧
    peek 0x20A s = (s.qualOf .luma).setWidth 64 ∧ peek 0x20B s = (s.qualOf .chroma).setWidth 64 ∧
    (peek 0x20C s).toNat = Config.outCap ∧ peek 0x20D s = 0x4A50_4547_0007_0001

/-- R78, of a host write other than one of `CMD` (which issues a command; `poke` is not what a write of it does): it changes the reading of no address but the one it names (of
`S[k]`, when it names `S_PIX[k]`). -/
def Obligations.WriteChangesOnlyItsElement : Prop :=
  ∀ (a b : BusAddr) (d : Word) (s : State), a ≠ 0x200 → a ≠ b → ¬ (0x040 ≤ a.toNat ∧ a.toNat < 0x080 ∧ b.toNat + 0x040 = a.toNat) →
    peek b (poke a d s) = peek b s

/-- R64: reserved addresses and the write-only window read 0, and a write to a reserved or read-only address changes nothing. -/
def Obligations.ReservedAndReadOnlyAddresses : Prop :=
  ∀ (a : BusAddr) (d : Word) (s : State),
    (0x20E ≤ a.toNat ∨ (0x040 ≤ a.toNat ∧ a.toNat < 0x080) → peek a s = 0 ∧ afterRead a s = s) ∧
    (0x20E ≤ a.toNat ∨ (0x140 ≤ a.toNat ∧ a.toNat < 0x1C0) ∨ (0x201 ≤ a.toNat ∧ a.toNat < 0x203) ∨
      (0x204 ≤ a.toNat ∧ a.toNat < 0x20E) → poke a d s = s)

/-- R76: a read of `OUT_DATA` returns 0 and removes nothing when the queue is empty; else it returns the oldest byte with bit 8 set and removes it. No other read has an effect (R78). -/
def Obligations.ReadOfOutDataPopsOneByte : Prop :=
  ∀ s : State,
    (s.OUTQ = [] → peek 0x209 s = 0 ∧ afterRead 0x209 s = s) ∧
    (∀ b rest, s.OUTQ = b :: rest → peek 0x209 s = 0x100 ||| b.setWidth 64 ∧ afterRead 0x209 s = { s with OUTQ := rest }) ∧
    ∀ a : BusAddr, a ≠ 0x209 → afterRead a s = s

/-- The frame of every command, read by read (R122 to R234): a host read of any address outside the windows that the command's rule names returns after it what it returned before. -/
def Obligations.CommandsChangeOnlyTheirWindows : Prop :=
  ∀ (i : Instr) (s t : State) (a : BusAddr), exec i s = .next t → windowOf (targetOf a) ∉ windowsOf i →
    peek a t = peek a s

/-! ### The host's side: hazards, reset, time -/

/-- R290, R281, U2, U3, R252: the machine stops exactly at a host hazard: a hazard of the two rules faults, and without one every step goes on; no command stops it, in
any state. (The window is the model's reading of R290, log entry 6.) -/
def Obligations.StepStopsExactlyAtHostHazards : Prop :=
  (∀ s : State,
    (s.hazard = true → step s = .fault (if s.inReset then .accessDuringReset else .busyHazard)) ∧
    (s.hazard = false → Safe (step s))) ∧
  ∀ (i : Instr) (s : State), Safe (exec i s)

/-- R14, R78, R82: outside the window, a host read records the word the address holds and has its one effect, and a host write other than one of `CMD` has the effect its
window gives it; nothing else changes, and the host goes on to its next action. A read of `STATUS` is allowed in the window too: with a command in flight it records `STATUS` with
`BUSY` = 1 (R74), or, in the last cycle of the latency, with `BUSY` = 0, and the window closes. (One access in each step, and the record of what was read, are the model's choices:
log entries 1 and 16; the cycles left of the latency: log entry 4.) -/
def Obligations.HostAccessesTakeEffectInOrder : Prop :=
  ∀ (s : State) (rest : List HostOp), s.inReset = false →
    (s.BUSY = false →
      (∀ a, s.hostq = .read a :: rest → s.mustPoll = false ∨ a = 0x201 →
        step s = .next { afterRead a s with hostq := rest, reads := (a, peek a s) :: s.reads, mustPoll := false }) ∧
      ∀ a d, s.hostq = .write a d :: rest → a ≠ 0x200 → s.mustPoll = false →
        step s = .next { poke a d s with hostq := rest }) ∧
    (s.BUSY = true → s.hostq = .read 0x201 :: rest →
      (1 < s.latLeft →
        step s = .next
          { s with hostq := rest, latLeft := s.latLeft - 1, reads := (0x201, peek 0x201 s) :: s.reads }) ∧
      (s.latLeft ≤ 1 →
        step s = .next
          { s with
            hostq := rest, BUSY := false, latLeft := 0, mustPoll := false
            reads := (0x201, peek 0x201 { s with BUSY := false }) :: s.reads }))

/-- R98, R82, R237: a command line, run on an idle core with no error recorded, or with one if it is that of CLRERR or SRESET (R243), ends after its two lines with `BUSY` = 0 and the
window closed, in the state that `exec` gives on the accepted command; its `WAIT` has recorded the `STATUS` word of that state. (`WAIT` is one step: log entry 2.) And whole
procedures of command lines: the boot procedure of R282, from any state out of reset, with a command in flight or an error recorded too, and INIT (R99), from any idle core, lead to the
clean-entry state of R283, with the tables built for the encode. (Both are lists of host actions, log entry 17.) -/
def Obligations.CommandLineRunsToItsEnd : Prop :=
  (∀ (s t : State) (i : Instr) (rest : List HostOp), WellFormed i = true → s.hostq = commandLine i ++ rest →
    s.inReset = false → s.mustPoll = false → s.BUSY = false → s.ERR = false ∨ i = .clrerr ∨ i = .sreset →
    exec i (accepted s (encode i) (.wait :: rest)) = .next t →
    ∃ w, core.run 2 s = .next
        ({ t with hostq := rest, BUSY := false, mustPoll := false, latLeft := 0, reads := (0x201, w) :: s.reads } : State) ∧
      w = peek 0x201 { t with BUSY := false }) ∧
  ∀ (s : State) (rest : List HostOp) (q : BitVec 7), 1 ≤ q.toNat → q.toNat ≤ 100 → s.inReset = false →
    (∀ colour, s.hostq = bootLines colour q ++ rest →
      ∃ t : State, core.run (bootLines colour q).length s = .next t ∧ t.hostq = rest ∧ t.mustPoll = false ∧
        t.CleanEntry ((.luma, q) :: if colour then [(.chroma, q)] else [])) ∧
    (s.hostq = initLines q ++ rest → s.mustPoll = false → s.BUSY = false →
      ∃ t : State, core.run (initLines q).length s = .next t ∧ t.hostq = rest ∧ t.mustPoll = false ∧
        t.CleanEntry [(.luma, q), (.chroma, q)])

/-- R76, R99, R237: `DRAIN` on an idle core reads every byte of the queue, oldest first, each exactly once, leaves the queue empty, and changes nothing else; the output of the
run is extended by exactly those bytes. (That `DRAIN` is one read in each step, up to the read that finds the queue empty, is the model's choice, log entry 17; so is the record that the
output of a run is read off, log entry 16.) -/
def Obligations.DrainReadsEveryByteInOrder : Prop :=
  ∀ (s : State) (rest : List HostOp), s.hostq = .drain :: rest → s.inReset = false → s.mustPoll = false →
    s.BUSY = false →
    ∃ t : State, core.run (s.OUTQ.length + 1) s = .next t ∧
      t = { s with OUTQ := [], hostq := rest, reads := t.reads } ∧ t.runOutput = s.runOutput ++ s.OUTQ

/-- The model's reading of R290 (log entry 6; R295 and U2 word the hazard by `BUSY` = 1): the window after a `CMD` write closes only when the host reads `STATUS` and finds `BUSY` = 0,
or at reset. -/
def Obligations.WindowClosesOnlyWhenStatusReadsIdle : Prop :=
  ∀ s t : State, step s = .next t → s.mustPoll = true → t.mustPoll = false →
    (∃ w, t.reads = (0x201, w) :: s.reads ∧ w.getLsbD 0 = false ∧ t.BUSY = false) ∨
    (∃ rest, s.hostq = .releaseReset :: rest ∧ s.inReset = true)

/-- R295, what the core may not do: in a cycle without a host access it changes nothing but its own progress to `BUSY` = 0, whether the host has no action left or its action is to
idle (log entry 14); `BUSY` rises only at a write of `CMD`; and without one, nothing is appended to `OUTQ`. -/
def Obligations.CoreNeverActsUnasked : Prop :=
  ∀ s t : State, step s = .next t →
    (s.hostq = [] ∨ s.hostq.head? = some .idle → t = { s with hostq := s.hostq.tail, BUSY := t.BUSY, latLeft := t.latLeft }) ∧
    ((∀ d rest, s.hostq ≠ .write 0x200 d :: rest) → (t.BUSY = true → s.BUSY = true) ∧
      (t.OUTQ = s.OUTQ ∨ t.OUTQ = s.OUTQ.tail ∨ t.OUTQ = []))

/-- R296, R8: a command in flight ends when its latency has passed, not before, and nothing else changes meanwhile. (The latency as a count of cycles left, and a step as a cycle without
an access, are the model's choices: log entries 4 and 14.) -/
def Obligations.CommandEndsAfterItsLatency : Prop :=
  ∀ (s : State) (n : Nat), s.hostq = [] → s.inReset = false → s.BUSY = true → 1 ≤ s.latLeft →
    (n < s.latLeft → core.run n s = .next ({ s with latLeft := s.latLeft - n } : State)) ∧
    core.run s.latLeft s = .next ({ s with BUSY := false, latLeft := 0 } : State)

/-- R280: the reset values, and releasing the reset input gives them to every item of R20 from any state; the state it leaves is the clean-entry state of R283 with the tables of
quality 50. (The fields that are not the spec's: log entry 8.) -/
def Obligations.ResetGivesTheStatedValues : Prop :=
  (∀ (t : TableClass) (k : Fin 64), (State.reset.qtOf t)[k] = (base t)[k] ∧
    (State.reset.qtOf t)[k].toNat = entry (base t)[k].toNat 50 ∧ State.reset.qualOf t = 50) ∧
  ∀ (s : State) (rest : List HostOp), s.inReset = true → s.hostq = .releaseReset :: rest →
    ∃ t : State, step s = .next t ∧ t.S = Vector.replicate 64 0 ∧ t.C = Vector.replicate 64 0 ∧
      t.QB = Vector.replicate 64 0 ∧ t.ZB = Vector.replicate 64 0 ∧ t.QT = State.reset.QT ∧ t.QUAL = State.reset.QUAL ∧
      t.SYMBUF = Vector.replicate 64 0 ∧ t.SYMCNT = 0 ∧ t.PRED = #v[0, 0, 0] ∧ t.ACC = 0 ∧ t.NBITS = 0 ∧ t.OUTQ = [] ∧
      t.BUSY = false ∧ t.ERR = false ∧ t.ERRCODE = 0 ∧ t.ERR_INFO = 0 ∧ t.LASTCMD = 0 ∧ t.inReset = false ∧
      t.CleanEntry [(.luma, 50), (.chroma, 50)]

/-- R40 and the rest of `State.Inv` (Safety.lean) hold at reset. -/
def Obligations.ResetStateIsWellFormed : Prop := State.reset.Inv

/-- R40 and the rest of `State.Inv`: every step keeps the invariant, from every state that meets it, whatever the host does. -/
def Obligations.EveryStepKeepsTheInvariant : Prop :=
  ∀ s t : State, s.Inv → step s = .next t → t.Inv
end

