-- ==== Sys2Proof/Laws/Blocks.lean ====
section
/-! SUPPORT. Laws/Blocks.lean: reading an element of a block that an engine built. -/

namespace Sys2Proof.Machine

@[simp] theorem getElem_tabulate {α : Type} (f : Fin 64 → α) (k : Nat) (h : k < 64) :
    (tabulate f)[k] = f ⟨k, h⟩ := by
  simp only [tabulate, Vector.getElem_mk, List.getElem_toArray, List.getElem_ofFn]

@[simp] theorem getElem_tabulate_fin {α : Type} (f : Fin 64 → α) (k : Fin 64) : (tabulate f)[k] = f k := getElem_tabulate f k.val k.isLt

@[simp] theorem toList_tabulate {α : Type} (f : Fin 64 → α) : (tabulate f).toList = List.ofFn f := rfl

/-- Two blocks are equal when their elements are. -/
theorem block_ext {α : Type} {a b : Block α} (h : ∀ k : Fin 64, a[k] = b[k]) : a = b :=
  Vector.ext fun k hk => h ⟨k, hk⟩

@[simp] theorem getElem_toScan (b : Block Half) (i : Nat) (h : i < 64) : (toScan b)[i] = b[zz ⟨i, h⟩] := by
  simp [toScan]

@[simp] theorem getElem_toNatural (b : Block Half) (k : Nat) (h : k < 64) : (toNatural b)[k] = b[zi ⟨k, h⟩] := by
  simp [toNatural]

/-- `ZI` undoes `ZZ` (R160). -/
@[simp] theorem zi_zz (i : Fin 64) : zi (zz i) = i := by revert i; decide

/-- `ZZ` undoes `ZI` (R160). -/
@[simp] theorem zz_zi (k : Fin 64) : zz (zi k) = k := by revert k; decide

@[simp] theorem getElem_quotients (coefs : Block Word) (qt : Block Byte) (k : Nat) (h : k < 64) :
    (quotients coefs qt)[k] = quantOne coefs[k] qt[k] := by simp [quotients]

@[simp] theorem getElem_builtTable (t : TableClass) (q k : Nat) (h : k < 64) :
    (builtTable t q)[k] = BitVec.ofNat 8 (entry (base t)[k].toNat q) := by simp [builtTable]

/-- A divisor that QTBUILD makes is in 1..255 (R142). -/
theorem entry_bounds (b q : Nat) : 1 ≤ entry b q ∧ entry b q ≤ 255 := by
  unfold entry clamp; omega

/-- `firstBad` finds nothing exactly when every quotient is in range. -/
theorem firstBad_eq_none {v : Block (Option Half)} : firstBad v = none ↔ ∀ k : Fin 64, v[k].isSome := by
  simp [firstBad, List.find?_eq_none, Option.isSome_iff_ne_none]

/-- `firstBad` finds the least index out of range (R144, R253). -/
theorem firstBad_eq_some {v : Block (Option Half)} {k : Fin 64} :
    firstBad v = some k ↔ v[k] = none ∧ ∀ j : Fin 64, j < k → v[j] ≠ none := by
  have hsorted : (List.finRange 64).Pairwise (· < ·) := List.pairwise_lt_finRange 64
  constructor
  · intro h
    refine ⟨by simpa using List.find?_some h, fun j hj => ?_⟩
    obtain ⟨_, as, bs, hl, has⟩ := List.find?_eq_some_iff_append.mp h
    have hmem : j ∈ as ++ k :: bs := hl ▸ List.mem_finRange j
    rw [hl] at hsorted
    rcases List.mem_append.mp hmem with hj' | hj'
    · simpa [Option.isSome_iff_ne_none] using has j hj'
    · rcases List.mem_cons.mp hj' with rfl | hb
      · exact absurd hj (lt_irrefl _)
      · have := (List.pairwise_cons.mp (List.pairwise_append.mp hsorted).2.1).1 j hb
        exact absurd hj (not_lt_of_gt this)
  · rintro ⟨hk, hlt⟩
    cases h : firstBad v with
    | none => exact absurd (firstBad_eq_none.mp h k) (by simp [hk])
    | some k' =>
      have hk' : v[k'] = none := by simpa using List.find?_some h
      rcases lt_trichotomy k k' with h1 | h1 | h1
      · obtain ⟨_, as, bs, hl, has⟩ := List.find?_eq_some_iff_append.mp h
        have hmem : k ∈ as ++ k' :: bs := hl ▸ List.mem_finRange k
        rw [hl] at hsorted
        rcases List.mem_append.mp hmem with hj' | hj'
        · exact absurd hk (by simpa [Option.isSome_iff_ne_none] using has k hj')
        · rcases List.mem_cons.mp hj' with rfl | hb
          · rfl
          · have := (List.pairwise_cons.mp (List.pairwise_append.mp hsorted).2.1).1 k hb
            exact absurd h1 (not_lt_of_gt this)
      · rw [h1]
      · exact absurd hk' (hlt k' h1)

end Sys2Proof.Machine
end

