-- ==== Sys2Proof/Laws/State.lean ====
section
/-! SUPPORT. Laws/State.lean: what every commit does to every field, one lemma each, so that no proof unfolds a record update. -/

namespace Sys2Proof.Machine

/-! ### setS -/

@[simp] theorem State.setS_S (s : State) (b : Block Word) :
    (s.setS b).S = b := rfl
@[simp] theorem State.setS_C (s : State) (b : Block Word) :
    (s.setS b).C = s.C := rfl
@[simp] theorem State.setS_QB (s : State) (b : Block Word) :
    (s.setS b).QB = s.QB := rfl
@[simp] theorem State.setS_ZB (s : State) (b : Block Word) :
    (s.setS b).ZB = s.ZB := rfl
@[simp] theorem State.setS_QT (s : State) (b : Block Word) :
    (s.setS b).QT = s.QT := rfl
@[simp] theorem State.setS_QUAL (s : State) (b : Block Word) :
    (s.setS b).QUAL = s.QUAL := rfl
@[simp] theorem State.setS_SYMBUF (s : State) (b : Block Word) :
    (s.setS b).SYMBUF = s.SYMBUF := rfl
@[simp] theorem State.setS_SYMCNT (s : State) (b : Block Word) :
    (s.setS b).SYMCNT = s.SYMCNT := rfl
@[simp] theorem State.setS_PRED (s : State) (b : Block Word) :
    (s.setS b).PRED = s.PRED := rfl
@[simp] theorem State.setS_ACC (s : State) (b : Block Word) :
    (s.setS b).ACC = s.ACC := rfl
@[simp] theorem State.setS_NBITS (s : State) (b : Block Word) :
    (s.setS b).NBITS = s.NBITS := rfl
@[simp] theorem State.setS_OUTQ (s : State) (b : Block Word) :
    (s.setS b).OUTQ = s.OUTQ := rfl
@[simp] theorem State.setS_BUSY (s : State) (b : Block Word) :
    (s.setS b).BUSY = s.BUSY := rfl
@[simp] theorem State.setS_ERR (s : State) (b : Block Word) :
    (s.setS b).ERR = s.ERR := rfl
@[simp] theorem State.setS_ERRCODE (s : State) (b : Block Word) :
    (s.setS b).ERRCODE = s.ERRCODE := rfl
@[simp] theorem State.setS_ERR_INFO (s : State) (b : Block Word) :
    (s.setS b).ERR_INFO = s.ERR_INFO := rfl
@[simp] theorem State.setS_LASTCMD (s : State) (b : Block Word) :
    (s.setS b).LASTCMD = s.LASTCMD := rfl
@[simp] theorem State.setS_inReset (s : State) (b : Block Word) :
    (s.setS b).inReset = s.inReset := rfl
@[simp] theorem State.setS_mustPoll (s : State) (b : Block Word) :
    (s.setS b).mustPoll = s.mustPoll := rfl
@[simp] theorem State.setS_heldERR (s : State) (b : Block Word) :
    (s.setS b).heldERR = s.heldERR := rfl
@[simp] theorem State.setS_heldERRCODE (s : State) (b : Block Word) :
    (s.setS b).heldERRCODE = s.heldERRCODE := rfl
@[simp] theorem State.setS_latLeft (s : State) (b : Block Word) :
    (s.setS b).latLeft = s.latLeft := rfl
@[simp] theorem State.setS_latDraws (s : State) (b : Block Word) :
    (s.setS b).latDraws = s.latDraws := rfl
@[simp] theorem State.setS_nanDraws (s : State) (b : Block Word) :
    (s.setS b).nanDraws = s.nanDraws := rfl
@[simp] theorem State.setS_hostq (s : State) (b : Block Word) :
    (s.setS b).hostq = s.hostq := rfl
@[simp] theorem State.setS_reads (s : State) (b : Block Word) :
    (s.setS b).reads = s.reads := rfl

/-! ### setC -/

@[simp] theorem State.setC_S (s : State) (b : Block Word) :
    (s.setC b).S = s.S := rfl
@[simp] theorem State.setC_C (s : State) (b : Block Word) :
    (s.setC b).C = b := rfl
@[simp] theorem State.setC_QB (s : State) (b : Block Word) :
    (s.setC b).QB = s.QB := rfl
@[simp] theorem State.setC_ZB (s : State) (b : Block Word) :
    (s.setC b).ZB = s.ZB := rfl
@[simp] theorem State.setC_QT (s : State) (b : Block Word) :
    (s.setC b).QT = s.QT := rfl
@[simp] theorem State.setC_QUAL (s : State) (b : Block Word) :
    (s.setC b).QUAL = s.QUAL := rfl
@[simp] theorem State.setC_SYMBUF (s : State) (b : Block Word) :
    (s.setC b).SYMBUF = s.SYMBUF := rfl
@[simp] theorem State.setC_SYMCNT (s : State) (b : Block Word) :
    (s.setC b).SYMCNT = s.SYMCNT := rfl
@[simp] theorem State.setC_PRED (s : State) (b : Block Word) :
    (s.setC b).PRED = s.PRED := rfl
@[simp] theorem State.setC_ACC (s : State) (b : Block Word) :
    (s.setC b).ACC = s.ACC := rfl
@[simp] theorem State.setC_NBITS (s : State) (b : Block Word) :
    (s.setC b).NBITS = s.NBITS := rfl
@[simp] theorem State.setC_OUTQ (s : State) (b : Block Word) :
    (s.setC b).OUTQ = s.OUTQ := rfl
@[simp] theorem State.setC_BUSY (s : State) (b : Block Word) :
    (s.setC b).BUSY = s.BUSY := rfl
@[simp] theorem State.setC_ERR (s : State) (b : Block Word) :
    (s.setC b).ERR = s.ERR := rfl
@[simp] theorem State.setC_ERRCODE (s : State) (b : Block Word) :
    (s.setC b).ERRCODE = s.ERRCODE := rfl
@[simp] theorem State.setC_ERR_INFO (s : State) (b : Block Word) :
    (s.setC b).ERR_INFO = s.ERR_INFO := rfl
@[simp] theorem State.setC_LASTCMD (s : State) (b : Block Word) :
    (s.setC b).LASTCMD = s.LASTCMD := rfl
@[simp] theorem State.setC_inReset (s : State) (b : Block Word) :
    (s.setC b).inReset = s.inReset := rfl
@[simp] theorem State.setC_mustPoll (s : State) (b : Block Word) :
    (s.setC b).mustPoll = s.mustPoll := rfl
@[simp] theorem State.setC_heldERR (s : State) (b : Block Word) :
    (s.setC b).heldERR = s.heldERR := rfl
@[simp] theorem State.setC_heldERRCODE (s : State) (b : Block Word) :
    (s.setC b).heldERRCODE = s.heldERRCODE := rfl
@[simp] theorem State.setC_latLeft (s : State) (b : Block Word) :
    (s.setC b).latLeft = s.latLeft := rfl
@[simp] theorem State.setC_latDraws (s : State) (b : Block Word) :
    (s.setC b).latDraws = s.latDraws := rfl
@[simp] theorem State.setC_nanDraws (s : State) (b : Block Word) :
    (s.setC b).nanDraws = s.nanDraws := rfl
@[simp] theorem State.setC_hostq (s : State) (b : Block Word) :
    (s.setC b).hostq = s.hostq := rfl
@[simp] theorem State.setC_reads (s : State) (b : Block Word) :
    (s.setC b).reads = s.reads := rfl

/-! ### setQB -/

@[simp] theorem State.setQB_S (s : State) (b : Block Half) :
    (s.setQB b).S = s.S := rfl
@[simp] theorem State.setQB_C (s : State) (b : Block Half) :
    (s.setQB b).C = s.C := rfl
@[simp] theorem State.setQB_QB (s : State) (b : Block Half) :
    (s.setQB b).QB = b := rfl
@[simp] theorem State.setQB_ZB (s : State) (b : Block Half) :
    (s.setQB b).ZB = s.ZB := rfl
@[simp] theorem State.setQB_QT (s : State) (b : Block Half) :
    (s.setQB b).QT = s.QT := rfl
@[simp] theorem State.setQB_QUAL (s : State) (b : Block Half) :
    (s.setQB b).QUAL = s.QUAL := rfl
@[simp] theorem State.setQB_SYMBUF (s : State) (b : Block Half) :
    (s.setQB b).SYMBUF = s.SYMBUF := rfl
@[simp] theorem State.setQB_SYMCNT (s : State) (b : Block Half) :
    (s.setQB b).SYMCNT = s.SYMCNT := rfl
@[simp] theorem State.setQB_PRED (s : State) (b : Block Half) :
    (s.setQB b).PRED = s.PRED := rfl
@[simp] theorem State.setQB_ACC (s : State) (b : Block Half) :
    (s.setQB b).ACC = s.ACC := rfl
@[simp] theorem State.setQB_NBITS (s : State) (b : Block Half) :
    (s.setQB b).NBITS = s.NBITS := rfl
@[simp] theorem State.setQB_OUTQ (s : State) (b : Block Half) :
    (s.setQB b).OUTQ = s.OUTQ := rfl
@[simp] theorem State.setQB_BUSY (s : State) (b : Block Half) :
    (s.setQB b).BUSY = s.BUSY := rfl
@[simp] theorem State.setQB_ERR (s : State) (b : Block Half) :
    (s.setQB b).ERR = s.ERR := rfl
@[simp] theorem State.setQB_ERRCODE (s : State) (b : Block Half) :
    (s.setQB b).ERRCODE = s.ERRCODE := rfl
@[simp] theorem State.setQB_ERR_INFO (s : State) (b : Block Half) :
    (s.setQB b).ERR_INFO = s.ERR_INFO := rfl
@[simp] theorem State.setQB_LASTCMD (s : State) (b : Block Half) :
    (s.setQB b).LASTCMD = s.LASTCMD := rfl
@[simp] theorem State.setQB_inReset (s : State) (b : Block Half) :
    (s.setQB b).inReset = s.inReset := rfl
@[simp] theorem State.setQB_mustPoll (s : State) (b : Block Half) :
    (s.setQB b).mustPoll = s.mustPoll := rfl
@[simp] theorem State.setQB_heldERR (s : State) (b : Block Half) :
    (s.setQB b).heldERR = s.heldERR := rfl
@[simp] theorem State.setQB_heldERRCODE (s : State) (b : Block Half) :
    (s.setQB b).heldERRCODE = s.heldERRCODE := rfl
@[simp] theorem State.setQB_latLeft (s : State) (b : Block Half) :
    (s.setQB b).latLeft = s.latLeft := rfl
@[simp] theorem State.setQB_latDraws (s : State) (b : Block Half) :
    (s.setQB b).latDraws = s.latDraws := rfl
@[simp] theorem State.setQB_nanDraws (s : State) (b : Block Half) :
    (s.setQB b).nanDraws = s.nanDraws := rfl
@[simp] theorem State.setQB_hostq (s : State) (b : Block Half) :
    (s.setQB b).hostq = s.hostq := rfl
@[simp] theorem State.setQB_reads (s : State) (b : Block Half) :
    (s.setQB b).reads = s.reads := rfl

/-! ### setZB -/

@[simp] theorem State.setZB_S (s : State) (b : Block Half) :
    (s.setZB b).S = s.S := rfl
@[simp] theorem State.setZB_C (s : State) (b : Block Half) :
    (s.setZB b).C = s.C := rfl
@[simp] theorem State.setZB_QB (s : State) (b : Block Half) :
    (s.setZB b).QB = s.QB := rfl
@[simp] theorem State.setZB_ZB (s : State) (b : Block Half) :
    (s.setZB b).ZB = b := rfl
@[simp] theorem State.setZB_QT (s : State) (b : Block Half) :
    (s.setZB b).QT = s.QT := rfl
@[simp] theorem State.setZB_QUAL (s : State) (b : Block Half) :
    (s.setZB b).QUAL = s.QUAL := rfl
@[simp] theorem State.setZB_SYMBUF (s : State) (b : Block Half) :
    (s.setZB b).SYMBUF = s.SYMBUF := rfl
@[simp] theorem State.setZB_SYMCNT (s : State) (b : Block Half) :
    (s.setZB b).SYMCNT = s.SYMCNT := rfl
@[simp] theorem State.setZB_PRED (s : State) (b : Block Half) :
    (s.setZB b).PRED = s.PRED := rfl
@[simp] theorem State.setZB_ACC (s : State) (b : Block Half) :
    (s.setZB b).ACC = s.ACC := rfl
@[simp] theorem State.setZB_NBITS (s : State) (b : Block Half) :
    (s.setZB b).NBITS = s.NBITS := rfl
@[simp] theorem State.setZB_OUTQ (s : State) (b : Block Half) :
    (s.setZB b).OUTQ = s.OUTQ := rfl
@[simp] theorem State.setZB_BUSY (s : State) (b : Block Half) :
    (s.setZB b).BUSY = s.BUSY := rfl
@[simp] theorem State.setZB_ERR (s : State) (b : Block Half) :
    (s.setZB b).ERR = s.ERR := rfl
@[simp] theorem State.setZB_ERRCODE (s : State) (b : Block Half) :
    (s.setZB b).ERRCODE = s.ERRCODE := rfl
@[simp] theorem State.setZB_ERR_INFO (s : State) (b : Block Half) :
    (s.setZB b).ERR_INFO = s.ERR_INFO := rfl
@[simp] theorem State.setZB_LASTCMD (s : State) (b : Block Half) :
    (s.setZB b).LASTCMD = s.LASTCMD := rfl
@[simp] theorem State.setZB_inReset (s : State) (b : Block Half) :
    (s.setZB b).inReset = s.inReset := rfl
@[simp] theorem State.setZB_mustPoll (s : State) (b : Block Half) :
    (s.setZB b).mustPoll = s.mustPoll := rfl
@[simp] theorem State.setZB_heldERR (s : State) (b : Block Half) :
    (s.setZB b).heldERR = s.heldERR := rfl
@[simp] theorem State.setZB_heldERRCODE (s : State) (b : Block Half) :
    (s.setZB b).heldERRCODE = s.heldERRCODE := rfl
@[simp] theorem State.setZB_latLeft (s : State) (b : Block Half) :
    (s.setZB b).latLeft = s.latLeft := rfl
@[simp] theorem State.setZB_latDraws (s : State) (b : Block Half) :
    (s.setZB b).latDraws = s.latDraws := rfl
@[simp] theorem State.setZB_nanDraws (s : State) (b : Block Half) :
    (s.setZB b).nanDraws = s.nanDraws := rfl
@[simp] theorem State.setZB_hostq (s : State) (b : Block Half) :
    (s.setZB b).hostq = s.hostq := rfl
@[simp] theorem State.setZB_reads (s : State) (b : Block Half) :
    (s.setZB b).reads = s.reads := rfl

/-! ### setTable -/

@[simp] theorem State.setTable_S (s : State) (t : TableClass) (b : Block Byte) (q : BitVec 7) :
    (s.setTable t b q).S = s.S := rfl
@[simp] theorem State.setTable_C (s : State) (t : TableClass) (b : Block Byte) (q : BitVec 7) :
    (s.setTable t b q).C = s.C := rfl
@[simp] theorem State.setTable_QB (s : State) (t : TableClass) (b : Block Byte) (q : BitVec 7) :
    (s.setTable t b q).QB = s.QB := rfl
@[simp] theorem State.setTable_ZB (s : State) (t : TableClass) (b : Block Byte) (q : BitVec 7) :
    (s.setTable t b q).ZB = s.ZB := rfl
@[simp] theorem State.setTable_QT (s : State) (t : TableClass) (b : Block Byte) (q : BitVec 7) :
    (s.setTable t b q).QT = s.QT.set (tableIndex t).val b := rfl
@[simp] theorem State.setTable_QUAL (s : State) (t : TableClass) (b : Block Byte) (q : BitVec 7) :
    (s.setTable t b q).QUAL = s.QUAL.set (tableIndex t).val q := rfl
@[simp] theorem State.setTable_SYMBUF (s : State) (t : TableClass) (b : Block Byte) (q : BitVec 7) :
    (s.setTable t b q).SYMBUF = s.SYMBUF := rfl
@[simp] theorem State.setTable_SYMCNT (s : State) (t : TableClass) (b : Block Byte) (q : BitVec 7) :
    (s.setTable t b q).SYMCNT = s.SYMCNT := rfl
@[simp] theorem State.setTable_PRED (s : State) (t : TableClass) (b : Block Byte) (q : BitVec 7) :
    (s.setTable t b q).PRED = s.PRED := rfl
@[simp] theorem State.setTable_ACC (s : State) (t : TableClass) (b : Block Byte) (q : BitVec 7) :
    (s.setTable t b q).ACC = s.ACC := rfl
@[simp] theorem State.setTable_NBITS (s : State) (t : TableClass) (b : Block Byte) (q : BitVec 7) :
    (s.setTable t b q).NBITS = s.NBITS := rfl
@[simp] theorem State.setTable_OUTQ (s : State) (t : TableClass) (b : Block Byte) (q : BitVec 7) :
    (s.setTable t b q).OUTQ = s.OUTQ := rfl
@[simp] theorem State.setTable_BUSY (s : State) (t : TableClass) (b : Block Byte) (q : BitVec 7) :
    (s.setTable t b q).BUSY = s.BUSY := rfl
@[simp] theorem State.setTable_ERR (s : State) (t : TableClass) (b : Block Byte) (q : BitVec 7) :
    (s.setTable t b q).ERR = s.ERR := rfl
@[simp] theorem State.setTable_ERRCODE (s : State) (t : TableClass) (b : Block Byte) (q : BitVec 7) :
    (s.setTable t b q).ERRCODE = s.ERRCODE := rfl
@[simp] theorem State.setTable_ERR_INFO (s : State) (t : TableClass) (b : Block Byte) (q : BitVec 7) :
    (s.setTable t b q).ERR_INFO = s.ERR_INFO := rfl
@[simp] theorem State.setTable_LASTCMD (s : State) (t : TableClass) (b : Block Byte) (q : BitVec 7) :
    (s.setTable t b q).LASTCMD = s.LASTCMD := rfl
@[simp] theorem State.setTable_inReset (s : State) (t : TableClass) (b : Block Byte) (q : BitVec 7) :
    (s.setTable t b q).inReset = s.inReset := rfl
@[simp] theorem State.setTable_mustPoll (s : State) (t : TableClass) (b : Block Byte) (q : BitVec 7) :
    (s.setTable t b q).mustPoll = s.mustPoll := rfl
@[simp] theorem State.setTable_heldERR (s : State) (t : TableClass) (b : Block Byte) (q : BitVec 7) :
    (s.setTable t b q).heldERR = s.heldERR := rfl
@[simp] theorem State.setTable_heldERRCODE (s : State) (t : TableClass) (b : Block Byte) (q : BitVec 7) :
    (s.setTable t b q).heldERRCODE = s.heldERRCODE := rfl
@[simp] theorem State.setTable_latLeft (s : State) (t : TableClass) (b : Block Byte) (q : BitVec 7) :
    (s.setTable t b q).latLeft = s.latLeft := rfl
@[simp] theorem State.setTable_latDraws (s : State) (t : TableClass) (b : Block Byte) (q : BitVec 7) :
    (s.setTable t b q).latDraws = s.latDraws := rfl
@[simp] theorem State.setTable_nanDraws (s : State) (t : TableClass) (b : Block Byte) (q : BitVec 7) :
    (s.setTable t b q).nanDraws = s.nanDraws := rfl
@[simp] theorem State.setTable_hostq (s : State) (t : TableClass) (b : Block Byte) (q : BitVec 7) :
    (s.setTable t b q).hostq = s.hostq := rfl
@[simp] theorem State.setTable_reads (s : State) (t : TableClass) (b : Block Byte) (q : BitVec 7) :
    (s.setTable t b q).reads = s.reads := rfl

/-! ### setSymbols -/

@[simp] theorem State.setSymbols_S (s : State) (l : List Word) (c : Component) (p : Half) :
    (s.setSymbols l c p).S = s.S := rfl
@[simp] theorem State.setSymbols_C (s : State) (l : List Word) (c : Component) (p : Half) :
    (s.setSymbols l c p).C = s.C := rfl
@[simp] theorem State.setSymbols_QB (s : State) (l : List Word) (c : Component) (p : Half) :
    (s.setSymbols l c p).QB = s.QB := rfl
@[simp] theorem State.setSymbols_ZB (s : State) (l : List Word) (c : Component) (p : Half) :
    (s.setSymbols l c p).ZB = s.ZB := rfl
@[simp] theorem State.setSymbols_QT (s : State) (l : List Word) (c : Component) (p : Half) :
    (s.setSymbols l c p).QT = s.QT := rfl
@[simp] theorem State.setSymbols_QUAL (s : State) (l : List Word) (c : Component) (p : Half) :
    (s.setSymbols l c p).QUAL = s.QUAL := rfl
@[simp] theorem State.setSymbols_SYMBUF (s : State) (l : List Word) (c : Component) (p : Half) :
    (s.setSymbols l c p).SYMBUF = overlay s.SYMBUF l := rfl
@[simp] theorem State.setSymbols_SYMCNT (s : State) (l : List Word) (c : Component) (p : Half) :
    (s.setSymbols l c p).SYMCNT = BitVec.ofNat 7 l.length := rfl
@[simp] theorem State.setSymbols_PRED (s : State) (l : List Word) (c : Component) (p : Half) :
    (s.setSymbols l c p).PRED = s.PRED.set (predIndex c).val p := rfl
@[simp] theorem State.setSymbols_ACC (s : State) (l : List Word) (c : Component) (p : Half) :
    (s.setSymbols l c p).ACC = s.ACC := rfl
@[simp] theorem State.setSymbols_NBITS (s : State) (l : List Word) (c : Component) (p : Half) :
    (s.setSymbols l c p).NBITS = s.NBITS := rfl
@[simp] theorem State.setSymbols_OUTQ (s : State) (l : List Word) (c : Component) (p : Half) :
    (s.setSymbols l c p).OUTQ = s.OUTQ := rfl
@[simp] theorem State.setSymbols_BUSY (s : State) (l : List Word) (c : Component) (p : Half) :
    (s.setSymbols l c p).BUSY = s.BUSY := rfl
@[simp] theorem State.setSymbols_ERR (s : State) (l : List Word) (c : Component) (p : Half) :
    (s.setSymbols l c p).ERR = s.ERR := rfl
@[simp] theorem State.setSymbols_ERRCODE (s : State) (l : List Word) (c : Component) (p : Half) :
    (s.setSymbols l c p).ERRCODE = s.ERRCODE := rfl
@[simp] theorem State.setSymbols_ERR_INFO (s : State) (l : List Word) (c : Component) (p : Half) :
    (s.setSymbols l c p).ERR_INFO = s.ERR_INFO := rfl
@[simp] theorem State.setSymbols_LASTCMD (s : State) (l : List Word) (c : Component) (p : Half) :
    (s.setSymbols l c p).LASTCMD = s.LASTCMD := rfl
@[simp] theorem State.setSymbols_inReset (s : State) (l : List Word) (c : Component) (p : Half) :
    (s.setSymbols l c p).inReset = s.inReset := rfl
@[simp] theorem State.setSymbols_mustPoll (s : State) (l : List Word) (c : Component) (p : Half) :
    (s.setSymbols l c p).mustPoll = s.mustPoll := rfl
@[simp] theorem State.setSymbols_heldERR (s : State) (l : List Word) (c : Component) (p : Half) :
    (s.setSymbols l c p).heldERR = s.heldERR := rfl
@[simp] theorem State.setSymbols_heldERRCODE (s : State) (l : List Word) (c : Component) (p : Half) :
    (s.setSymbols l c p).heldERRCODE = s.heldERRCODE := rfl
@[simp] theorem State.setSymbols_latLeft (s : State) (l : List Word) (c : Component) (p : Half) :
    (s.setSymbols l c p).latLeft = s.latLeft := rfl
@[simp] theorem State.setSymbols_latDraws (s : State) (l : List Word) (c : Component) (p : Half) :
    (s.setSymbols l c p).latDraws = s.latDraws := rfl
@[simp] theorem State.setSymbols_nanDraws (s : State) (l : List Word) (c : Component) (p : Half) :
    (s.setSymbols l c p).nanDraws = s.nanDraws := rfl
@[simp] theorem State.setSymbols_hostq (s : State) (l : List Word) (c : Component) (p : Half) :
    (s.setSymbols l c p).hostq = s.hostq := rfl
@[simp] theorem State.setSymbols_reads (s : State) (l : List Word) (c : Component) (p : Half) :
    (s.setSymbols l c p).reads = s.reads := rfl

/-! ### setPred -/

@[simp] theorem State.setPred_S (s : State) (p : Vector Half 3) :
    (s.setPred p).S = s.S := rfl
@[simp] theorem State.setPred_C (s : State) (p : Vector Half 3) :
    (s.setPred p).C = s.C := rfl
@[simp] theorem State.setPred_QB (s : State) (p : Vector Half 3) :
    (s.setPred p).QB = s.QB := rfl
@[simp] theorem State.setPred_ZB (s : State) (p : Vector Half 3) :
    (s.setPred p).ZB = s.ZB := rfl
@[simp] theorem State.setPred_QT (s : State) (p : Vector Half 3) :
    (s.setPred p).QT = s.QT := rfl
@[simp] theorem State.setPred_QUAL (s : State) (p : Vector Half 3) :
    (s.setPred p).QUAL = s.QUAL := rfl
@[simp] theorem State.setPred_SYMBUF (s : State) (p : Vector Half 3) :
    (s.setPred p).SYMBUF = s.SYMBUF := rfl
@[simp] theorem State.setPred_SYMCNT (s : State) (p : Vector Half 3) :
    (s.setPred p).SYMCNT = s.SYMCNT := rfl
@[simp] theorem State.setPred_PRED (s : State) (p : Vector Half 3) :
    (s.setPred p).PRED = p := rfl
@[simp] theorem State.setPred_ACC (s : State) (p : Vector Half 3) :
    (s.setPred p).ACC = s.ACC := rfl
@[simp] theorem State.setPred_NBITS (s : State) (p : Vector Half 3) :
    (s.setPred p).NBITS = s.NBITS := rfl
@[simp] theorem State.setPred_OUTQ (s : State) (p : Vector Half 3) :
    (s.setPred p).OUTQ = s.OUTQ := rfl
@[simp] theorem State.setPred_BUSY (s : State) (p : Vector Half 3) :
    (s.setPred p).BUSY = s.BUSY := rfl
@[simp] theorem State.setPred_ERR (s : State) (p : Vector Half 3) :
    (s.setPred p).ERR = s.ERR := rfl
@[simp] theorem State.setPred_ERRCODE (s : State) (p : Vector Half 3) :
    (s.setPred p).ERRCODE = s.ERRCODE := rfl
@[simp] theorem State.setPred_ERR_INFO (s : State) (p : Vector Half 3) :
    (s.setPred p).ERR_INFO = s.ERR_INFO := rfl
@[simp] theorem State.setPred_LASTCMD (s : State) (p : Vector Half 3) :
    (s.setPred p).LASTCMD = s.LASTCMD := rfl
@[simp] theorem State.setPred_inReset (s : State) (p : Vector Half 3) :
    (s.setPred p).inReset = s.inReset := rfl
@[simp] theorem State.setPred_mustPoll (s : State) (p : Vector Half 3) :
    (s.setPred p).mustPoll = s.mustPoll := rfl
@[simp] theorem State.setPred_heldERR (s : State) (p : Vector Half 3) :
    (s.setPred p).heldERR = s.heldERR := rfl
@[simp] theorem State.setPred_heldERRCODE (s : State) (p : Vector Half 3) :
    (s.setPred p).heldERRCODE = s.heldERRCODE := rfl
@[simp] theorem State.setPred_latLeft (s : State) (p : Vector Half 3) :
    (s.setPred p).latLeft = s.latLeft := rfl
@[simp] theorem State.setPred_latDraws (s : State) (p : Vector Half 3) :
    (s.setPred p).latDraws = s.latDraws := rfl
@[simp] theorem State.setPred_nanDraws (s : State) (p : Vector Half 3) :
    (s.setPred p).nanDraws = s.nanDraws := rfl
@[simp] theorem State.setPred_hostq (s : State) (p : Vector Half 3) :
    (s.setPred p).hostq = s.hostq := rfl
@[simp] theorem State.setPred_reads (s : State) (p : Vector Half 3) :
    (s.setPred p).reads = s.reads := rfl

/-! ### setWriter -/

@[simp] theorem State.setWriter_S (s : State) (a nb : Nat) (q : List Byte) :
    (s.setWriter a nb q).S = s.S := rfl
@[simp] theorem State.setWriter_C (s : State) (a nb : Nat) (q : List Byte) :
    (s.setWriter a nb q).C = s.C := rfl
@[simp] theorem State.setWriter_QB (s : State) (a nb : Nat) (q : List Byte) :
    (s.setWriter a nb q).QB = s.QB := rfl
@[simp] theorem State.setWriter_ZB (s : State) (a nb : Nat) (q : List Byte) :
    (s.setWriter a nb q).ZB = s.ZB := rfl
@[simp] theorem State.setWriter_QT (s : State) (a nb : Nat) (q : List Byte) :
    (s.setWriter a nb q).QT = s.QT := rfl
@[simp] theorem State.setWriter_QUAL (s : State) (a nb : Nat) (q : List Byte) :
    (s.setWriter a nb q).QUAL = s.QUAL := rfl
@[simp] theorem State.setWriter_SYMBUF (s : State) (a nb : Nat) (q : List Byte) :
    (s.setWriter a nb q).SYMBUF = s.SYMBUF := rfl
@[simp] theorem State.setWriter_SYMCNT (s : State) (a nb : Nat) (q : List Byte) :
    (s.setWriter a nb q).SYMCNT = s.SYMCNT := rfl
@[simp] theorem State.setWriter_PRED (s : State) (a nb : Nat) (q : List Byte) :
    (s.setWriter a nb q).PRED = s.PRED := rfl
@[simp] theorem State.setWriter_ACC (s : State) (a nb : Nat) (q : List Byte) :
    (s.setWriter a nb q).ACC = BitVec.ofNat 7 a := rfl
@[simp] theorem State.setWriter_NBITS (s : State) (a nb : Nat) (q : List Byte) :
    (s.setWriter a nb q).NBITS = BitVec.ofNat 3 nb := rfl
@[simp] theorem State.setWriter_OUTQ (s : State) (a nb : Nat) (q : List Byte) :
    (s.setWriter a nb q).OUTQ = q := rfl
@[simp] theorem State.setWriter_BUSY (s : State) (a nb : Nat) (q : List Byte) :
    (s.setWriter a nb q).BUSY = s.BUSY := rfl
@[simp] theorem State.setWriter_ERR (s : State) (a nb : Nat) (q : List Byte) :
    (s.setWriter a nb q).ERR = s.ERR := rfl
@[simp] theorem State.setWriter_ERRCODE (s : State) (a nb : Nat) (q : List Byte) :
    (s.setWriter a nb q).ERRCODE = s.ERRCODE := rfl
@[simp] theorem State.setWriter_ERR_INFO (s : State) (a nb : Nat) (q : List Byte) :
    (s.setWriter a nb q).ERR_INFO = s.ERR_INFO := rfl
@[simp] theorem State.setWriter_LASTCMD (s : State) (a nb : Nat) (q : List Byte) :
    (s.setWriter a nb q).LASTCMD = s.LASTCMD := rfl
@[simp] theorem State.setWriter_inReset (s : State) (a nb : Nat) (q : List Byte) :
    (s.setWriter a nb q).inReset = s.inReset := rfl
@[simp] theorem State.setWriter_mustPoll (s : State) (a nb : Nat) (q : List Byte) :
    (s.setWriter a nb q).mustPoll = s.mustPoll := rfl
@[simp] theorem State.setWriter_heldERR (s : State) (a nb : Nat) (q : List Byte) :
    (s.setWriter a nb q).heldERR = s.heldERR := rfl
@[simp] theorem State.setWriter_heldERRCODE (s : State) (a nb : Nat) (q : List Byte) :
    (s.setWriter a nb q).heldERRCODE = s.heldERRCODE := rfl
@[simp] theorem State.setWriter_latLeft (s : State) (a nb : Nat) (q : List Byte) :
    (s.setWriter a nb q).latLeft = s.latLeft := rfl
@[simp] theorem State.setWriter_latDraws (s : State) (a nb : Nat) (q : List Byte) :
    (s.setWriter a nb q).latDraws = s.latDraws := rfl
@[simp] theorem State.setWriter_nanDraws (s : State) (a nb : Nat) (q : List Byte) :
    (s.setWriter a nb q).nanDraws = s.nanDraws := rfl
@[simp] theorem State.setWriter_hostq (s : State) (a nb : Nat) (q : List Byte) :
    (s.setWriter a nb q).hostq = s.hostq := rfl
@[simp] theorem State.setWriter_reads (s : State) (a nb : Nat) (q : List Byte) :
    (s.setWriter a nb q).reads = s.reads := rfl

/-! ### drawNaNs -/

@[simp] theorem State.drawNaNs_S (s : State) (n : Nat) :
    (s.drawNaNs n).S = s.S := rfl
@[simp] theorem State.drawNaNs_C (s : State) (n : Nat) :
    (s.drawNaNs n).C = s.C := rfl
@[simp] theorem State.drawNaNs_QB (s : State) (n : Nat) :
    (s.drawNaNs n).QB = s.QB := rfl
@[simp] theorem State.drawNaNs_ZB (s : State) (n : Nat) :
    (s.drawNaNs n).ZB = s.ZB := rfl
@[simp] theorem State.drawNaNs_QT (s : State) (n : Nat) :
    (s.drawNaNs n).QT = s.QT := rfl
@[simp] theorem State.drawNaNs_QUAL (s : State) (n : Nat) :
    (s.drawNaNs n).QUAL = s.QUAL := rfl
@[simp] theorem State.drawNaNs_SYMBUF (s : State) (n : Nat) :
    (s.drawNaNs n).SYMBUF = s.SYMBUF := rfl
@[simp] theorem State.drawNaNs_SYMCNT (s : State) (n : Nat) :
    (s.drawNaNs n).SYMCNT = s.SYMCNT := rfl
@[simp] theorem State.drawNaNs_PRED (s : State) (n : Nat) :
    (s.drawNaNs n).PRED = s.PRED := rfl
@[simp] theorem State.drawNaNs_ACC (s : State) (n : Nat) :
    (s.drawNaNs n).ACC = s.ACC := rfl
@[simp] theorem State.drawNaNs_NBITS (s : State) (n : Nat) :
    (s.drawNaNs n).NBITS = s.NBITS := rfl
@[simp] theorem State.drawNaNs_OUTQ (s : State) (n : Nat) :
    (s.drawNaNs n).OUTQ = s.OUTQ := rfl
@[simp] theorem State.drawNaNs_BUSY (s : State) (n : Nat) :
    (s.drawNaNs n).BUSY = s.BUSY := rfl
@[simp] theorem State.drawNaNs_ERR (s : State) (n : Nat) :
    (s.drawNaNs n).ERR = s.ERR := rfl
@[simp] theorem State.drawNaNs_ERRCODE (s : State) (n : Nat) :
    (s.drawNaNs n).ERRCODE = s.ERRCODE := rfl
@[simp] theorem State.drawNaNs_ERR_INFO (s : State) (n : Nat) :
    (s.drawNaNs n).ERR_INFO = s.ERR_INFO := rfl
@[simp] theorem State.drawNaNs_LASTCMD (s : State) (n : Nat) :
    (s.drawNaNs n).LASTCMD = s.LASTCMD := rfl
@[simp] theorem State.drawNaNs_inReset (s : State) (n : Nat) :
    (s.drawNaNs n).inReset = s.inReset := rfl
@[simp] theorem State.drawNaNs_mustPoll (s : State) (n : Nat) :
    (s.drawNaNs n).mustPoll = s.mustPoll := rfl
@[simp] theorem State.drawNaNs_heldERR (s : State) (n : Nat) :
    (s.drawNaNs n).heldERR = s.heldERR := rfl
@[simp] theorem State.drawNaNs_heldERRCODE (s : State) (n : Nat) :
    (s.drawNaNs n).heldERRCODE = s.heldERRCODE := rfl
@[simp] theorem State.drawNaNs_latLeft (s : State) (n : Nat) :
    (s.drawNaNs n).latLeft = s.latLeft := rfl
@[simp] theorem State.drawNaNs_latDraws (s : State) (n : Nat) :
    (s.drawNaNs n).latDraws = s.latDraws := rfl
@[simp] theorem State.drawNaNs_nanDraws (s : State) (n : Nat) :
    (s.drawNaNs n).nanDraws = s.nanDraws + n := rfl
@[simp] theorem State.drawNaNs_hostq (s : State) (n : Nat) :
    (s.drawNaNs n).hostq = s.hostq := rfl
@[simp] theorem State.drawNaNs_reads (s : State) (n : Nat) :
    (s.drawNaNs n).reads = s.reads := rfl

/-! ### setOutq -/

@[simp] theorem State.setOutq_S (s : State) (q : List Byte) :
    (s.setOutq q).S = s.S := rfl
@[simp] theorem State.setOutq_C (s : State) (q : List Byte) :
    (s.setOutq q).C = s.C := rfl
@[simp] theorem State.setOutq_QB (s : State) (q : List Byte) :
    (s.setOutq q).QB = s.QB := rfl
@[simp] theorem State.setOutq_ZB (s : State) (q : List Byte) :
    (s.setOutq q).ZB = s.ZB := rfl
@[simp] theorem State.setOutq_QT (s : State) (q : List Byte) :
    (s.setOutq q).QT = s.QT := rfl
@[simp] theorem State.setOutq_QUAL (s : State) (q : List Byte) :
    (s.setOutq q).QUAL = s.QUAL := rfl
@[simp] theorem State.setOutq_SYMBUF (s : State) (q : List Byte) :
    (s.setOutq q).SYMBUF = s.SYMBUF := rfl
@[simp] theorem State.setOutq_SYMCNT (s : State) (q : List Byte) :
    (s.setOutq q).SYMCNT = s.SYMCNT := rfl
@[simp] theorem State.setOutq_PRED (s : State) (q : List Byte) :
    (s.setOutq q).PRED = s.PRED := rfl
@[simp] theorem State.setOutq_ACC (s : State) (q : List Byte) :
    (s.setOutq q).ACC = s.ACC := rfl
@[simp] theorem State.setOutq_NBITS (s : State) (q : List Byte) :
    (s.setOutq q).NBITS = s.NBITS := rfl
@[simp] theorem State.setOutq_OUTQ (s : State) (q : List Byte) :
    (s.setOutq q).OUTQ = q := rfl
@[simp] theorem State.setOutq_BUSY (s : State) (q : List Byte) :
    (s.setOutq q).BUSY = s.BUSY := rfl
@[simp] theorem State.setOutq_ERR (s : State) (q : List Byte) :
    (s.setOutq q).ERR = s.ERR := rfl
@[simp] theorem State.setOutq_ERRCODE (s : State) (q : List Byte) :
    (s.setOutq q).ERRCODE = s.ERRCODE := rfl
@[simp] theorem State.setOutq_ERR_INFO (s : State) (q : List Byte) :
    (s.setOutq q).ERR_INFO = s.ERR_INFO := rfl
@[simp] theorem State.setOutq_LASTCMD (s : State) (q : List Byte) :
    (s.setOutq q).LASTCMD = s.LASTCMD := rfl
@[simp] theorem State.setOutq_inReset (s : State) (q : List Byte) :
    (s.setOutq q).inReset = s.inReset := rfl
@[simp] theorem State.setOutq_mustPoll (s : State) (q : List Byte) :
    (s.setOutq q).mustPoll = s.mustPoll := rfl
@[simp] theorem State.setOutq_heldERR (s : State) (q : List Byte) :
    (s.setOutq q).heldERR = s.heldERR := rfl
@[simp] theorem State.setOutq_heldERRCODE (s : State) (q : List Byte) :
    (s.setOutq q).heldERRCODE = s.heldERRCODE := rfl
@[simp] theorem State.setOutq_latLeft (s : State) (q : List Byte) :
    (s.setOutq q).latLeft = s.latLeft := rfl
@[simp] theorem State.setOutq_latDraws (s : State) (q : List Byte) :
    (s.setOutq q).latDraws = s.latDraws := rfl
@[simp] theorem State.setOutq_nanDraws (s : State) (q : List Byte) :
    (s.setOutq q).nanDraws = s.nanDraws := rfl
@[simp] theorem State.setOutq_hostq (s : State) (q : List Byte) :
    (s.setOutq q).hostq = s.hostq := rfl
@[simp] theorem State.setOutq_reads (s : State) (q : List Byte) :
    (s.setOutq q).reads = s.reads := rfl

/-! ### setSymbuf -/

@[simp] theorem State.setSymbuf_S (s : State) (b : Block Word) :
    (s.setSymbuf b).S = s.S := rfl
@[simp] theorem State.setSymbuf_C (s : State) (b : Block Word) :
    (s.setSymbuf b).C = s.C := rfl
@[simp] theorem State.setSymbuf_QB (s : State) (b : Block Word) :
    (s.setSymbuf b).QB = s.QB := rfl
@[simp] theorem State.setSymbuf_ZB (s : State) (b : Block Word) :
    (s.setSymbuf b).ZB = s.ZB := rfl
@[simp] theorem State.setSymbuf_QT (s : State) (b : Block Word) :
    (s.setSymbuf b).QT = s.QT := rfl
@[simp] theorem State.setSymbuf_QUAL (s : State) (b : Block Word) :
    (s.setSymbuf b).QUAL = s.QUAL := rfl
@[simp] theorem State.setSymbuf_SYMBUF (s : State) (b : Block Word) :
    (s.setSymbuf b).SYMBUF = b := rfl
@[simp] theorem State.setSymbuf_SYMCNT (s : State) (b : Block Word) :
    (s.setSymbuf b).SYMCNT = s.SYMCNT := rfl
@[simp] theorem State.setSymbuf_PRED (s : State) (b : Block Word) :
    (s.setSymbuf b).PRED = s.PRED := rfl
@[simp] theorem State.setSymbuf_ACC (s : State) (b : Block Word) :
    (s.setSymbuf b).ACC = s.ACC := rfl
@[simp] theorem State.setSymbuf_NBITS (s : State) (b : Block Word) :
    (s.setSymbuf b).NBITS = s.NBITS := rfl
@[simp] theorem State.setSymbuf_OUTQ (s : State) (b : Block Word) :
    (s.setSymbuf b).OUTQ = s.OUTQ := rfl
@[simp] theorem State.setSymbuf_BUSY (s : State) (b : Block Word) :
    (s.setSymbuf b).BUSY = s.BUSY := rfl
@[simp] theorem State.setSymbuf_ERR (s : State) (b : Block Word) :
    (s.setSymbuf b).ERR = s.ERR := rfl
@[simp] theorem State.setSymbuf_ERRCODE (s : State) (b : Block Word) :
    (s.setSymbuf b).ERRCODE = s.ERRCODE := rfl
@[simp] theorem State.setSymbuf_ERR_INFO (s : State) (b : Block Word) :
    (s.setSymbuf b).ERR_INFO = s.ERR_INFO := rfl
@[simp] theorem State.setSymbuf_LASTCMD (s : State) (b : Block Word) :
    (s.setSymbuf b).LASTCMD = s.LASTCMD := rfl
@[simp] theorem State.setSymbuf_inReset (s : State) (b : Block Word) :
    (s.setSymbuf b).inReset = s.inReset := rfl
@[simp] theorem State.setSymbuf_mustPoll (s : State) (b : Block Word) :
    (s.setSymbuf b).mustPoll = s.mustPoll := rfl
@[simp] theorem State.setSymbuf_heldERR (s : State) (b : Block Word) :
    (s.setSymbuf b).heldERR = s.heldERR := rfl
@[simp] theorem State.setSymbuf_heldERRCODE (s : State) (b : Block Word) :
    (s.setSymbuf b).heldERRCODE = s.heldERRCODE := rfl
@[simp] theorem State.setSymbuf_latLeft (s : State) (b : Block Word) :
    (s.setSymbuf b).latLeft = s.latLeft := rfl
@[simp] theorem State.setSymbuf_latDraws (s : State) (b : Block Word) :
    (s.setSymbuf b).latDraws = s.latDraws := rfl
@[simp] theorem State.setSymbuf_nanDraws (s : State) (b : Block Word) :
    (s.setSymbuf b).nanDraws = s.nanDraws := rfl
@[simp] theorem State.setSymbuf_hostq (s : State) (b : Block Word) :
    (s.setSymbuf b).hostq = s.hostq := rfl
@[simp] theorem State.setSymbuf_reads (s : State) (b : Block Word) :
    (s.setSymbuf b).reads = s.reads := rfl

/-! ### setSymcnt -/

@[simp] theorem State.setSymcnt_S (s : State) (n : BitVec 7) :
    (s.setSymcnt n).S = s.S := rfl
@[simp] theorem State.setSymcnt_C (s : State) (n : BitVec 7) :
    (s.setSymcnt n).C = s.C := rfl
@[simp] theorem State.setSymcnt_QB (s : State) (n : BitVec 7) :
    (s.setSymcnt n).QB = s.QB := rfl
@[simp] theorem State.setSymcnt_ZB (s : State) (n : BitVec 7) :
    (s.setSymcnt n).ZB = s.ZB := rfl
@[simp] theorem State.setSymcnt_QT (s : State) (n : BitVec 7) :
    (s.setSymcnt n).QT = s.QT := rfl
@[simp] theorem State.setSymcnt_QUAL (s : State) (n : BitVec 7) :
    (s.setSymcnt n).QUAL = s.QUAL := rfl
@[simp] theorem State.setSymcnt_SYMBUF (s : State) (n : BitVec 7) :
    (s.setSymcnt n).SYMBUF = s.SYMBUF := rfl
@[simp] theorem State.setSymcnt_SYMCNT (s : State) (n : BitVec 7) :
    (s.setSymcnt n).SYMCNT = n := rfl
@[simp] theorem State.setSymcnt_PRED (s : State) (n : BitVec 7) :
    (s.setSymcnt n).PRED = s.PRED := rfl
@[simp] theorem State.setSymcnt_ACC (s : State) (n : BitVec 7) :
    (s.setSymcnt n).ACC = s.ACC := rfl
@[simp] theorem State.setSymcnt_NBITS (s : State) (n : BitVec 7) :
    (s.setSymcnt n).NBITS = s.NBITS := rfl
@[simp] theorem State.setSymcnt_OUTQ (s : State) (n : BitVec 7) :
    (s.setSymcnt n).OUTQ = s.OUTQ := rfl
@[simp] theorem State.setSymcnt_BUSY (s : State) (n : BitVec 7) :
    (s.setSymcnt n).BUSY = s.BUSY := rfl
@[simp] theorem State.setSymcnt_ERR (s : State) (n : BitVec 7) :
    (s.setSymcnt n).ERR = s.ERR := rfl
@[simp] theorem State.setSymcnt_ERRCODE (s : State) (n : BitVec 7) :
    (s.setSymcnt n).ERRCODE = s.ERRCODE := rfl
@[simp] theorem State.setSymcnt_ERR_INFO (s : State) (n : BitVec 7) :
    (s.setSymcnt n).ERR_INFO = s.ERR_INFO := rfl
@[simp] theorem State.setSymcnt_LASTCMD (s : State) (n : BitVec 7) :
    (s.setSymcnt n).LASTCMD = s.LASTCMD := rfl
@[simp] theorem State.setSymcnt_inReset (s : State) (n : BitVec 7) :
    (s.setSymcnt n).inReset = s.inReset := rfl
@[simp] theorem State.setSymcnt_mustPoll (s : State) (n : BitVec 7) :
    (s.setSymcnt n).mustPoll = s.mustPoll := rfl
@[simp] theorem State.setSymcnt_heldERR (s : State) (n : BitVec 7) :
    (s.setSymcnt n).heldERR = s.heldERR := rfl
@[simp] theorem State.setSymcnt_heldERRCODE (s : State) (n : BitVec 7) :
    (s.setSymcnt n).heldERRCODE = s.heldERRCODE := rfl
@[simp] theorem State.setSymcnt_latLeft (s : State) (n : BitVec 7) :
    (s.setSymcnt n).latLeft = s.latLeft := rfl
@[simp] theorem State.setSymcnt_latDraws (s : State) (n : BitVec 7) :
    (s.setSymcnt n).latDraws = s.latDraws := rfl
@[simp] theorem State.setSymcnt_nanDraws (s : State) (n : BitVec 7) :
    (s.setSymcnt n).nanDraws = s.nanDraws := rfl
@[simp] theorem State.setSymcnt_hostq (s : State) (n : BitVec 7) :
    (s.setSymcnt n).hostq = s.hostq := rfl
@[simp] theorem State.setSymcnt_reads (s : State) (n : BitVec 7) :
    (s.setSymcnt n).reads = s.reads := rfl

/-! ### setHostq -/

@[simp] theorem State.setHostq_S (s : State) (q : List HostOp) :
    (s.setHostq q).S = s.S := rfl
@[simp] theorem State.setHostq_C (s : State) (q : List HostOp) :
    (s.setHostq q).C = s.C := rfl
@[simp] theorem State.setHostq_QB (s : State) (q : List HostOp) :
    (s.setHostq q).QB = s.QB := rfl
@[simp] theorem State.setHostq_ZB (s : State) (q : List HostOp) :
    (s.setHostq q).ZB = s.ZB := rfl
@[simp] theorem State.setHostq_QT (s : State) (q : List HostOp) :
    (s.setHostq q).QT = s.QT := rfl
@[simp] theorem State.setHostq_QUAL (s : State) (q : List HostOp) :
    (s.setHostq q).QUAL = s.QUAL := rfl
@[simp] theorem State.setHostq_SYMBUF (s : State) (q : List HostOp) :
    (s.setHostq q).SYMBUF = s.SYMBUF := rfl
@[simp] theorem State.setHostq_SYMCNT (s : State) (q : List HostOp) :
    (s.setHostq q).SYMCNT = s.SYMCNT := rfl
@[simp] theorem State.setHostq_PRED (s : State) (q : List HostOp) :
    (s.setHostq q).PRED = s.PRED := rfl
@[simp] theorem State.setHostq_ACC (s : State) (q : List HostOp) :
    (s.setHostq q).ACC = s.ACC := rfl
@[simp] theorem State.setHostq_NBITS (s : State) (q : List HostOp) :
    (s.setHostq q).NBITS = s.NBITS := rfl
@[simp] theorem State.setHostq_OUTQ (s : State) (q : List HostOp) :
    (s.setHostq q).OUTQ = s.OUTQ := rfl
@[simp] theorem State.setHostq_BUSY (s : State) (q : List HostOp) :
    (s.setHostq q).BUSY = s.BUSY := rfl
@[simp] theorem State.setHostq_ERR (s : State) (q : List HostOp) :
    (s.setHostq q).ERR = s.ERR := rfl
@[simp] theorem State.setHostq_ERRCODE (s : State) (q : List HostOp) :
    (s.setHostq q).ERRCODE = s.ERRCODE := rfl
@[simp] theorem State.setHostq_ERR_INFO (s : State) (q : List HostOp) :
    (s.setHostq q).ERR_INFO = s.ERR_INFO := rfl
@[simp] theorem State.setHostq_LASTCMD (s : State) (q : List HostOp) :
    (s.setHostq q).LASTCMD = s.LASTCMD := rfl
@[simp] theorem State.setHostq_inReset (s : State) (q : List HostOp) :
    (s.setHostq q).inReset = s.inReset := rfl
@[simp] theorem State.setHostq_mustPoll (s : State) (q : List HostOp) :
    (s.setHostq q).mustPoll = s.mustPoll := rfl
@[simp] theorem State.setHostq_heldERR (s : State) (q : List HostOp) :
    (s.setHostq q).heldERR = s.heldERR := rfl
@[simp] theorem State.setHostq_heldERRCODE (s : State) (q : List HostOp) :
    (s.setHostq q).heldERRCODE = s.heldERRCODE := rfl
@[simp] theorem State.setHostq_latLeft (s : State) (q : List HostOp) :
    (s.setHostq q).latLeft = s.latLeft := rfl
@[simp] theorem State.setHostq_latDraws (s : State) (q : List HostOp) :
    (s.setHostq q).latDraws = s.latDraws := rfl
@[simp] theorem State.setHostq_nanDraws (s : State) (q : List HostOp) :
    (s.setHostq q).nanDraws = s.nanDraws := rfl
@[simp] theorem State.setHostq_hostq (s : State) (q : List HostOp) :
    (s.setHostq q).hostq = q := rfl
@[simp] theorem State.setHostq_reads (s : State) (q : List HostOp) :
    (s.setHostq q).reads = s.reads := rfl

/-! ### setInReset -/

@[simp] theorem State.setInReset_S (s : State) (b : Bool) :
    (s.setInReset b).S = s.S := rfl
@[simp] theorem State.setInReset_C (s : State) (b : Bool) :
    (s.setInReset b).C = s.C := rfl
@[simp] theorem State.setInReset_QB (s : State) (b : Bool) :
    (s.setInReset b).QB = s.QB := rfl
@[simp] theorem State.setInReset_ZB (s : State) (b : Bool) :
    (s.setInReset b).ZB = s.ZB := rfl
@[simp] theorem State.setInReset_QT (s : State) (b : Bool) :
    (s.setInReset b).QT = s.QT := rfl
@[simp] theorem State.setInReset_QUAL (s : State) (b : Bool) :
    (s.setInReset b).QUAL = s.QUAL := rfl
@[simp] theorem State.setInReset_SYMBUF (s : State) (b : Bool) :
    (s.setInReset b).SYMBUF = s.SYMBUF := rfl
@[simp] theorem State.setInReset_SYMCNT (s : State) (b : Bool) :
    (s.setInReset b).SYMCNT = s.SYMCNT := rfl
@[simp] theorem State.setInReset_PRED (s : State) (b : Bool) :
    (s.setInReset b).PRED = s.PRED := rfl
@[simp] theorem State.setInReset_ACC (s : State) (b : Bool) :
    (s.setInReset b).ACC = s.ACC := rfl
@[simp] theorem State.setInReset_NBITS (s : State) (b : Bool) :
    (s.setInReset b).NBITS = s.NBITS := rfl
@[simp] theorem State.setInReset_OUTQ (s : State) (b : Bool) :
    (s.setInReset b).OUTQ = s.OUTQ := rfl
@[simp] theorem State.setInReset_BUSY (s : State) (b : Bool) :
    (s.setInReset b).BUSY = s.BUSY := rfl
@[simp] theorem State.setInReset_ERR (s : State) (b : Bool) :
    (s.setInReset b).ERR = s.ERR := rfl
@[simp] theorem State.setInReset_ERRCODE (s : State) (b : Bool) :
    (s.setInReset b).ERRCODE = s.ERRCODE := rfl
@[simp] theorem State.setInReset_ERR_INFO (s : State) (b : Bool) :
    (s.setInReset b).ERR_INFO = s.ERR_INFO := rfl
@[simp] theorem State.setInReset_LASTCMD (s : State) (b : Bool) :
    (s.setInReset b).LASTCMD = s.LASTCMD := rfl
@[simp] theorem State.setInReset_inReset (s : State) (b : Bool) :
    (s.setInReset b).inReset = b := rfl
@[simp] theorem State.setInReset_mustPoll (s : State) (b : Bool) :
    (s.setInReset b).mustPoll = s.mustPoll := rfl
@[simp] theorem State.setInReset_heldERR (s : State) (b : Bool) :
    (s.setInReset b).heldERR = s.heldERR := rfl
@[simp] theorem State.setInReset_heldERRCODE (s : State) (b : Bool) :
    (s.setInReset b).heldERRCODE = s.heldERRCODE := rfl
@[simp] theorem State.setInReset_latLeft (s : State) (b : Bool) :
    (s.setInReset b).latLeft = s.latLeft := rfl
@[simp] theorem State.setInReset_latDraws (s : State) (b : Bool) :
    (s.setInReset b).latDraws = s.latDraws := rfl
@[simp] theorem State.setInReset_nanDraws (s : State) (b : Bool) :
    (s.setInReset b).nanDraws = s.nanDraws := rfl
@[simp] theorem State.setInReset_hostq (s : State) (b : Bool) :
    (s.setInReset b).hostq = s.hostq := rfl
@[simp] theorem State.setInReset_reads (s : State) (b : Bool) :
    (s.setInReset b).reads = s.reads := rfl

/-! ### setIdle -/

@[simp] theorem State.setIdle_S (s : State) :
    (s.setIdle).S = s.S := rfl
@[simp] theorem State.setIdle_C (s : State) :
    (s.setIdle).C = s.C := rfl
@[simp] theorem State.setIdle_QB (s : State) :
    (s.setIdle).QB = s.QB := rfl
@[simp] theorem State.setIdle_ZB (s : State) :
    (s.setIdle).ZB = s.ZB := rfl
@[simp] theorem State.setIdle_QT (s : State) :
    (s.setIdle).QT = s.QT := rfl
@[simp] theorem State.setIdle_QUAL (s : State) :
    (s.setIdle).QUAL = s.QUAL := rfl
@[simp] theorem State.setIdle_SYMBUF (s : State) :
    (s.setIdle).SYMBUF = s.SYMBUF := rfl
@[simp] theorem State.setIdle_SYMCNT (s : State) :
    (s.setIdle).SYMCNT = s.SYMCNT := rfl
@[simp] theorem State.setIdle_PRED (s : State) :
    (s.setIdle).PRED = s.PRED := rfl
@[simp] theorem State.setIdle_ACC (s : State) :
    (s.setIdle).ACC = s.ACC := rfl
@[simp] theorem State.setIdle_NBITS (s : State) :
    (s.setIdle).NBITS = s.NBITS := rfl
@[simp] theorem State.setIdle_OUTQ (s : State) :
    (s.setIdle).OUTQ = s.OUTQ := rfl
@[simp] theorem State.setIdle_BUSY (s : State) :
    (s.setIdle).BUSY = false := rfl
@[simp] theorem State.setIdle_ERR (s : State) :
    (s.setIdle).ERR = s.ERR := rfl
@[simp] theorem State.setIdle_ERRCODE (s : State) :
    (s.setIdle).ERRCODE = s.ERRCODE := rfl
@[simp] theorem State.setIdle_ERR_INFO (s : State) :
    (s.setIdle).ERR_INFO = s.ERR_INFO := rfl
@[simp] theorem State.setIdle_LASTCMD (s : State) :
    (s.setIdle).LASTCMD = s.LASTCMD := rfl
@[simp] theorem State.setIdle_inReset (s : State) :
    (s.setIdle).inReset = s.inReset := rfl
@[simp] theorem State.setIdle_mustPoll (s : State) :
    (s.setIdle).mustPoll = s.mustPoll := rfl
@[simp] theorem State.setIdle_heldERR (s : State) :
    (s.setIdle).heldERR = s.heldERR := rfl
@[simp] theorem State.setIdle_heldERRCODE (s : State) :
    (s.setIdle).heldERRCODE = s.heldERRCODE := rfl
@[simp] theorem State.setIdle_latLeft (s : State) :
    (s.setIdle).latLeft = 0 := rfl
@[simp] theorem State.setIdle_latDraws (s : State) :
    (s.setIdle).latDraws = s.latDraws := rfl
@[simp] theorem State.setIdle_nanDraws (s : State) :
    (s.setIdle).nanDraws = s.nanDraws := rfl
@[simp] theorem State.setIdle_hostq (s : State) :
    (s.setIdle).hostq = s.hostq := rfl
@[simp] theorem State.setIdle_reads (s : State) :
    (s.setIdle).reads = s.reads := rfl

/-! ### record -/

@[simp] theorem State.record_S (s : State) (a : BusAddr) (w : Word) :
    (s.record a w).S = s.S := rfl
@[simp] theorem State.record_C (s : State) (a : BusAddr) (w : Word) :
    (s.record a w).C = s.C := rfl
@[simp] theorem State.record_QB (s : State) (a : BusAddr) (w : Word) :
    (s.record a w).QB = s.QB := rfl
@[simp] theorem State.record_ZB (s : State) (a : BusAddr) (w : Word) :
    (s.record a w).ZB = s.ZB := rfl
@[simp] theorem State.record_QT (s : State) (a : BusAddr) (w : Word) :
    (s.record a w).QT = s.QT := rfl
@[simp] theorem State.record_QUAL (s : State) (a : BusAddr) (w : Word) :
    (s.record a w).QUAL = s.QUAL := rfl
@[simp] theorem State.record_SYMBUF (s : State) (a : BusAddr) (w : Word) :
    (s.record a w).SYMBUF = s.SYMBUF := rfl
@[simp] theorem State.record_SYMCNT (s : State) (a : BusAddr) (w : Word) :
    (s.record a w).SYMCNT = s.SYMCNT := rfl
@[simp] theorem State.record_PRED (s : State) (a : BusAddr) (w : Word) :
    (s.record a w).PRED = s.PRED := rfl
@[simp] theorem State.record_ACC (s : State) (a : BusAddr) (w : Word) :
    (s.record a w).ACC = s.ACC := rfl
@[simp] theorem State.record_NBITS (s : State) (a : BusAddr) (w : Word) :
    (s.record a w).NBITS = s.NBITS := rfl
@[simp] theorem State.record_OUTQ (s : State) (a : BusAddr) (w : Word) :
    (s.record a w).OUTQ = s.OUTQ := rfl
@[simp] theorem State.record_BUSY (s : State) (a : BusAddr) (w : Word) :
    (s.record a w).BUSY = s.BUSY := rfl
@[simp] theorem State.record_ERR (s : State) (a : BusAddr) (w : Word) :
    (s.record a w).ERR = s.ERR := rfl
@[simp] theorem State.record_ERRCODE (s : State) (a : BusAddr) (w : Word) :
    (s.record a w).ERRCODE = s.ERRCODE := rfl
@[simp] theorem State.record_ERR_INFO (s : State) (a : BusAddr) (w : Word) :
    (s.record a w).ERR_INFO = s.ERR_INFO := rfl
@[simp] theorem State.record_LASTCMD (s : State) (a : BusAddr) (w : Word) :
    (s.record a w).LASTCMD = s.LASTCMD := rfl
@[simp] theorem State.record_inReset (s : State) (a : BusAddr) (w : Word) :
    (s.record a w).inReset = s.inReset := rfl
@[simp] theorem State.record_mustPoll (s : State) (a : BusAddr) (w : Word) :
    (s.record a w).mustPoll = s.mustPoll := rfl
@[simp] theorem State.record_heldERR (s : State) (a : BusAddr) (w : Word) :
    (s.record a w).heldERR = s.heldERR := rfl
@[simp] theorem State.record_heldERRCODE (s : State) (a : BusAddr) (w : Word) :
    (s.record a w).heldERRCODE = s.heldERRCODE := rfl
@[simp] theorem State.record_latLeft (s : State) (a : BusAddr) (w : Word) :
    (s.record a w).latLeft = s.latLeft := rfl
@[simp] theorem State.record_latDraws (s : State) (a : BusAddr) (w : Word) :
    (s.record a w).latDraws = s.latDraws := rfl
@[simp] theorem State.record_nanDraws (s : State) (a : BusAddr) (w : Word) :
    (s.record a w).nanDraws = s.nanDraws := rfl
@[simp] theorem State.record_hostq (s : State) (a : BusAddr) (w : Word) :
    (s.record a w).hostq = s.hostq := rfl
@[simp] theorem State.record_reads (s : State) (a : BusAddr) (w : Word) :
    (s.record a w).reads = (a, w) :: s.reads := rfl

/-! ### polled -/

@[simp] theorem State.polled_S (s : State) :
    (s.polled).S = s.S := rfl
@[simp] theorem State.polled_C (s : State) :
    (s.polled).C = s.C := rfl
@[simp] theorem State.polled_QB (s : State) :
    (s.polled).QB = s.QB := rfl
@[simp] theorem State.polled_ZB (s : State) :
    (s.polled).ZB = s.ZB := rfl
@[simp] theorem State.polled_QT (s : State) :
    (s.polled).QT = s.QT := rfl
@[simp] theorem State.polled_QUAL (s : State) :
    (s.polled).QUAL = s.QUAL := rfl
@[simp] theorem State.polled_SYMBUF (s : State) :
    (s.polled).SYMBUF = s.SYMBUF := rfl
@[simp] theorem State.polled_SYMCNT (s : State) :
    (s.polled).SYMCNT = s.SYMCNT := rfl
@[simp] theorem State.polled_PRED (s : State) :
    (s.polled).PRED = s.PRED := rfl
@[simp] theorem State.polled_ACC (s : State) :
    (s.polled).ACC = s.ACC := rfl
@[simp] theorem State.polled_NBITS (s : State) :
    (s.polled).NBITS = s.NBITS := rfl
@[simp] theorem State.polled_OUTQ (s : State) :
    (s.polled).OUTQ = s.OUTQ := rfl
@[simp] theorem State.polled_BUSY (s : State) :
    (s.polled).BUSY = s.BUSY := rfl
@[simp] theorem State.polled_ERR (s : State) :
    (s.polled).ERR = s.ERR := rfl
@[simp] theorem State.polled_ERRCODE (s : State) :
    (s.polled).ERRCODE = s.ERRCODE := rfl
@[simp] theorem State.polled_ERR_INFO (s : State) :
    (s.polled).ERR_INFO = s.ERR_INFO := rfl
@[simp] theorem State.polled_LASTCMD (s : State) :
    (s.polled).LASTCMD = s.LASTCMD := rfl
@[simp] theorem State.polled_inReset (s : State) :
    (s.polled).inReset = s.inReset := rfl
@[simp] theorem State.polled_mustPoll (s : State) :
    (s.polled).mustPoll = (s.mustPoll && s.BUSY) := rfl
@[simp] theorem State.polled_heldERR (s : State) :
    (s.polled).heldERR = s.heldERR := rfl
@[simp] theorem State.polled_heldERRCODE (s : State) :
    (s.polled).heldERRCODE = s.heldERRCODE := rfl
@[simp] theorem State.polled_latLeft (s : State) :
    (s.polled).latLeft = s.latLeft := rfl
@[simp] theorem State.polled_latDraws (s : State) :
    (s.polled).latDraws = s.latDraws := rfl
@[simp] theorem State.polled_nanDraws (s : State) :
    (s.polled).nanDraws = s.nanDraws := rfl
@[simp] theorem State.polled_hostq (s : State) :
    (s.polled).hostq = s.hostq := rfl
@[simp] theorem State.polled_reads (s : State) :
    (s.polled).reads = s.reads := rfl

/-! ### clearError -/

@[simp] theorem clearError_S (s : State) : (clearError s).S = s.S := rfl
@[simp] theorem clearError_C (s : State) : (clearError s).C = s.C := rfl
@[simp] theorem clearError_QB (s : State) : (clearError s).QB = s.QB := rfl
@[simp] theorem clearError_ZB (s : State) : (clearError s).ZB = s.ZB := rfl
@[simp] theorem clearError_QT (s : State) : (clearError s).QT = s.QT := rfl
@[simp] theorem clearError_QUAL (s : State) : (clearError s).QUAL = s.QUAL := rfl
@[simp] theorem clearError_SYMBUF (s : State) : (clearError s).SYMBUF = s.SYMBUF := rfl
@[simp] theorem clearError_SYMCNT (s : State) : (clearError s).SYMCNT = s.SYMCNT := rfl
@[simp] theorem clearError_PRED (s : State) : (clearError s).PRED = s.PRED := rfl
@[simp] theorem clearError_ACC (s : State) : (clearError s).ACC = s.ACC := rfl
@[simp] theorem clearError_NBITS (s : State) : (clearError s).NBITS = s.NBITS := rfl
@[simp] theorem clearError_OUTQ (s : State) : (clearError s).OUTQ = s.OUTQ := rfl
@[simp] theorem clearError_BUSY (s : State) : (clearError s).BUSY = s.BUSY := rfl
@[simp] theorem clearError_ERR (s : State) : (clearError s).ERR = false := rfl
@[simp] theorem clearError_ERRCODE (s : State) : (clearError s).ERRCODE = 0 := rfl
@[simp] theorem clearError_ERR_INFO (s : State) : (clearError s).ERR_INFO = 0 := rfl
@[simp] theorem clearError_LASTCMD (s : State) : (clearError s).LASTCMD = s.LASTCMD := rfl
@[simp] theorem clearError_inReset (s : State) : (clearError s).inReset = s.inReset := rfl
@[simp] theorem clearError_mustPoll (s : State) : (clearError s).mustPoll = s.mustPoll := rfl
@[simp] theorem clearError_heldERR (s : State) : (clearError s).heldERR = s.heldERR := rfl
@[simp] theorem clearError_heldERRCODE (s : State) : (clearError s).heldERRCODE = s.heldERRCODE := rfl
@[simp] theorem clearError_latLeft (s : State) : (clearError s).latLeft = s.latLeft := rfl
@[simp] theorem clearError_latDraws (s : State) : (clearError s).latDraws = s.latDraws := rfl
@[simp] theorem clearError_nanDraws (s : State) : (clearError s).nanDraws = s.nanDraws := rfl
@[simp] theorem clearError_hostq (s : State) : (clearError s).hostq = s.hostq := rfl
@[simp] theorem clearError_reads (s : State) : (clearError s).reads = s.reads := rfl

/-! ### softReset -/

@[simp] theorem softReset_S (s : State) : (softReset s).S = State.reset.S := rfl
@[simp] theorem softReset_C (s : State) : (softReset s).C = State.reset.C := rfl
@[simp] theorem softReset_QB (s : State) : (softReset s).QB = State.reset.QB := rfl
@[simp] theorem softReset_ZB (s : State) : (softReset s).ZB = State.reset.ZB := rfl
@[simp] theorem softReset_QT (s : State) : (softReset s).QT = State.reset.QT := rfl
@[simp] theorem softReset_QUAL (s : State) : (softReset s).QUAL = State.reset.QUAL := rfl
@[simp] theorem softReset_SYMBUF (s : State) : (softReset s).SYMBUF = State.reset.SYMBUF := rfl
@[simp] theorem softReset_SYMCNT (s : State) : (softReset s).SYMCNT = State.reset.SYMCNT := rfl
@[simp] theorem softReset_PRED (s : State) : (softReset s).PRED = State.reset.PRED := rfl
@[simp] theorem softReset_ACC (s : State) : (softReset s).ACC = State.reset.ACC := rfl
@[simp] theorem softReset_NBITS (s : State) : (softReset s).NBITS = State.reset.NBITS := rfl
@[simp] theorem softReset_OUTQ (s : State) : (softReset s).OUTQ = State.reset.OUTQ := rfl
@[simp] theorem softReset_BUSY (s : State) : (softReset s).BUSY = s.BUSY := rfl
@[simp] theorem softReset_ERR (s : State) : (softReset s).ERR = State.reset.ERR := rfl
@[simp] theorem softReset_ERRCODE (s : State) : (softReset s).ERRCODE = State.reset.ERRCODE := rfl
@[simp] theorem softReset_ERR_INFO (s : State) : (softReset s).ERR_INFO = State.reset.ERR_INFO := rfl
@[simp] theorem softReset_LASTCMD (s : State) : (softReset s).LASTCMD = s.LASTCMD := rfl
@[simp] theorem softReset_inReset (s : State) : (softReset s).inReset = s.inReset := rfl
@[simp] theorem softReset_mustPoll (s : State) : (softReset s).mustPoll = s.mustPoll := rfl
@[simp] theorem softReset_heldERR (s : State) : (softReset s).heldERR = s.heldERR := rfl
@[simp] theorem softReset_heldERRCODE (s : State) : (softReset s).heldERRCODE = s.heldERRCODE := rfl
@[simp] theorem softReset_latLeft (s : State) : (softReset s).latLeft = s.latLeft := rfl
@[simp] theorem softReset_latDraws (s : State) : (softReset s).latDraws = s.latDraws := rfl
@[simp] theorem softReset_nanDraws (s : State) : (softReset s).nanDraws = s.nanDraws := rfl
@[simp] theorem softReset_hostq (s : State) : (softReset s).hostq = s.hostq := rfl
@[simp] theorem softReset_reads (s : State) : (softReset s).reads = s.reads := rfl

/-! ### hardReset -/

@[simp] theorem hardReset_S (s : State) : (hardReset s).S = State.reset.S := rfl
@[simp] theorem hardReset_C (s : State) : (hardReset s).C = State.reset.C := rfl
@[simp] theorem hardReset_QB (s : State) : (hardReset s).QB = State.reset.QB := rfl
@[simp] theorem hardReset_ZB (s : State) : (hardReset s).ZB = State.reset.ZB := rfl
@[simp] theorem hardReset_QT (s : State) : (hardReset s).QT = State.reset.QT := rfl
@[simp] theorem hardReset_QUAL (s : State) : (hardReset s).QUAL = State.reset.QUAL := rfl
@[simp] theorem hardReset_SYMBUF (s : State) : (hardReset s).SYMBUF = State.reset.SYMBUF := rfl
@[simp] theorem hardReset_SYMCNT (s : State) : (hardReset s).SYMCNT = State.reset.SYMCNT := rfl
@[simp] theorem hardReset_PRED (s : State) : (hardReset s).PRED = State.reset.PRED := rfl
@[simp] theorem hardReset_ACC (s : State) : (hardReset s).ACC = State.reset.ACC := rfl
@[simp] theorem hardReset_NBITS (s : State) : (hardReset s).NBITS = State.reset.NBITS := rfl
@[simp] theorem hardReset_OUTQ (s : State) : (hardReset s).OUTQ = State.reset.OUTQ := rfl
@[simp] theorem hardReset_BUSY (s : State) : (hardReset s).BUSY = State.reset.BUSY := rfl
@[simp] theorem hardReset_ERR (s : State) : (hardReset s).ERR = State.reset.ERR := rfl
@[simp] theorem hardReset_ERRCODE (s : State) : (hardReset s).ERRCODE = State.reset.ERRCODE := rfl
@[simp] theorem hardReset_ERR_INFO (s : State) : (hardReset s).ERR_INFO = State.reset.ERR_INFO := rfl
@[simp] theorem hardReset_LASTCMD (s : State) : (hardReset s).LASTCMD = State.reset.LASTCMD := rfl
@[simp] theorem hardReset_inReset (s : State) : (hardReset s).inReset = State.reset.inReset := rfl
@[simp] theorem hardReset_mustPoll (s : State) : (hardReset s).mustPoll = State.reset.mustPoll := rfl
@[simp] theorem hardReset_heldERR (s : State) : (hardReset s).heldERR = State.reset.heldERR := rfl
@[simp] theorem hardReset_heldERRCODE (s : State) : (hardReset s).heldERRCODE = State.reset.heldERRCODE := rfl
@[simp] theorem hardReset_latLeft (s : State) : (hardReset s).latLeft = State.reset.latLeft := rfl
@[simp] theorem hardReset_latDraws (s : State) : (hardReset s).latDraws = s.latDraws := rfl
@[simp] theorem hardReset_nanDraws (s : State) : (hardReset s).nanDraws = s.nanDraws := rfl
@[simp] theorem hardReset_hostq (s : State) : (hardReset s).hostq = s.hostq := rfl
@[simp] theorem hardReset_reads (s : State) : (hardReset s).reads = s.reads := rfl

/-! ### accept -/

@[simp] theorem accept_S (s : State) (d : Word) : (accept d s).S = s.S := rfl
@[simp] theorem accept_C (s : State) (d : Word) : (accept d s).C = s.C := rfl
@[simp] theorem accept_QB (s : State) (d : Word) : (accept d s).QB = s.QB := rfl
@[simp] theorem accept_ZB (s : State) (d : Word) : (accept d s).ZB = s.ZB := rfl
@[simp] theorem accept_QT (s : State) (d : Word) : (accept d s).QT = s.QT := rfl
@[simp] theorem accept_QUAL (s : State) (d : Word) : (accept d s).QUAL = s.QUAL := rfl
@[simp] theorem accept_SYMBUF (s : State) (d : Word) : (accept d s).SYMBUF = s.SYMBUF := rfl
@[simp] theorem accept_SYMCNT (s : State) (d : Word) : (accept d s).SYMCNT = s.SYMCNT := rfl
@[simp] theorem accept_PRED (s : State) (d : Word) : (accept d s).PRED = s.PRED := rfl
@[simp] theorem accept_ACC (s : State) (d : Word) : (accept d s).ACC = s.ACC := rfl
@[simp] theorem accept_NBITS (s : State) (d : Word) : (accept d s).NBITS = s.NBITS := rfl
@[simp] theorem accept_OUTQ (s : State) (d : Word) : (accept d s).OUTQ = s.OUTQ := rfl
@[simp] theorem accept_BUSY (s : State) (d : Word) : (accept d s).BUSY = true := rfl
@[simp] theorem accept_ERR (s : State) (d : Word) : (accept d s).ERR = s.ERR := rfl
@[simp] theorem accept_ERRCODE (s : State) (d : Word) : (accept d s).ERRCODE = s.ERRCODE := rfl
@[simp] theorem accept_ERR_INFO (s : State) (d : Word) : (accept d s).ERR_INFO = s.ERR_INFO := rfl
@[simp] theorem accept_LASTCMD (s : State) (d : Word) : (accept d s).LASTCMD = d := rfl
@[simp] theorem accept_inReset (s : State) (d : Word) : (accept d s).inReset = s.inReset := rfl
@[simp] theorem accept_mustPoll (s : State) (d : Word) : (accept d s).mustPoll = true := rfl
@[simp] theorem accept_heldERR (s : State) (d : Word) : (accept d s).heldERR = s.ERR := rfl
@[simp] theorem accept_heldERRCODE (s : State) (d : Word) : (accept d s).heldERRCODE = s.ERRCODE := rfl
@[simp] theorem accept_latLeft (s : State) (d : Word) : (accept d s).latLeft = 1 + Config.latExtra s.latDraws := rfl
@[simp] theorem accept_latDraws (s : State) (d : Word) : (accept d s).latDraws = s.latDraws + 1 := rfl
@[simp] theorem accept_nanDraws (s : State) (d : Word) : (accept d s).nanDraws = s.nanDraws := rfl
@[simp] theorem accept_hostq (s : State) (d : Word) : (accept d s).hostq = s.hostq := rfl
@[simp] theorem accept_reads (s : State) (d : Word) : (accept d s).reads = s.reads := rfl

/-! ### errorEntry: everything but the error record is unchanged (R252) -/

@[simp] theorem errorEntry_S (e : ErrorEvent) (s : State) : (errorEntry e s).S = s.S := by
  unfold errorEntry; split <;> rfl
@[simp] theorem errorEntry_C (e : ErrorEvent) (s : State) : (errorEntry e s).C = s.C := by
  unfold errorEntry; split <;> rfl
@[simp] theorem errorEntry_QB (e : ErrorEvent) (s : State) : (errorEntry e s).QB = s.QB := by
  unfold errorEntry; split <;> rfl
@[simp] theorem errorEntry_ZB (e : ErrorEvent) (s : State) : (errorEntry e s).ZB = s.ZB := by
  unfold errorEntry; split <;> rfl
@[simp] theorem errorEntry_QT (e : ErrorEvent) (s : State) : (errorEntry e s).QT = s.QT := by
  unfold errorEntry; split <;> rfl
@[simp] theorem errorEntry_QUAL (e : ErrorEvent) (s : State) : (errorEntry e s).QUAL = s.QUAL := by
  unfold errorEntry; split <;> rfl
@[simp] theorem errorEntry_SYMBUF (e : ErrorEvent) (s : State) : (errorEntry e s).SYMBUF = s.SYMBUF := by
  unfold errorEntry; split <;> rfl
@[simp] theorem errorEntry_SYMCNT (e : ErrorEvent) (s : State) : (errorEntry e s).SYMCNT = s.SYMCNT := by
  unfold errorEntry; split <;> rfl
@[simp] theorem errorEntry_PRED (e : ErrorEvent) (s : State) : (errorEntry e s).PRED = s.PRED := by
  unfold errorEntry; split <;> rfl
@[simp] theorem errorEntry_ACC (e : ErrorEvent) (s : State) : (errorEntry e s).ACC = s.ACC := by
  unfold errorEntry; split <;> rfl
@[simp] theorem errorEntry_NBITS (e : ErrorEvent) (s : State) : (errorEntry e s).NBITS = s.NBITS := by
  unfold errorEntry; split <;> rfl
@[simp] theorem errorEntry_OUTQ (e : ErrorEvent) (s : State) : (errorEntry e s).OUTQ = s.OUTQ := by
  unfold errorEntry; split <;> rfl
@[simp] theorem errorEntry_BUSY (e : ErrorEvent) (s : State) : (errorEntry e s).BUSY = s.BUSY := by
  unfold errorEntry; split <;> rfl
@[simp] theorem errorEntry_LASTCMD (e : ErrorEvent) (s : State) : (errorEntry e s).LASTCMD = s.LASTCMD := by
  unfold errorEntry; split <;> rfl
@[simp] theorem errorEntry_inReset (e : ErrorEvent) (s : State) : (errorEntry e s).inReset = s.inReset := by
  unfold errorEntry; split <;> rfl
@[simp] theorem errorEntry_mustPoll (e : ErrorEvent) (s : State) : (errorEntry e s).mustPoll = s.mustPoll := by
  unfold errorEntry; split <;> rfl
@[simp] theorem errorEntry_heldERR (e : ErrorEvent) (s : State) : (errorEntry e s).heldERR = s.heldERR := by
  unfold errorEntry; split <;> rfl
@[simp] theorem errorEntry_heldERRCODE (e : ErrorEvent) (s : State) : (errorEntry e s).heldERRCODE = s.heldERRCODE := by
  unfold errorEntry; split <;> rfl
@[simp] theorem errorEntry_latLeft (e : ErrorEvent) (s : State) : (errorEntry e s).latLeft = s.latLeft := by
  unfold errorEntry; split <;> rfl
@[simp] theorem errorEntry_latDraws (e : ErrorEvent) (s : State) : (errorEntry e s).latDraws = s.latDraws := by
  unfold errorEntry; split <;> rfl
@[simp] theorem errorEntry_nanDraws (e : ErrorEvent) (s : State) : (errorEntry e s).nanDraws = s.nanDraws := by
  unfold errorEntry; split <;> rfl
@[simp] theorem errorEntry_hostq (e : ErrorEvent) (s : State) : (errorEntry e s).hostq = s.hostq := by
  unfold errorEntry; split <;> rfl
@[simp] theorem errorEntry_reads (e : ErrorEvent) (s : State) : (errorEntry e s).reads = s.reads := by
  unfold errorEntry; split <;> rfl

/-! ### tick: only `BUSY` and the cycles left change (R296) -/

@[simp] theorem State.tick_S (s : State) : s.tick.S = s.S := by
  unfold State.tick; split <;> rfl
@[simp] theorem State.tick_C (s : State) : s.tick.C = s.C := by
  unfold State.tick; split <;> rfl
@[simp] theorem State.tick_QB (s : State) : s.tick.QB = s.QB := by
  unfold State.tick; split <;> rfl
@[simp] theorem State.tick_ZB (s : State) : s.tick.ZB = s.ZB := by
  unfold State.tick; split <;> rfl
@[simp] theorem State.tick_QT (s : State) : s.tick.QT = s.QT := by
  unfold State.tick; split <;> rfl
@[simp] theorem State.tick_QUAL (s : State) : s.tick.QUAL = s.QUAL := by
  unfold State.tick; split <;> rfl
@[simp] theorem State.tick_SYMBUF (s : State) : s.tick.SYMBUF = s.SYMBUF := by
  unfold State.tick; split <;> rfl
@[simp] theorem State.tick_SYMCNT (s : State) : s.tick.SYMCNT = s.SYMCNT := by
  unfold State.tick; split <;> rfl
@[simp] theorem State.tick_PRED (s : State) : s.tick.PRED = s.PRED := by
  unfold State.tick; split <;> rfl
@[simp] theorem State.tick_ACC (s : State) : s.tick.ACC = s.ACC := by
  unfold State.tick; split <;> rfl
@[simp] theorem State.tick_NBITS (s : State) : s.tick.NBITS = s.NBITS := by
  unfold State.tick; split <;> rfl
@[simp] theorem State.tick_OUTQ (s : State) : s.tick.OUTQ = s.OUTQ := by
  unfold State.tick; split <;> rfl
@[simp] theorem State.tick_ERR (s : State) : s.tick.ERR = s.ERR := by
  unfold State.tick; split <;> rfl
@[simp] theorem State.tick_ERRCODE (s : State) : s.tick.ERRCODE = s.ERRCODE := by
  unfold State.tick; split <;> rfl
@[simp] theorem State.tick_ERR_INFO (s : State) : s.tick.ERR_INFO = s.ERR_INFO := by
  unfold State.tick; split <;> rfl
@[simp] theorem State.tick_LASTCMD (s : State) : s.tick.LASTCMD = s.LASTCMD := by
  unfold State.tick; split <;> rfl
@[simp] theorem State.tick_inReset (s : State) : s.tick.inReset = s.inReset := by
  unfold State.tick; split <;> rfl
@[simp] theorem State.tick_mustPoll (s : State) : s.tick.mustPoll = s.mustPoll := by
  unfold State.tick; split <;> rfl
@[simp] theorem State.tick_heldERR (s : State) : s.tick.heldERR = s.heldERR := by
  unfold State.tick; split <;> rfl
@[simp] theorem State.tick_heldERRCODE (s : State) : s.tick.heldERRCODE = s.heldERRCODE := by
  unfold State.tick; split <;> rfl
@[simp] theorem State.tick_latDraws (s : State) : s.tick.latDraws = s.latDraws := by
  unfold State.tick; split <;> rfl
@[simp] theorem State.tick_nanDraws (s : State) : s.tick.nanDraws = s.nanDraws := by
  unfold State.tick; split <;> rfl
@[simp] theorem State.tick_hostq (s : State) : s.tick.hostq = s.hostq := by
  unfold State.tick; split <;> rfl
@[simp] theorem State.tick_reads (s : State) : s.tick.reads = s.reads := by
  unfold State.tick; split <;> rfl

end Sys2Proof.Machine
end

