-- ==== Sys2Proof/Laws/Writer.lean ====
section
/-! SUPPORT. Laws/Writer.lean: the bit-writer's `pack` (R211) and the stuffing of the stream (R210, R218). -/

namespace Sys2Proof.Machine

/-! ### Bits of an item -/

@[simp] theorem itemBits_zero (v : Nat) : itemBits ⟨0, v⟩ = [] := rfl

@[simp] theorem length_itemBits (it : CodeItem) : (itemBits it).length = it.len := by simp [itemBits]

/-- The last bit of an item is its least significant one. -/
theorem itemBits_succ (n a : Nat) (b : Bool) :
    itemBits ⟨n + 1, 2 * a + bitOf b⟩ = itemBits ⟨n, a⟩ ++ [b] := by
  have h0 : (2 * a + bitOf b).testBit 0 = b := by
    cases b <;> simp [bitOf, Nat.testBit_zero]
  have hs : ∀ j, (2 * a + bitOf b).testBit (j + 1) = a.testBit j := by
    intro j
    rw [Nat.testBit_succ]
    congr 1
    cases b <;> simp [bitOf]
    omega
  simp [itemBits, List.range_succ_eq_map, h0, hs, Function.comp_def]

/-! ### Stuffing -/

@[simp] theorem stuffed_emit_append (b : Byte) (l : List Byte) : stuffed (emit b ++ l) = stuffed l := by
  unfold emit
  split
  · simp [stuffed]
  · rename_i h
    have h' : ¬ b = 255#8 := h
    simp [stuffed, h']

@[simp] theorem unstuff_emit_append (b : Byte) (l : List Byte) : unstuff (emit b ++ l) = b :: unstuff l := by
  unfold emit
  split
  · rename_i h; subst h; simp [unstuff]
  · rename_i h
    have h' : ¬ b = 255#8 := h
    cases l <;> simp [unstuff, h']

/-- A stuffed sequence after a stuffed sequence is stuffed. -/
theorem stuffed_append {l m : List Byte} (hl : stuffed l = true) (hm : stuffed m = true) : stuffed (l ++ m) = true := by
  induction l with
  | nil => simpa using hm
  | cons b bs ih =>
    simp only [stuffed, Bool.and_eq_true, Bool.or_eq_true] at hl
    simp only [List.cons_append, stuffed, Bool.and_eq_true, Bool.or_eq_true]
    refine ⟨?_, ih hl.2⟩
    rcases hl.1 with h | h
    · exact Or.inl h
    · cases bs with
      | nil => simp at h
      | cons c cs => exact Or.inr (by simpa using h)

/-- Draining keeps the rest stuffed. -/
theorem stuffed_tail {l : List Byte} (h : stuffed l = true) : stuffed l.tail = true := by
  cases l with
  | nil => rfl
  | cons b bs => simp only [stuffed, Bool.and_eq_true] at h; exact h.2

/-- Removing the stuffing of two stuffed sequences one after the other. -/
theorem unstuff_append {l : List Byte} (hl : stuffed l = true) (m : List Byte) :
    unstuff (l ++ m) = unstuff l ++ unstuff m := by
  induction l using unstuff.induct with
  | case1 => simp [unstuff]
  | case2 b =>
    have hb : ¬ b = 255#8 := by
      rintro rfl
      simp [stuffed] at hl
    cases m <;> simp [unstuff, hb]
  | case3 c rest ih =>
    simp only [stuffed, Bool.and_eq_true] at hl
    simp [unstuff, ih hl.2.2]
  | case4 b c rest hb ih =>
    have h2 : stuffed (c :: rest) = true := by
      simp only [stuffed, Bool.and_eq_true] at hl ⊢
      exact hl.2
    have hb' : ¬ b = 255#8 := hb
    have h3 : unstuff (c :: (rest ++ m)) = unstuff (c :: rest) ++ unstuff m := ih h2
    simp [unstuff, hb', h3]

/-! ### pack -/

/-- One bit more, when the byte is not complete. -/
theorem packBits_cons_lt {a nb : Nat} (b : Bool) (bs : List Bool) (h : nb ≠ 7) :
    packBits a nb (b :: bs) = packBits (2 * a + bitOf b) (nb + 1) bs := by
  have : ¬ nb + 1 = 8 := by omega
  simp [packBits, this]

/-- One bit more, when it completes a byte (R211). -/
theorem packBits_cons_seven (a : Nat) (b : Bool) (bs : List Bool) :
    packBits a 7 (b :: bs) =
      { packBits 0 0 bs with bytes := emit (BitVec.ofNat 8 (2 * a + bitOf b)) ++ (packBits 0 0 bs).bytes } := by
  simp [packBits]

/-- After `pack` fewer than 8 bits are pending (R211). -/
theorem packBits_pending {a nb : Nat} (hnb : nb ≤ 7) (ha : a < 2 ^ nb) (bs : List Bool) :
    (packBits a nb bs).nbits ≤ 7 ∧ (packBits a nb bs).acc < 2 ^ (packBits a nb bs).nbits := by
  induction bs generalizing a nb with
  | nil => exact ⟨hnb, ha⟩
  | cons b bs ih =>
    by_cases h : nb = 7
    · subst h
      rw [packBits_cons_seven]
      exact ih (a := 0) (nb := 0) (by omega) (by omega)
    · rw [packBits_cons_lt b bs h]
      refine ih (by omega) ?_
      have : bitOf b ≤ 1 := by cases b <;> simp [bitOf]
      rw [Nat.pow_succ]; omega

/-- Every emitted 0xFF is followed by its 0x00 (R210, R218). -/
theorem packBits_stuffed (a nb : Nat) (bs : List Bool) : stuffed (packBits a nb bs).bytes = true := by
  induction bs generalizing a nb with
  | nil => rfl
  | cons b bs ih =>
    by_cases h : nb = 7
    · subst h; rw [packBits_cons_seven]; simp [ih]
    · rw [packBits_cons_lt b bs h]; exact ih _ _

/-- The bits written are the data bits of the bytes emitted and the pending bits, in order (R218). -/
theorem packBits_bits {a nb : Nat} (hnb : nb ≤ 7) (ha : a < 2 ^ nb) (bs : List Bool) :
    bitsMsb nb a ++ bs =
      bitsOfBytes (unstuff (packBits a nb bs).bytes) ++ bitsMsb (packBits a nb bs).nbits (packBits a nb bs).acc := by
  induction bs generalizing a nb with
  | nil => simp [packBits, bitsOfBytes, unstuff]
  | cons b bs ih =>
    have hb : bitOf b ≤ 1 := by cases b <;> simp [bitOf]
    have hcons : bitsMsb nb a ++ b :: bs = bitsMsb (nb + 1) (2 * a + bitOf b) ++ bs := by
      simp [bitsMsb, itemBits_succ]
    rw [hcons]
    by_cases h : nb = 7
    · subst h
      rw [packBits_cons_seven]
      have hlt : 2 * a + bitOf b < 256 := by omega
      have ih0 := ih (a := 0) (nb := 0) (by omega) (by omega)
      simp only [bitsMsb, itemBits_zero, List.nil_append] at ih0
      simp only [unstuff_emit_append, bitsOfBytes, List.flatMap_cons, bitsMsb, BitVec.toNat_ofNat, List.append_assoc] at ih0 ⊢
      rw [Nat.mod_eq_of_lt hlt, ← ih0]
    · rw [packBits_cons_lt b bs h]
      exact ih (by omega) (by rw [Nat.pow_succ]; omega)

theorem length_emit_le (b : Byte) : (emit b).length ≤ 2 := by
  unfold emit; split <;> simp

/-- At most two bytes for each eight bits (R200). -/
theorem packBits_length {a nb : Nat} (hnb : nb ≤ 7) (bs : List Bool) :
    (packBits a nb bs).bytes.length ≤ 2 * ((nb + bs.length) / 8) := by
  induction bs generalizing a nb with
  | nil => simp [packBits]
  | cons b bs ih =>
    by_cases h : nb = 7
    · subst h
      rw [packBits_cons_seven]
      have := ih (a := 0) (nb := 0) (by omega)
      have := length_emit_le (BitVec.ofNat 8 (2 * a + bitOf b))
      simp only [List.length_append, List.length_cons] at *
      omega
    · rw [packBits_cons_lt b bs h]
      have := ih (a := 2 * a + bitOf b) (nb := nb + 1) (by omega)
      simp only [List.length_cons]
      omega

/-- Packing two bit lists in turn is packing their concatenation (R219). -/
theorem packBits_append (a nb : Nat) (xs ys : List Bool) :
    packBits a nb (xs ++ ys) =
      { packBits (packBits a nb xs).acc (packBits a nb xs).nbits ys with
        bytes := (packBits a nb xs).bytes ++ (packBits (packBits a nb xs).acc (packBits a nb xs).nbits ys).bytes } := by
  induction xs generalizing a nb with
  | nil => simp [packBits]
  | cons b xs ih =>
    by_cases h : nb = 7
    · subst h
      rw [List.cons_append, packBits_cons_seven, packBits_cons_seven, ih]
      simp
    · rw [List.cons_append, packBits_cons_lt b _ h, packBits_cons_lt b _ h, ih]

/-- After `pack` fewer than 8 bits are pending (R211), for the bit-writer of a state. -/
theorem pack_pending {s : State} (h : s.ACC.toNat < 2 ^ s.NBITS.toNat) (items : List CodeItem) :
    (pack s.ACC.toNat s.NBITS.toNat items).nbits ≤ 7 ∧
      (pack s.ACC.toNat s.NBITS.toNat items).acc < 2 ^ (pack s.ACC.toNat s.NBITS.toNat items).nbits :=
  packBits_pending (by have := s.NBITS.isLt; omega) h _

/-- The bits that `pack` adds to the stream of a state (R218). -/
theorem pack_bits {s : State} (h : s.ACC.toNat < 2 ^ s.NBITS.toNat) (items : List CodeItem) :
    bitsMsb s.NBITS.toNat s.ACC.toNat ++ items.flatMap itemBits =
      bitsOfBytes (unstuff (pack s.ACC.toNat s.NBITS.toNat items).bytes) ++
        bitsMsb (pack s.ACC.toNat s.NBITS.toNat items).nbits (pack s.ACC.toNat s.NBITS.toNat items).acc :=
  packBits_bits (by have := s.NBITS.isLt; omega) h _

/-! ### appendItems -/

/-- All that `appendItems` can do (R216): everything is appended and fits, or `E_OUT_FULL` with the number of bytes. -/
theorem appendItems_cases (items : List CodeItem) (s : State) :
    (s.OUTQ.length + (pack s.ACC.toNat s.NBITS.toNat items).bytes.length ≤ Config.outCap ∧
      appendItems items s = .ok (s.setWriter (pack s.ACC.toNat s.NBITS.toNat items).acc
        (pack s.ACC.toNat s.NBITS.toNat items).nbits (s.OUTQ ++ (pack s.ACC.toNat s.NBITS.toNat items).bytes))) ∨
    (Config.outCap < s.OUTQ.length + (pack s.ACC.toNat s.NBITS.toNat items).bytes.length ∧
      appendItems items s = .error (.outFull (pack s.ACC.toNat s.NBITS.toNat items).bytes.length)) := by
  unfold appendItems
  by_cases h : s.OUTQ.length + (pack s.ACC.toNat s.NBITS.toNat items).bytes.length > Config.outCap
  · right; exact ⟨h, by simp [h]⟩
  · left; exact ⟨by omega, by simp [h]⟩

theorem nbits_le_seven (s : State) : s.NBITS.toNat ≤ 7 := by have := s.NBITS.isLt; omega

end Sys2Proof.Machine
end

