-- ==== Sys2Proof/Laws/Ops.lean ====
section
/-! SUPPORT. Laws/Ops.lean: one lemma for each shared operation of Machine/Ops.lean, saying all that it can do. -/

namespace Sys2Proof.Machine

/-! ### Errors -/

/-- The record of an error holds the opcode and the detail at their places, and zeros elsewhere (R34). -/
theorem errInfoWord_eq (detail : Nat) (d : Word) :
    errInfoWord detail d = BitVec.ofNat 64 (detail % 2 ^ 16 * 2 ^ 16) ||| d &&& 0xFF := by
  apply BitVec.eq_of_toNat_eq
  have h1 : (d &&& 0xFF).toNat = d.toNat % 2 ^ 8 := by
    rw [BitVec.toNat_and]
    exact Nat.and_two_pow_sub_one_eq_mod d.toNat 8
  have h2 : d.toNat % 2 ^ 8 < 2 ^ 16 := by omega
  have h3 := Nat.two_pow_add_eq_or_of_lt h2 (detail % 2 ^ 16)
  rw [BitVec.toNat_or, h1, BitVec.toNat_ofNat, Nat.mod_eq_of_lt (by omega), errInfoWord, BitVec.toNat_ofNat,
    Nat.mod_eq_of_lt (by omega), ← Nat.mul_comm (2 ^ 16), h3]

/-- The error entry on a state with no error recorded (R252). -/
theorem errorEntry_of_no_error {s : State} (h : s.ERR = false) (e : ErrorEvent) :
    errorEntry e s = { s with ERR := true, ERRCODE := e.code, ERR_INFO := errInfoWord e.detail s.LASTCMD } := by
  simp [errorEntry, h]

/-- The first error is kept (R252). -/
theorem errorEntry_of_error {s : State} (h : s.ERR = true) (e : ErrorEvent) : errorEntry e s = s := by
  simp [errorEntry, h]

@[simp] theorem conclude_ok (s t : State) : conclude s (.ok t) = .next t := rfl

@[simp] theorem conclude_error (s : State) (e : ErrorEvent) : conclude s (.error e) = .next (errorEntry e s) := rfl

/-- All that `conclude` can do (R15): the commit, or the error entry on the state before the command. -/
theorem conclude_cases {s t : State} {r : Except ErrorEvent State} (h : conclude s r = .next t) :
    r = .ok t ∨ ∃ e, r = .error e ∧ t = errorEntry e s := by
  cases r with
  | ok u => left; simp only [conclude_ok, Host.Outcome.next.injEq] at h; rw [h]
  | error e => right; simp only [conclude_error, Host.Outcome.next.injEq] at h; exact ⟨e, rfl, h.symm⟩

/-- A command never stops the core (R252). -/
theorem conclude_next (s : State) (r : Except ErrorEvent State) : ∃ t, conclude s r = .next t := by
  cases r <;> exact ⟨_, rfl⟩

/-! ### Buffers -/

theorem getElem_overlay_lt (buf : Block Word) (l : List Word) (i : Fin 64) (h : i.val < l.length) :
    (overlay buf l)[i] = l[i.val] := by
  simp [overlay, List.getD, List.getElem?_eq_getElem h]

theorem getElem_overlay_ge (buf : Block Word) (l : List Word) (i : Fin 64) (h : l.length ≤ i.val) :
    (overlay buf l)[i] = buf[i] := by
  simp [overlay, List.getD, List.getElem?_eq_none h]

/-- The words of a list no longer than the buffer are read back in its first places (R174). -/
theorem take_overlay (buf : Block Word) (l : List Word) (h : l.length ≤ 64) :
    (overlay buf l).toList.take l.length = l := by
  apply List.ext_getElem
  · simp; omega
  · intro i h1 h2
    have := getElem_overlay_lt buf l ⟨i, by omega⟩ h2
    simpa using this

/-! ### The bit-writer -/

/-- `setWriter` at values that fit its registers. -/
theorem setWriter_fits (s : State) {a nb : Nat} (q : List Byte) (hnb : nb ≤ 7) (ha : a < 2 ^ nb) :
    (s.setWriter a nb q).ACC.toNat = a ∧ (s.setWriter a nb q).NBITS.toNat = nb := by
  have : (2 : Nat) ^ nb ≤ 2 ^ 7 := Nat.pow_le_pow_right (by omega) hnb
  simp only [State.setWriter, BitVec.toNat_ofNat]
  omega

/-- Writing back what the bit-writer holds changes nothing. -/
theorem setWriter_self (s : State) : s.setWriter s.ACC.toNat s.NBITS.toNat s.OUTQ = s := by
  simp [State.setWriter]

/-- The two commits of ENCBLK commute (R198). -/
theorem setSymbols_setWriter (s : State) (a nb : Nat) (q : List Byte) (l : List Word) (c : Component) (p : Half) :
    (s.setWriter a nb q).setSymbols l c p = (s.setSymbols l c p).setWriter a nb q := rfl

end Sys2Proof.Machine
end

