-- ==== Sys2Proof/Laws/Bus.lean ====
section
/-! SUPPORT. Laws/Bus.lean: the register space (R61): which address names what, one address for each target, what a read and a write do to the
rest of the state. -/

namespace Sys2Proof.Machine

/-- The address of a target; a reserved target has many, so it is given one of them (R61). -/
def addrOf : Target → BusAddr
  | .s k => BitVec.ofNat 10 k.val
  | .sPix k => BitVec.ofNat 10 (0x040 + k.val)
  | .c k => BitVec.ofNat 10 (0x080 + k.val)
  | .qb k => BitVec.ofNat 10 (0x0C0 + k.val)
  | .zb k => BitVec.ofNat 10 (0x100 + k.val)
  | .qt .luma k => BitVec.ofNat 10 (0x140 + k.val)
  | .qt .chroma k => BitVec.ofNat 10 (0x180 + k.val)
  | .symbuf k => BitVec.ofNat 10 (0x1C0 + k.val)
  | .cmd => 0x200
  | .status => 0x201
  | .errInfo => 0x202
  | .symcnt => 0x203
  | .pred .y => 0x204
  | .pred .cb => 0x205
  | .pred .cr => 0x206
  | .bwState => 0x207
  | .outCount => 0x208
  | .outData => 0x209
  | .qual .luma => 0x20A
  | .qual .chroma => 0x20B
  | .outCapReg => 0x20C
  | .ident => 0x20D
  | .reserved => 0x20E

theorem addrOf_targetOf_nat : ∀ n < 1024, targetOf (BitVec.ofNat 10 n) ≠ .reserved →
    addrOf (targetOf (BitVec.ofNat 10 n)) = BitVec.ofNat 10 n := by
  decide +kernel

/-- An address that is not reserved is determined by what it names (R61). -/
theorem addrOf_targetOf (a : BusAddr) (h : targetOf a ≠ .reserved) : addrOf (targetOf a) = a := by
  have := addrOf_targetOf_nat a.toNat a.isLt
  rw [BitVec.ofNat_toNat, BitVec.setWidth_eq] at this
  exact this h

/-- Two addresses that name one thing are one address, or reserved (R61). -/
theorem targetOf_inj {a b : BusAddr} (h : targetOf a = targetOf b) (hr : targetOf a ≠ .reserved) : a = b := by
  rw [← addrOf_targetOf a hr, h, addrOf_targetOf b (h ▸ hr)]

/-! ### The windows (R61) -/

@[simp] theorem targetOf_s (k : Fin 64) : targetOf (BitVec.ofNat 10 k.val) = .s k := by revert k; decide

@[simp] theorem targetOf_sPix (k : Fin 64) : targetOf (BitVec.ofNat 10 (64 + k.val)) = .sPix k := by revert k; decide

@[simp] theorem targetOf_c (k : Fin 64) : targetOf (BitVec.ofNat 10 (128 + k.val)) = .c k := by revert k; decide

@[simp] theorem targetOf_qb (k : Fin 64) : targetOf (BitVec.ofNat 10 (192 + k.val)) = .qb k := by revert k; decide

@[simp] theorem targetOf_zb (k : Fin 64) : targetOf (BitVec.ofNat 10 (256 + k.val)) = .zb k := by revert k; decide

@[simp] theorem targetOf_qtLuma (k : Fin 64) : targetOf (BitVec.ofNat 10 (320 + k.val)) = .qt .luma k := by
  revert k; decide

@[simp] theorem targetOf_qtChroma (k : Fin 64) : targetOf (BitVec.ofNat 10 (384 + k.val)) = .qt .chroma k := by
  revert k; decide

@[simp] theorem targetOf_symbuf (k : Fin 64) : targetOf (BitVec.ofNat 10 (448 + k.val)) = .symbuf k := by
  revert k; decide

/-! ### What a read and a write leave alone -/

/-- Only a read of `OUT_DATA` does anything (R78). -/
theorem afterRead_of_ne {a : BusAddr} (s : State) (h : targetOf a ≠ .outData) : afterRead a s = s := by
  unfold afterRead
  split
  · contradiction
  · rfl

/-- A read changes the output queue at most (R76). -/
theorem afterRead_eq (a : BusAddr) (s : State) : ∃ q, afterRead a s = { s with OUTQ := q } ∧ (q = s.OUTQ ∨ q = s.OUTQ.tail) := by
  unfold afterRead
  split
  · exact ⟨_, rfl, .inr rfl⟩
  · exact ⟨_, rfl, .inl rfl⟩

/-- A write of any address but `CMD` changes the block buffers, `SYMBUF` and `SYMCNT` at most, and keeps `SYMCNT` legal (R73, R78). -/
theorem poke_eq (a : BusAddr) (d : Word) (s : State) :
    ∃ vS vC vQB vZB vSY vN, poke a d s = { s with S := vS, C := vC, QB := vQB, ZB := vZB, SYMBUF := vSY, SYMCNT := vN } ∧
      (s.SYMCNT.toNat ≤ 64 → vN.toNat ≤ 64) := by
  unfold poke
  split
  case h_7 =>
    refine ⟨_, _, _, _, _, _, rfl, fun _ => ?_⟩
    rw [BitVec.toNat_ofNat]; omega
  all_goals exact ⟨_, _, _, _, _, _, rfl, id⟩

/-- The fields that a read of a target depends on are the same in two states. -/
def Target.ReadsSame (s t : State) : Target → Prop
  | .s _ => t.S = s.S
  | .c _ => t.C = s.C
  | .qb _ => t.QB = s.QB
  | .zb _ => t.ZB = s.ZB
  | .qt u _ => t.qtOf u = s.qtOf u
  | .symbuf _ => t.SYMBUF = s.SYMBUF
  | .cmd => t.LASTCMD = s.LASTCMD
  | .status =>
    t.BUSY = s.BUSY ∧ t.ERR = s.ERR ∧ t.ERRCODE = s.ERRCODE ∧ t.heldERR = s.heldERR ∧ t.heldERRCODE = s.heldERRCODE
  | .errInfo => t.ERR_INFO = s.ERR_INFO
  | .symcnt => t.SYMCNT = s.SYMCNT
  | .pred u => t.predOf u = s.predOf u
  | .bwState => t.ACC = s.ACC ∧ t.NBITS = s.NBITS
  | .outCount | .outData => t.OUTQ = s.OUTQ
  | .qual u => t.qualOf u = s.qualOf u
  | .sPix _ | .outCapReg | .ident | .reserved => True

/-- A read depends on the fields of its target alone (R64 to R77). -/
theorem peek_congr {a : BusAddr} {s t : State} (h : (targetOf a).ReadsSame s t) : peek a t = peek a s := by
  unfold peek
  cases hx : targetOf a <;> rw [hx] at h <;> simp only [Target.ReadsSame] at h <;>
    simp only [State.statusWord, State.bwStateWord, h]

end Sys2Proof.Machine
end

