-- ==== Sys2Proof/Laws/Exec.lean ====
section
/-! SUPPORT. Laws/Exec.lean: all that each command can do, so that no proof unfolds a meaning: an error entry with its own codes, or its commit. -/

namespace Sys2Proof.Machine

/-! ### QTBUILD, QUANT -/

theorem execQtbuild_ok (t : TableClass) {q : BitVec 7} (s : State) (h : 1 ≤ q.toNat ∧ q.toNat ≤ 100) :
    execQtbuild t q s = .next (s.setTable t (builtTable t q.toNat) q) := by
  have : ¬(q.toNat < 1 ∨ q.toNat > 100) := by omega
  simp only [execQtbuild, this, if_false, conclude_ok]

theorem execQtbuild_error (t : TableClass) {q : BitVec 7} (s : State) (h : ¬(1 ≤ q.toNat ∧ q.toNat ≤ 100)) :
    execQtbuild t q s = .next (errorEntry (.quality q.toNat) s) := by
  have : q.toNat < 1 ∨ q.toNat > 100 := by omega
  simp only [execQtbuild, this, if_true, conclude_error]

/-- A quotient is in range exactly when it rounds to an int16 (R144). -/
theorem quantOne_eq_some {c : Word} {d : Byte} {h : Half} :
    quantOne c d = some h ↔ ∃ r, rha (fdiv (f64Unpack c) (i2f d.toNat)) = some r ∧ -32768 ≤ r ∧ r ≤ 32767 ∧ h.toInt = r := by
  unfold quantOne
  split
  · rename_i hr; simp [hr]
  · rename_i r hr
    by_cases hb : r < -32768 ∨ r > 32767
    · simp only [hb, if_true, hr, Option.some.injEq, reduceCtorEq, false_iff]
      rintro ⟨_, rfl, h1, h2, _⟩
      omega
    · simp only [hb, if_false, Option.some.injEq, hr]
      have hi : (BitVec.ofInt 16 r).toInt = r := by
        rw [BitVec.toInt_ofInt]
        exact Int.bmod_eq_of_le (by omega) (by omega)
      constructor
      · rintro rfl; exact ⟨r, rfl, by omega, by omega, hi⟩
      · rintro ⟨_, rfl, _, _, h3⟩
        exact BitVec.eq_of_toInt_eq (hi.trans h3.symm)

theorem execQuant_ok (t : TableClass) {s : State} (h : ∀ k : Fin 64, (quantOne s.C[k] (s.qtOf t)[k]).isSome) :
    execQuant t s = .next (s.setQB (tabulate fun k => (quantOne s.C[k] (s.qtOf t)[k]).getD 0)) := by
  have hn : firstBad (quotients s.C (s.qtOf t)) = none := firstBad_eq_none.mpr (by simpa using h)
  simp [execQuant, hn]

theorem execQuant_error (t : TableClass) {s : State} {k : Fin 64} (hk : quantOne s.C[k] (s.qtOf t)[k] = none)
    (h : ∀ j : Fin 64, j < k → quantOne s.C[j] (s.qtOf t)[j] ≠ none) :
    execQuant t s = .next (errorEntry (.range k.val) s) := by
  have hn : firstBad (quotients s.C (s.qtOf t)) = some k := firstBad_eq_some.mpr ⟨by simpa using hk, by simpa using h⟩
  simp [execQuant, hn]

/-- All that QUANT can do. -/
theorem execQuant_cases {c : TableClass} {s t : State} (h : execQuant c s = .next t) :
    (∃ k : Fin 64, t = errorEntry (.range k.val) s) ∨ ∃ b, t = s.setQB b := by
  unfold execQuant at h
  cases hb : firstBad (quotients s.C (s.qtOf c)) with
  | some k => simp only [hb, conclude_error, Host.Outcome.next.injEq] at h; exact .inl ⟨k, h.symm⟩
  | none => simp only [hb, conclude_ok, Host.Outcome.next.injEq] at h; exact .inr ⟨_, h.symm⟩

/-! ### HUFF, ENCBLK -/

/-- `code` fails only with `E_CATEGORY` at an index it reached (R195). -/
theorem codeFrom_error {t : TableClass} {i : Nat} {l : List Word} {e : ErrorEvent} (h : codeFrom t i l = .error e) :
    ∃ j, e = .category (i + j) ∧ ∃ w, l[j]? = some w ∧ codeSymbol t w = none ∧
      ∀ w' ∈ l.take j, (codeSymbol t w').isSome := by
  induction l generalizing i with
  | nil => simp [codeFrom] at h
  | cons w ws ih =>
    unfold codeFrom at h
    split at h
    · rename_i hw
      simp only [Except.error.injEq] at h
      exact ⟨0, by rw [← h]; rfl, w, rfl, hw, by simp⟩
    · rename_i items hw
      cases hr : codeFrom t (i + 1) ws with
      | ok r => simp [hr, Except.map] at h
      | error e' =>
        simp only [hr, Except.map, Except.error.injEq] at h
        obtain ⟨j, rfl, w', hj, hnone, hpre⟩ := ih (h ▸ hr)
        refine ⟨j + 1, by rw [Nat.add_assoc, Nat.add_comm 1 j], w', by simpa using hj, hnone, ?_⟩
        simpa [hw] using hpre

/-- `code` succeeds exactly when every word has a code, and then the bits are those of the words in turn (R195). -/
theorem codeFrom_ok {t : TableClass} {i : Nat} {l : List Word} (h : ∀ w ∈ l, (codeSymbol t w).isSome) :
    codeFrom t i l = .ok (l.flatMap fun w => (codeSymbol t w).getD []) := by
  induction l generalizing i with
  | nil => rfl
  | cons w ws ih =>
    obtain ⟨items, hw⟩ := Option.isSome_iff_exists.mp (h w (by simp))
    have := ih (i := i + 1) fun w' hw' => h w' (by simp [hw'])
    simp [codeFrom, hw, this, Except.map]

/-- All that HUFF can do. -/
theorem execHuff_cases {c : TableClass} {s t : State} (h : execHuff c s = .next t) :
    (∃ j, codeFrom c 0 s.symbols = .error (.category j) ∧ t = errorEntry (.category j) s) ∨
    ∃ items, codeFrom c 0 s.symbols = .ok items ∧ conclude s (appendItems items s) = .next t := by
  unfold execHuff at h
  cases hc : codeFrom c 0 s.symbols with
  | error e =>
    obtain ⟨j, rfl, _⟩ := codeFrom_error hc
    simp only [hc, Except.bind, conclude_error, Host.Outcome.next.injEq] at h
    exact .inl ⟨_, rfl, h.symm⟩
  | ok items => rw [hc] at h; exact .inr ⟨items, rfl, h⟩

/-- All that an append can do (R216). -/
theorem conclude_append_cases {items : List CodeItem} {s t : State} (h : conclude s (appendItems items s) = .next t) :
    (s.OUTQ.length + (pack s.ACC.toNat s.NBITS.toNat items).bytes.length ≤ Config.outCap ∧
      t = s.setWriter (pack s.ACC.toNat s.NBITS.toNat items).acc (pack s.ACC.toNat s.NBITS.toNat items).nbits
        (s.OUTQ ++ (pack s.ACC.toNat s.NBITS.toNat items).bytes)) ∨
    (Config.outCap < s.OUTQ.length + (pack s.ACC.toNat s.NBITS.toNat items).bytes.length ∧
      t = errorEntry (.outFull (pack s.ACC.toNat s.NBITS.toNat items).bytes.length) s) := by
  rcases appendItems_cases items s with ⟨hl, ha⟩ | ⟨hl, ha⟩
  · rw [ha, conclude_ok, Host.Outcome.next.injEq] at h; exact .inl ⟨hl, h.symm⟩
  · rw [ha, conclude_error, Host.Outcome.next.injEq] at h; exact .inr ⟨hl, h.symm⟩

/-- ENCBLK with its one name written out (R198). -/
theorem execEncblk_eq (c : Component) (t : TableClass) (s : State) :
    execEncblk c t s = conclude s
      (((codeFrom t 0 (symbolize s.ZB (s.predOf c))).bind fun items => appendItems items s).map fun s' =>
        s'.setSymbols (symbolize s.ZB (s.predOf c)) c s.ZB[0]) := rfl

/-- All that ENCBLK can do. -/
theorem execEncblk_cases {c : Component} {k : TableClass} {s t : State} (h : execEncblk c k s = .next t) :
    (∃ j, codeFrom k 0 (symbolize s.ZB (s.predOf c)) = .error (.category j) ∧ t = errorEntry (.category j) s) ∨
    ∃ items, codeFrom k 0 (symbolize s.ZB (s.predOf c)) = .ok items ∧
      ((∃ u, appendItems items s = .ok u ∧ t = u.setSymbols (symbolize s.ZB (s.predOf c)) c s.ZB[0]) ∨
        ∃ e, appendItems items s = .error e ∧ t = errorEntry e s) := by
  rcases conclude_cases h with h | ⟨e, h2, h3⟩
  on_goal 2 => replace h := h2; subst h3
  · cases hc : codeFrom k 0 (symbolize s.ZB (s.predOf c)) with
    | error e => rw [hc] at h; cases h
    | ok items =>
      rw [hc] at h
      refine .inr ⟨items, rfl, .inl ?_⟩
      cases ha : appendItems items s with
      | error e => rw [Except.bind, ha] at h; cases h
      | ok u => rw [Except.bind, ha] at h; exact ⟨u, rfl, (Except.ok.inj h).symm⟩
  · cases hc : codeFrom k 0 (symbolize s.ZB (s.predOf c)) with
    | error e' =>
      rw [hc] at h
      obtain ⟨j, rfl, _⟩ := codeFrom_error hc
      exact .inl ⟨_, rfl, by rw [← Except.error.inj h]⟩
    | ok items =>
      rw [hc] at h
      refine .inr ⟨items, rfl, .inr ?_⟩
      cases ha : appendItems items s with
      | error e' => rw [Except.bind, ha] at h; exact ⟨e', rfl, by rw [← Except.error.inj h]⟩
      | ok u => rw [Except.bind, ha] at h; cases h

/-! ### Every command -/

/-- Every command ends in a next state (R252). -/
theorem exec_next (i : Instr) (s : State) : ∃ t, exec i s = .next t := by
  cases i
  case nop => exact ⟨_, rfl⟩
  case fdct => exact ⟨_, rfl⟩
  case idct => exact ⟨_, rfl⟩
  case zigzag => exact ⟨_, rfl⟩
  case unzigzag => exact ⟨_, rfl⟩
  case symb c => exact ⟨_, rfl⟩
  case bwreset => exact ⟨_, rfl⟩
  case rstpred => exact ⟨_, rfl⟩
  case clrerr => exact ⟨_, rfl⟩
  case sreset => exact ⟨_, rfl⟩
  all_goals exact conclude_next s _

/-- What no command touches: the host's side of the interface, the latency, `BUSY`, `LASTCMD` (R35, R91, R295). -/
structure SameHost (s t : State) : Prop where
  BUSY : t.BUSY = s.BUSY
  LASTCMD : t.LASTCMD = s.LASTCMD
  inReset : t.inReset = s.inReset
  mustPoll : t.mustPoll = s.mustPoll
  heldERR : t.heldERR = s.heldERR
  heldERRCODE : t.heldERRCODE = s.heldERRCODE
  latLeft : t.latLeft = s.latLeft
  latDraws : t.latDraws = s.latDraws
  hostq : t.hostq = s.hostq
  reads : t.reads = s.reads

theorem SameHost.refl (s : State) : SameHost s s := ⟨rfl, rfl, rfl, rfl, rfl, rfl, rfl, rfl, rfl, rfl⟩

theorem sameHost_errorEntry (e : ErrorEvent) (s : State) : SameHost s (errorEntry e s) := by
  unfold errorEntry
  split <;> exact ⟨rfl, rfl, rfl, rfl, rfl, rfl, rfl, rfl, rfl, rfl⟩

theorem sameHost_append {items : List CodeItem} {s u : State} (h : appendItems items s = .ok u) : SameHost s u := by
  rcases appendItems_cases items s with ⟨_, ha⟩ | ⟨_, ha⟩
  · rw [ha, Except.ok.injEq] at h; subst h; exact ⟨rfl, rfl, rfl, rfl, rfl, rfl, rfl, rfl, rfl, rfl⟩
  · rw [ha] at h; cases h

theorem sameHost_conclude {s t : State} {r : Except ErrorEvent State} (h : conclude s r = .next t)
    (hr : ∀ u, r = .ok u → SameHost s u) : SameHost s t := by
  rcases conclude_cases h with h | ⟨e, _, rfl⟩
  · exact hr t h
  · exact sameHost_errorEntry e s

/-- No command touches the host's side (R91, R295). -/
theorem exec_sameHost {i : Instr} {s t : State} (h : exec i s = .next t) : SameHost s t := by
  cases i
  case qtbuild c q =>
    refine sameHost_conclude (s := s) h fun u hu => ?_
    split at hu
    · cases hu
    · rw [Except.ok.injEq] at hu; subst hu; exact ⟨rfl, rfl, rfl, rfl, rfl, rfl, rfl, rfl, rfl, rfl⟩
  case quant c =>
    rcases execQuant_cases h with ⟨k, rfl⟩ | ⟨b, rfl⟩
    · exact sameHost_errorEntry _ s
    · exact ⟨rfl, rfl, rfl, rfl, rfl, rfl, rfl, rfl, rfl, rfl⟩
  case huff c =>
    rcases execHuff_cases h with ⟨j, _, rfl⟩ | ⟨items, _, ha⟩
    · exact sameHost_errorEntry _ s
    · exact sameHost_conclude ha fun u hu => sameHost_append hu
  case encblk c k =>
    rcases execEncblk_cases h with ⟨j, _, rfl⟩ | ⟨items, _, ⟨u, hu, rfl⟩ | ⟨e, _, rfl⟩⟩
    · exact sameHost_errorEntry _ s
    · obtain ⟨h1, h2, h3, h4, h5, h6, h7, h8, h9, h10⟩ := sameHost_append hu
      exact ⟨h1, h2, h3, h4, h5, h6, h7, h8, h9, h10⟩
    · exact sameHost_errorEntry _ s
  case wrbits n v => exact sameHost_conclude h fun u hu => sameHost_append hu
  case flush => exact sameHost_conclude h fun u hu => sameHost_append hu
  all_goals
    injection h with h
    subst h
    exact ⟨rfl, rfl, rfl, rfl, rfl, rfl, rfl, rfl, rfl, rfl⟩

end Sys2Proof.Machine
end

