-- ==== Sys2Proof/Laws/PerInstr.lean ====
section
/-! SUPPORT. Laws/PerInstr.lean: the family EncodeFields, one lemma for each command: where its encoding holds its opcode and its zeros (R90, R92, R95). -/

namespace Sys2Proof.Laws.EncodeFields

/-- The word of a well-formed command: the opcode in bits 7:0, the operands at their places in bits 31:8, zeros in bits 63:32. -/
def Statement (i : Instr) : Prop :=
  WellFormed i = true →
    field (encode i) 0 8 = opcodeOf i ∧ field (encode i) 8 24 = operandBits i / 2 ^ 8 ∧ field (encode i) 32 32 = 0

/-- Enough for `Statement`: the operand bits lie in bits 31:8, the opcode below them. -/
theorem of_bits {i : Instr} {k : Nat} (hk : operandBits i = k * 2 ^ 8) (hlt : WellFormed i = true → k < 2 ^ 24)
    (hop : opcodeOf i < 2 ^ 8) : Statement i := by
  intro h
  have := hlt h
  have e : (encode i).toNat = k * 2 ^ 8 + opcodeOf i := by
    rw [encode, hk, BitVec.toNat_ofNat, Nat.mod_eq_of_lt (by omega)]
  unfold field
  rw [e, hk]
  omega

theorem nop : Statement .nop := of_bits (k := 0) rfl (fun _ => by decide) (by decide)

theorem fdct : Statement .fdct := of_bits (k := 0) rfl (fun _ => by decide) (by decide)

theorem idct : Statement .idct := of_bits (k := 0) rfl (fun _ => by decide) (by decide)

theorem qtbuild (t : TableClass) (q : BitVec 7) : Statement (.qtbuild t q) := by
  have := q.isLt
  cases t
  · exact of_bits (k := q.toNat * 2 ^ 8) (by simp only [operandBits, tableClassCode]; omega) (fun _ => by omega) (by simp only [opcodeOf]; decide)
  · exact of_bits (k := q.toNat * 2 ^ 8 + 1) (by simp only [operandBits, tableClassCode]; omega) (fun _ => by omega) (by simp only [opcodeOf]; decide)

theorem quant (t : TableClass) : Statement (.quant t) :=
  of_bits (k := tableClassCode t) rfl (fun _ => by cases t <;> decide) (by simp only [opcodeOf]; decide)

theorem zigzag : Statement .zigzag := of_bits (k := 0) rfl (fun _ => by decide) (by decide)

theorem unzigzag : Statement .unzigzag := of_bits (k := 0) rfl (fun _ => by decide) (by decide)

theorem symb (c : Component) : Statement (.symb c) :=
  of_bits (k := componentCode c * 2 ^ 2) (by cases c <;> rfl) (fun _ => by cases c <;> decide) (by simp only [opcodeOf]; decide)

theorem huff (t : TableClass) : Statement (.huff t) :=
  of_bits (k := tableClassCode t) rfl (fun _ => by cases t <;> decide) (by simp only [opcodeOf]; decide)

theorem encblk (c : Component) (t : TableClass) : Statement (.encblk c t) :=
  of_bits (k := componentCode c * 2 ^ 2 + tableClassCode t) (by cases c <;> cases t <;> rfl)
    (fun _ => by cases c <;> cases t <;> decide) (by simp only [opcodeOf]; decide)

theorem wrbits (n : BitVec 5) (v : BitVec 16) : Statement (.wrbits n v) := by
  have := n.isLt
  have := v.isLt
  exact of_bits (k := v.toNat * 2 ^ 8 + n.toNat) (by simp only [operandBits]; omega) (fun _ => by omega) (by simp only [opcodeOf]; decide)

theorem flush : Statement .flush := of_bits (k := 0) rfl (fun _ => by decide) (by decide)

theorem bwreset : Statement .bwreset := of_bits (k := 0) rfl (fun _ => by decide) (by decide)

theorem rstpred : Statement .rstpred := of_bits (k := 0) rfl (fun _ => by decide) (by decide)

theorem clrerr : Statement .clrerr := of_bits (k := 0) rfl (fun _ => by decide) (by decide)

theorem sreset : Statement .sreset := of_bits (k := 0) rfl (fun _ => by decide) (by decide)

end Sys2Proof.Laws.EncodeFields
end

