-- ==== Sys2Proof/Laws/Step.lean ====
section
/-! SUPPORT. Laws/Step.lean: acceptance and the cycle (R91, R290, R296): the equations of `step`, by what the host does next. -/

namespace Sys2Proof.Machine

/-! ### Acceptance (R91) -/

/-- The opcode field, as bits and as a number (R90). -/
theorem opcode_eq_iff (d : Word) (x : BitVec 8) : d.extractLsb' 0 8 = x ↔ d.toNat % 2 ^ 8 = x.toNat := by
  constructor
  · rintro rfl; simp
  · intro h; apply BitVec.eq_of_toNat_eq; simpa using h

theorem rejects_iff (s : State) (d : Word) :
    s.rejects d = true ↔ s.ERR = true ∧ d.extractLsb' 0 8 ≠ 0x0E ∧ d.extractLsb' 0 8 ≠ 0x0F := by
  rw [Ne, Ne, opcode_eq_iff, opcode_eq_iff]
  simp [State.rejects, and_assoc]

/-- All that a word written to `CMD` can do: only acceptance, the error entry of an ILLEGAL word, or its command (R91). -/
theorem issue_cases (d : Word) (s : State) :
    (s.rejects d = true ∧ issue d s = .next (accept d s)) ∨
    (s.rejects d = false ∧ (∃ e, decode d = .error e) ∧ issue d s = .next (errorEntry .illegalCmd (accept d s))) ∨
    (s.rejects d = false ∧ ∃ i, decode d = .ok i ∧ issue d s = exec i (accept d s)) := by
  unfold issue
  cases hr : s.rejects d
  · right
    cases hd : decode d with
    | error e => left; exact ⟨rfl, ⟨e, rfl⟩, rfl⟩
    | ok i => right; exact ⟨rfl, i, rfl, rfl⟩
  · left; exact ⟨rfl, rfl⟩

theorem issue_next (d : Word) (s : State) : ∃ t, issue d s = .next t := by
  rcases issue_cases d s with ⟨_, h⟩ | ⟨_, _, h⟩ | ⟨_, i, _, h⟩
  · exact ⟨_, h⟩
  · exact ⟨_, h⟩
  · rw [h]; exact exec_next i _

/-! ### The cycle -/

/-- While no command is in flight a cycle passes without effect. -/
theorem State.tick_of_idle {s : State} (h : s.BUSY = false) : s.tick = s := by simp [State.tick, h]

theorem State.tick_of_busy {s : State} (h : s.BUSY = true) :
    s.tick = { s with latLeft := s.latLeft - 1, BUSY := decide (1 < s.latLeft) } := by simp [State.tick, h]

/-- A cycle never sets `BUSY` (R295). -/
theorem State.tick_BUSY_le {s : State} (h : s.tick.BUSY = true) : s.BUSY = true := by
  cases hb : s.BUSY
  · rw [State.tick_of_idle hb, hb] at h; cases h
  · rfl

/-- The next action of the host does not matter to a cycle. -/
theorem State.tick_setHostq (s : State) (q : List HostOp) : (s.setHostq q).tick = s.tick.setHostq q := by
  cases hb : s.BUSY
  · rw [State.tick_of_idle hb, State.tick_of_idle (by simpa using hb)]
  · rw [State.tick_of_busy hb, State.tick_of_busy (by simpa using hb)]; rfl

@[simp] theorem State.inWindow_setHostq (s : State) (q : List HostOp) : (s.setHostq q).inWindow = s.inWindow := rfl

theorem step_nil {s : State} (hq : s.hostq = []) : step s = .next (if s.inReset then s else s.tick) := by
  simp [step, cycle, hq]

theorem step_running {s : State} {op : HostOp} {rest : List HostOp} (hq : s.hostq = op :: rest) (hr : s.inReset = false) :
    step s = hostAction op (s.setHostq rest) := by
  simp [step, cycle, hq, hr]

theorem step_inReset {s : State} {op : HostOp} {rest : List HostOp} (hq : s.hostq = op :: rest) (hr : s.inReset = true) :
    step s = resetAction op (s.setHostq rest) := by
  simp [step, cycle, hq, hr]

/-- A write of `CMD` outside the window issues its word (R72). -/
theorem step_cmd {s : State} {d : Word} {rest : List HostOp} (hq : s.hostq = .write 0x200 d :: rest) (hr : s.inReset = false)
    (hp : s.mustPoll = false) (hb : s.BUSY = false) : step s = issue d (s.setHostq rest) := by
  have hw : (s.setHostq rest).inWindow = false := by simp [State.inWindow, hp, hb]
  have ht : (s.setHostq rest).tick = s.setHostq rest := State.tick_of_idle (by simpa using hb)
  rw [step_running hq hr]
  simp only [hostAction, ht, busWrite, hw, Bool.false_eq_true, if_false, cmdAddr]
  rfl

/-! ### What a step can do -/

/-- `StepTo s t`: everything a step from `s` can do, by kind; `u` is `s` one cycle later, with the host's next actions. -/
inductive StepTo (s : State) : State → Prop where
  /-- The reset input stays asserted. -/
  | inReset (q : List HostOp) (hr : s.inReset = true) : StepTo s (s.setHostq q)
  /-- The reset input is released (R280). -/
  | released (q : List HostOp) (hr : s.inReset = true) (hq : s.hostq = .releaseReset :: q) :
    StepTo s (hardReset (s.setHostq q))
  /-- A cycle without an access. -/
  | quiet (q : List HostOp) (hr : s.inReset = false) (hq : s.hostq = [] → q = []) : StepTo s (s.tick.setHostq q)
  /-- The reset input is asserted. -/
  | asserted (q : List HostOp) (hr : s.inReset = false) (hq : s.hostq = .assertReset :: q) :
    StepTo s ((s.tick.setHostq q).setInReset true)
  /-- A read of `STATUS`. -/
  | status (q : List HostOp) (hr : s.inReset = false) (hq : s.hostq = .read statusAddr :: q) :
    StepTo s (((s.tick.setHostq q).record statusAddr s.tick.statusWord).polled)
  /-- A read of another address, or one read of a `DRAIN`. -/
  | read (a : BusAddr) (q : List HostOp) (hr : s.inReset = false) (hw : s.tick.inWindow = false)
    (hq : s.hostq = .read a :: q ∨ ∃ q', s.hostq = .drain :: q') :
    StepTo s ((afterRead a (s.tick.setHostq q)).record a (peek a (s.tick.setHostq q)))
  /-- A write of an address other than `CMD`. -/
  | write (a : BusAddr) (d : Word) (q : List HostOp) (hr : s.inReset = false) (hw : s.tick.inWindow = false)
    (hq : s.hostq = .write a d :: q) (ha : a ≠ cmdAddr) : StepTo s (poke a d (s.tick.setHostq q))
  /-- A write of `CMD`. -/
  | command (d : Word) (q : List HostOp) (t : State) (hr : s.inReset = false) (hw : s.tick.inWindow = false)
    (hq : s.hostq = .write cmdAddr d :: q) (hi : issue d (s.tick.setHostq q) = .next t) : StepTo s t
  /-- A `WAIT`. -/
  | wait (q : List HostOp) (hr : s.inReset = false) (hq : s.hostq = .wait :: q) : StepTo s (waitIdle (s.setHostq q))

/-- A read that does not fault. -/
theorem busRead_cases {a : BusAddr} {u t : State} (h : busRead a u = .next t) :
    (a = statusAddr ∧ t = (u.record statusAddr u.statusWord).polled) ∨
    (a ≠ statusAddr ∧ u.inWindow = false ∧ t = (afterRead a u).record a (peek a u)) := by
  unfold busRead at h
  by_cases ha : a = statusAddr
  · subst ha
    rw [if_pos rfl, Host.Outcome.next.injEq] at h
    exact .inl ⟨rfl, h.symm⟩
  · rw [if_neg ha] at h
    cases hw : u.inWindow
    · rw [hw, if_neg (by simp), Host.Outcome.next.injEq] at h
      exact .inr ⟨ha, rfl, h.symm⟩
    · rw [hw, if_pos rfl] at h; cases h

/-- The inversion lemma of `step`: every step is of one of the kinds above. -/
theorem step_cases {s t : State} (h : step s = .next t) : StepTo s t := by
  cases hq : s.hostq with
  | nil =>
    rw [step_nil hq, Host.Outcome.next.injEq] at h
    subst h
    cases hr : s.inReset
    · have e : s.tick = s.tick.setHostq [] := by rw [← State.tick_setHostq, ← hq]; rfl
      rw [if_neg (by simp), e]
      exact .quiet [] hr fun _ => rfl
    · have e : s = s.setHostq [] := by rw [← hq]; rfl
      rw [if_pos rfl]
      exact (e ▸ .inReset [] hr : StepTo s s)
  | cons op q =>
    have hne : s.hostq = [] → q = [] := by rw [hq]; intro h; cases h
    cases hr : s.inReset
    · rw [step_running hq hr] at h
      cases op with
      | read a =>
        simp only [hostAction, State.tick_setHostq] at h
        rcases busRead_cases h with ⟨rfl, rfl⟩ | ⟨_, hw, rfl⟩
        · exact .status q hr hq
        · exact .read a q hr hw (.inl hq)
      | write a d =>
        simp only [hostAction, State.tick_setHostq, busWrite] at h
        cases hw : s.tick.inWindow
        · rw [State.inWindow_setHostq, hw, if_neg (by simp)] at h
          by_cases ha : a = cmdAddr
          · subst ha; rw [if_pos rfl] at h; exact .command d q t hr hw hq h
          · rw [if_neg ha, Host.Outcome.next.injEq] at h; subst h; exact .write a d q hr hw hq ha
        · rw [State.inWindow_setHostq, hw, if_pos rfl] at h; cases h
      | wait =>
        simp only [hostAction, Host.Outcome.next.injEq] at h
        subst h
        exact .wait q hr hq
      | drain =>
        simp only [hostAction, State.tick_setHostq, drainOnce] at h
        split at h
        · rcases busRead_cases h with ⟨ha, _⟩ | ⟨_, hw, rfl⟩
          · exact absurd ha (by decide)
          · exact .read outDataAddr _ hr hw (.inr ⟨q, hq⟩)
        · rcases busRead_cases h with ⟨ha, _⟩ | ⟨_, hw, rfl⟩
          · exact absurd ha (by decide)
          · exact .read outDataAddr q hr hw (.inr ⟨q, hq⟩)
      | idle =>
        simp only [hostAction, State.tick_setHostq, Host.Outcome.next.injEq] at h
        subst h
        exact .quiet q hr hne
      | assertReset =>
        simp only [hostAction, State.tick_setHostq, Host.Outcome.next.injEq] at h
        subst h
        exact .asserted q hr hq
      | releaseReset =>
        simp only [hostAction, State.tick_setHostq, Host.Outcome.next.injEq] at h
        subst h
        exact .quiet q hr hne
    · rw [step_inReset hq hr] at h
      cases op <;> simp only [resetAction, reduceCtorEq, Host.Outcome.next.injEq] at h
      · subst h; exact .inReset q hr
      · subst h; exact .inReset q hr
      · subst h; exact .released q hr hq

/-! ### Runs, of any machine -/

/-- A run of one step more, from the front. -/
theorem run_succ (M : Host.Core) {s t : M.State} (k : Nat) (h : M.step s = .next t) : M.run (k + 1) s = M.run k t := by
  simp only [Host.Core.run, h]

/-- A run of one step more, from the back. -/
theorem run_append (M : Host.Core) {s t : M.State} {k : Nat} (h : M.run k s = .next t) : M.run (k + 1) s = M.step t := by
  induction k generalizing s with
  | zero =>
    simp only [Host.Core.run, Host.Outcome.next.injEq] at h
    subst h
    cases hs : M.step s <;> simp only [Host.Core.run, hs]
  | succ k ih =>
    cases hs : M.step s with
    | next u => rw [run_succ M k hs] at h; rw [run_succ M (k + 1) hs]; exact ih h
    | fault r => simp only [Host.Core.run, hs] at h; cases h
    | refused r => simp only [Host.Core.run, hs] at h; cases h

end Sys2Proof.Machine
end

