-- ==== Sys2Proof/Laws/Symbols.lean ====
section
/-! SUPPORT. Laws/Symbols.lean: categories, symbol words and their fields, the list that `symbolize` returns, and which words have a code. -/

namespace Sys2Proof.Machine

/-! ### Categories (R11, R170) -/

theorem bitlen_le_iff (n len : Nat) : bitlen n ≤ len ↔ n < 2 ^ len := by
  unfold bitlen
  split
  · rename_i h; subst h; simp
  · rename_i h
    rw [Nat.add_one_le_iff, Nat.log2_lt h]

theorem lt_two_pow_bitlen (n : Nat) : n < 2 ^ bitlen n := (bitlen_le_iff n _).mp le_rfl

/-- The category is the least length whose power of two is above the magnitude (R170). -/
theorem category_le_iff (v : Int) (len : Nat) : category v ≤ len ↔ v.natAbs < 2 ^ len := bitlen_le_iff _ _

@[simp] theorem category_eq_zero (v : Int) : category v = 0 ↔ v = 0 := by
  have := category_le_iff v 0
  omega

/-! ### Symbol words (R28, R172) -/

/-- The number a symbol word is, when its fields fit their places. -/
theorem symword_toNat {kind : SymKind} {run len : Nat} {v : Int} (hr : run < 16) (hl : len < 32) :
    (symword kind run len v).toNat = kindCode kind * 2 ^ 48 + run * 2 ^ 40 + len * 2 ^ 32 + (v % 2 ^ 32).toNat := by
  have hv : (v % 2 ^ 32).toNat < 2 ^ 32 := by omega
  have hk : kindCode kind ≤ 3 := by cases kind <;> decide
  rw [symword, BitVec.toNat_ofNat, Nat.mod_eq_of_lt (by omega)]

theorem symKind_symword {kind : SymKind} {run len : Nat} {v : Int} (hr : run < 16) (hl : len < 32) :
    symKind (symword kind run len v) = kind := by
  have hv : (v % 2 ^ 32).toNat < 2 ^ 32 := by omega
  have hk : kindCode kind ≤ 3 := by cases kind <;> decide
  have : (symword kind run len v).toNat / 2 ^ 48 % 4 = kindCode kind := by rw [symword_toNat hr hl]; omega
  unfold symKind
  rw [this]
  cases kind <;> rfl

theorem symRun_symword {kind : SymKind} {run len : Nat} {v : Int} (hr : run < 16) (hl : len < 32) :
    symRun (symword kind run len v) = run := by
  have hv : (v % 2 ^ 32).toNat < 2 ^ 32 := by omega
  have hk : kindCode kind ≤ 3 := by cases kind <;> decide
  rw [symRun, symword_toNat hr hl]; omega

theorem symSize_symword {kind : SymKind} {run len : Nat} {v : Int} (hr : run < 16) (hl : len < 32) :
    symSize (symword kind run len v) = len := by
  have hv : (v % 2 ^ 32).toNat < 2 ^ 32 := by omega
  have hk : kindCode kind ≤ 3 := by cases kind <;> decide
  rw [symSize, symword_toNat hr hl]; omega

theorem symValue_symword {kind : SymKind} {run len : Nat} {v : Int} (hr : run < 16) (hl : len < 32)
    (h1 : -2 ^ 31 ≤ v) (h2 : v < 2 ^ 31) : symValue (symword kind run len v) = v := by
  have hv : (v % 2 ^ 32).toNat < 2 ^ 32 := by omega
  have hk : kindCode kind ≤ 3 := by cases kind <;> decide
  rw [symValue, symword_toNat hr hl]
  have h3 : (kindCode kind * 2 ^ 48 + run * 2 ^ 40 + len * 2 ^ 32 + (v % 2 ^ 32).toNat) % 2 ^ 32 = (v % 2 ^ 32).toNat := by
    omega
  rw [BitVec.toInt_eq_toNat_cond, BitVec.toNat_ofNat, h3]
  split <;> omega

/-! ### The symbols of a block (R173, R175) -/

/-- An int16 has category at most 16. -/
theorem category_half (z : Half) : category z.toInt ≤ 16 := by
  rw [category_le_iff]
  have := z.toInt_lt; have := z.le_toInt
  omega

/-- A difference of two int16 has category at most 16. -/
theorem category_diff (z p : Half) : category (z.toInt - p.toInt) ≤ 16 := by
  rw [category_le_iff]
  have := z.toInt_lt; have := z.le_toInt; have := p.toInt_lt; have := p.le_toInt
  omega

/-- At most one AC word for each position, those already counted included (R175). -/
theorem acSymbols_length (run : Nat) (l : List Half) : (acSymbols run l).length ≤ run + l.length := by
  induction l generalizing run with
  | nil =>
    unfold acSymbols
    split
    · simp; omega
    · simp
  | cons z zs ih =>
    unfold acSymbols
    split
    · have := ih (run + 1); simp only [List.length_cons]; omega
    · have := ih 0
      simp only [List.length_append, List.length_replicate, List.length_cons]
      omega

/-- A block has 1 to 64 symbols (R175). -/
theorem symbolize_length (z : Block Half) (p : Half) : 1 ≤ (symbolize z p).length ∧ (symbolize z p).length ≤ 64 := by
  have := acSymbols_length 0 z.toList.tail
  simp only [symbolize, List.length_cons, List.length_tail, Vector.length_toList] at *
  omega

/-- SYMB's commit: the symbols are read back from the buffer (R29, R174). -/
theorem symbols_setSymbols (s : State) (l : List Word) (c : Component) (p : Half) (h : l.length ≤ 64) :
    (s.setSymbols l c p).symbols = l := by
  have hl : (BitVec.ofNat 7 l.length).toNat = l.length := by rw [BitVec.toNat_ofNat]; omega
  rw [State.symbols, State.setSymbols, hl]
  exact take_overlay _ _ h

/-! ### Which words have a code (R195) -/

theorem dctab_isSome (t : TableClass) {n : Nat} (h : n ≤ 11) : (dctab t n).isSome := by
  interval_cases n <;> cases t <;> decide

theorem actab_isSome (t : TableClass) {r n : Nat} (hr : r < 16) (h1 : 1 ≤ n) (h2 : n ≤ 10) :
    (actab t (16 * r + n)).isSome := by
  have key : ∀ r < 16, ∀ n < 11, 1 ≤ n → (actab .luma (16 * r + n)).isSome ∧ (actab .chroma (16 * r + n)).isSome := by
    decide +kernel
  have := key r hr n (by omega) h1
  cases t <;> simp [this]

theorem symRun_lt (w : Word) : symRun w < 16 := by unfold symRun; omega

theorem codeSymbol_isSome (t : TableClass) (w : Word) :
    (codeSymbol t w).isSome ↔
      (symKind w = .dc → symSize w ≤ 11) ∧ (symKind w = .ac → 1 ≤ symSize w ∧ symSize w ≤ 10) := by
  unfold codeSymbol
  cases hk : symKind w
  · by_cases h : symSize w > 11
    · simp [h]
    · have h' : symSize w ≤ 11 := by omega
      simp only [h, if_false, Option.isSome_map, dctab_isSome t h', h', forall_const, reduceCtorEq, IsEmpty.forall_iff,
        and_self]
  · by_cases h : symSize w = 0 ∨ symSize w > 10
    · simp [h]; omega
    · have h' : 1 ≤ symSize w ∧ symSize w ≤ 10 := by omega
      have := actab_isSome t (symRun_lt w) h'.1 h'.2
      simp [h, this]; omega
  · cases t <;> simp <;> decide
  · cases t <;> simp <;> decide

theorem dctab_len (t : TableClass) {n : Nat} {c : CodeItem} (h : dctab t n = some c) : c.len ≤ 11 := by
  have key : ∀ r ∈ dcRows t, r.len ≤ 11 := by cases t <;> decide
  simp only [dctab, lookupCode, Option.map_eq_some_iff] at h
  obtain ⟨r, hr, rfl⟩ := h
  exact key r (List.mem_of_find?_eq_some hr)

theorem actab_len (t : TableClass) {n : Nat} {c : CodeItem} (h : actab t n = some c) : c.len ≤ 16 := by
  have key : ∀ r ∈ acRows t, r.len ≤ 16 := by cases t <;> decide +kernel
  simp only [actab, lookupCode, Option.map_eq_some_iff] at h
  obtain ⟨r, hr, rfl⟩ := h
  exact key r (List.mem_of_find?_eq_some hr)

/-- A symbol codes to at most 26 bits (R200). -/
theorem codeSymbol_bits (t : TableClass) {w : Word} {items : List CodeItem} (h : codeSymbol t w = some items) :
    (items.flatMap itemBits).length ≤ 26 := by
  unfold codeSymbol at h
  cases hk : symKind w <;> simp only [hk] at h
  · split at h
    · cases h
    · simp only [Option.map_eq_some_iff] at h
      obtain ⟨c, hc, rfl⟩ := h
      have := dctab_len t hc
      split <;> simp <;> omega
  · split at h
    · cases h
    · simp only [Option.map_eq_some_iff] at h
      obtain ⟨c, hc, rfl⟩ := h
      have := actab_len t hc
      simp; omega
  · simp only [Option.map_eq_some_iff] at h
    obtain ⟨c, hc, rfl⟩ := h
    have := actab_len t hc
    simp; omega
  · simp only [Option.map_eq_some_iff] at h
    obtain ⟨c, hc, rfl⟩ := h
    have := actab_len t hc
    simp; omega

/-- The items of a symbol list have at most 26 bits for each symbol (R200). -/
theorem codeFrom_bits (t : TableClass) {i : Nat} {l : List Word} {items : List CodeItem} (h : codeFrom t i l = .ok items) :
    (items.flatMap itemBits).length ≤ 26 * l.length := by
  induction l generalizing i items with
  | nil => simp only [codeFrom, Except.ok.injEq] at h; subst h; simp
  | cons w ws ih =>
    unfold codeFrom at h
    split at h
    · cases h
    · rename_i its hw
      cases hr : codeFrom t (i + 1) ws with
      | error e => rw [hr] at h; cases h
      | ok rest =>
        rw [hr] at h
        have h := Except.ok.inj h
        subst h
        have := codeSymbol_bits t hw
        have := ih hr
        simp only [List.flatMap_append, List.length_append, List.length_cons]
        omega

end Sys2Proof.Machine
end

