-- ==== Sys2Proof/Tests/Slice0.lean ====
section
/-! SUPPORT. Tests/Slice0.lean: the WellFormed smoke tests, the decoding of every command's word, small one-step tests, and one witness for the
hypotheses of every statement that has any. Every expected value is a value of spec/95_test_vectors.md or of the rule named beside it. -/

open Sys2Proof Sys2Proof.Machine Sys2Proof.Claims

namespace Sys2Proof.Tests

set_option Elab.async false

/-! ### Helpers -/

/-- The block that is `d` but for the listed elements. -/
def blockWith {α : Type} (d : α) (l : List (Nat × α)) : Block α := tabulate fun k => (l.lookup k.val).getD d

/-- The next state of a step, looked at through `f`. -/
def look {α : Type} (f : State → α) : Result → Option α
  | .next t => some (f t)
  | .fault _ => none
  | .refused _ => none

/-- What `look` finds is there. -/
theorem look_some {α : Type} {f : State → α} {r : Result} {a : α} (h : look f r = some a) : ∃ t, r = .next t ∧ f t = a := by
  cases r with
  | next t => exact ⟨t, rfl, Option.some.inj h⟩
  | fault _ => cases h
  | refused _ => cases h

/-- The error record as the host reads it when no command is in flight (R33, R34). -/
def errorSeen (s : State) : Word × Word := (statusLayout false s.ERR s.ERRCODE, s.ERR_INFO)

/-- Pending bits: `NBITS` and `ACC` (R31). -/
def pendingOf (s : State) : Nat × Nat := (s.NBITS.toNat, s.ACC.toNat)

/-- The core just after reset, and what the host will do. -/
def hosted (l : List HostOp) : State := { State.reset with hostq := l }

/-- The core just after reset. -/
def s0 : State := State.reset

/-- Both tables of quality 100: every divisor is 1 (R141). -/
def unitTables : Vector (Block Byte) 2 := #v[Vector.replicate 64 1, Vector.replicate 64 1]

/-! ### Well-formed terms (R93, R94) -/

theorem test_wellformed_count : WellFormed (.wrbits 16 0xFFFF) = true ∧ WellFormed (.wrbits 0 0x1234) = true := by decide
theorem test_illformed_count : WellFormed (.wrbits 17 0) = false ∧ WellFormed (.wrbits 31 0) = false := by decide

/-! ### Decoding: each command's word written out from R92 and R95 -/

theorem test_decode_each_command :
    [0x00, 0x01, 0x02, 0x00640003, 0x0104, 0x05, 0x06, 0x0407].map (fun d : Word => (decode d).toOption) =
      [some .nop, some .fdct, some .idct, some (.qtbuild .luma 100), some (.quant .chroma), some .zigzag,
       some .unzigzag, some (.symb .cb)] ∧
    [0x0108, 0x0909, 0xABCD040A, 0x0B, 0x0C, 0x0D, 0x0E, 0x0F].map (fun d : Word => (decode d).toOption) =
      [some (.huff .chroma), some (.encblk .cr .chroma), some (.wrbits 4 0xABCD), some .flush, some .bwreset,
       some .rstpred, some .clrerr, some .sreset] := by decide

/-- V-E7, V-E8, V-E11, V-E13. -/
theorem test_decode_legal_edges :
    [0x00640003, 0x007F0003, 0x0000100A, 0xFFFF000A].map (fun d : Word => (decode d).toOption) =
      [some (.qtbuild .luma 100), some (.qtbuild .luma 127), some (.wrbits 16 0), some (.wrbits 0 0xFFFF)] := by decide

/-- V-E2, V-E3, V-E5, V-E6, V-E9, V-E10, V-E12, V-E14 to V-E18. -/
theorem test_decode_illegal :
    ([0x0208, 0x0209, 0x0C09, 0x0107, 0x00800003, 0x0203, 0x110A, 0x200A, 0x0100, 0x00FF, 0x8000_0000_0000_0001,
      0x010E].all fun d : Word => (decode d).toOption == none) = true := by decide

theorem test_table_word : decodeTableWord 64 0x004B0003 = some (.qtbuild .luma 75) ∧ decodeTableWord 64 0x10 = none := by decide

/-! ### Transform -/

/-- V-T2: the constant tile of pixel 200. -/
theorem test_fdct_constant :
    look (fun t => t.C[0]) (exec .fdct { State.reset with S := Vector.replicate 64 0x4052_0000_0000_0000 }) =
      some 0x4082_0000_0000_0001 := by decide +kernel

/-- V-T3: a DC-only block of 8.0. -/
theorem test_idct_dc :
    look (fun t => t.S[63]) (exec .idct { State.reset with C := blockWith 0 [(0, 0x4020_0000_0000_0000)] }) =
      some 0x3FF0_0000_0000_0001 := by decide +kernel

/-! ### Quantizer -/

/-- V-Q1: the first row for quality 75, and one entry of V-Q4. -/
theorem test_qtbuild :
    look (fun t => (t.QT[0].toList.take 8, t.QUAL[0], t.QT[1] == s0.QT[1])) (exec (.qtbuild .luma 75) s0) =
      some ([8, 6, 5, 8, 12, 20, 26, 31], 75, true) ∧
    look (fun t => t.QT[0][11]) (exec (.qtbuild .luma 9) s0) = some 105 := by decide +kernel

/-- V-Q2: quality 0 and 101 from reset. -/
theorem test_qtbuild_quality :
    look errorSeen (step (s0.withFetchWord 64 0x03)) = some (0x0202, 0x0000_0003) ∧
    look errorSeen (step (s0.withFetchWord 64 0x0065_0103)) = some (0x0202, 0x0065_0003) := by decide

/-- V-Q3: rounding half away from zero. -/
theorem test_quant_rounds :
    look (fun t => t.QB.toList.take 11)
      (exec (.quant .luma)
        { s0 with
          QT := unitTables
          C := blockWith 0
            [(0, 0x3FE0_0000_0000_0000), (1, 0xBFE0_0000_0000_0000), (2, 0x3FF8_0000_0000_0000),
             (3, 0xBFF8_0000_0000_0000), (4, 0x4004_0000_0000_0000), (5, 0xC004_0000_0000_0000),
             (6, 0x3FDF_FFFF_FFFF_FFFF), (7, 0xBFDF_FFFF_FFFF_FFFF), (8, 0x8000_0000_0000_0000),
             (9, 0x40DF_FFD9_9999_999A), (10, 0xC0E0_000C_CCCC_CCCD)] }) =
      some [1, -1, 2, -2, 3, -3, 0, 0, 0, 32767, -32768] := by decide +kernel

/-- V-Q5: the lowest index is reported, and `QB` is unchanged. -/
theorem test_quant_range :
    look (fun t => (errorSeen t, t.QB[0]))
      (step
        (State.withFetchWord
          { s0 with
            QB := Vector.replicate 64 9, QT := unitTables
            C := blockWith 0 [(3, 0x7FF0_0000_0000_0000), (5, 0x7FF8_0000_0000_0000)] } 64 0x04)) =
      some ((0x0302, 0x0003_0004), 9) := by decide +kernel

/-! ### Zigzag -/

/-- V-Z1 and V-Z3. -/
theorem test_zigzag :
    look (fun t => t.ZB.toList.map BitVec.toNat) (exec .zigzag { s0 with QB := tabulate fun k => BitVec.ofNat 16 k.val }) =
      some
        ([0, 1, 8, 16, 9, 2, 3, 10, 17, 24, 32, 25, 18, 11, 4, 5] ++
         [12, 19, 26, 33, 40, 48, 41, 34, 27, 20, 13, 6, 7, 14, 21, 28] ++
         [35, 42, 49, 56, 57, 50, 43, 36, 29, 22, 15, 23, 30, 37, 44, 51] ++
         [58, 59, 52, 45, 38, 31, 39, 46, 53, 60, 61, 54, 47, 55, 62, 63]) ∧
    look (fun t => (t.ZB[63], t.ZB[1], t.ZB[2]))
        (exec .zigzag { s0 with QB := blockWith 0 [(63, -32768), (1, 32767), (8, -1)] }) =
      some (-32768, 32767, -1) := by decide +kernel

/-- V-Z2. -/
theorem test_unzigzag :
    look (fun t => t.QB.toList.map BitVec.toNat) (exec .unzigzag { s0 with ZB := tabulate fun i => BitVec.ofNat 16 i.val }) =
      some
        ([0, 1, 5, 6, 14, 15, 27, 28, 2, 4, 7, 13, 16, 26, 29, 42] ++
         [3, 8, 12, 17, 25, 30, 41, 43, 9, 11, 18, 24, 31, 40, 44, 53] ++
         [10, 19, 23, 32, 39, 45, 52, 54, 20, 22, 33, 38, 46, 51, 55, 60] ++
         [21, 34, 37, 47, 50, 56, 59, 61, 35, 36, 48, 49, 57, 58, 62, 63]) := by decide +kernel

/-! ### Symbolizer -/

/-- V-S3, rows run47, last63 and all nonzero. -/
theorem test_symbolize_runs :
    symbolize (blockWith 0 [(48, 1)]) 0 =
      [0, 0x0002_0F00_0000_0000, 0x0002_0F00_0000_0000, 0x0001_0F01_0000_0001, 0x0003_0000_0000_0000] ∧
    symbolize (blockWith 0 [(63, -1)]) 0 =
      [0, 0x0002_0F00_0000_0000, 0x0002_0F00_0000_0000, 0x0002_0F00_0000_0000, 0x0001_0E01_FFFF_FFFF] ∧
    symbolize (Vector.replicate 64 7) 7 = 0 :: List.replicate 63 0x0001_0003_0000_0007 := by decide +kernel

/-- V-S4: the difference does not wrap. -/
theorem test_symb_difference :
    look (fun t => (t.symbols, t.SYMCNT, t.PRED.toList))
      (exec (.symb .y) { s0 with ZB := blockWith 0 [(0, -32768)], PRED := #v[32767, 5, 6] }) =
      some ([0x0000_0010_FFFF_0001, 0x0003_0000_0000_0000], 2, [-32768, 5, 6]) := by decide +kernel

/-- V-S5. -/
theorem test_rstpred :
    look (fun t => (t.PRED.toList, t.SYMCNT, pendingOf t))
      (exec .rstpred { s0 with PRED := #v[36, -5, 7], SYMCNT := 2, NBITS := 1, ACC := 1 }) =
      some ([0, 0, 0], 2, (1, 1)) := by decide

/-! ### Huffman coder -/

/-- V-H1. -/
theorem test_huff :
    look (fun t => (t.OUTQ, pendingOf t, t.SYMCNT))
      (exec (.huff .luma)
        { s0 with SYMBUF := blockWith 0 [(0, 0x0000_0006_0000_0024), (1, 0x0003_0000_0000_0000)], SYMCNT := 2 }) =
      some ([0xE9], (6, 0b001010), 2) := by decide +kernel

/-- V-H3, fourth row; V-H4, second case: a lookup miss packs nothing. -/
theorem test_huff_category :
    look (fun t => (errorSeen t, pendingOf t))
      (step (State.withFetchWord { s0 with SYMBUF := blockWith 0 [(1, 0x0001_0000_0000_0000)], SYMCNT := 2 } 64 0x08)) =
      some ((0x0402, 0x0001_0008), (0, 0)) ∧
    look errorSeen
      (step (State.withFetchWord { s0 with SYMBUF := blockWith 0 [(0, 0xFFFC_F0F0_0000_0000)], SYMCNT := 1 } 64 0x08)) =
      some (0x0402, 0x0000_0008) := by decide +kernel

/-- V-H2, rows dc1500 (CHROMA) and last63. -/
theorem test_encblk :
    look (fun t => (t.OUTQ, pendingOf t, t.PRED[1])) (exec (.encblk .cb .chroma) { s0 with ZB := blockWith 0 [(0, 1500)] }) =
      some ([0xFF, 0x00, 0xD7, 0x70], (0, 0), 1500) ∧
    look (fun t => (t.OUTQ, pendingOf t, t.SYMCNT)) (exec (.encblk .y .luma) { s0 with ZB := blockWith 0 [(63, -1)] }) =
      some ([0x3F, 0xCF, 0xF9, 0xFF, 0x00, 0x3F, 0xFD], (4, 0b0110), 5) := by decide +kernel

/-- V-H3, first row: nothing is committed. -/
theorem test_encblk_category :
    look (fun t => (errorSeen t, t.PRED[0], t.SYMCNT, t.OUTQ))
      (step (State.withFetchWord { s0 with ZB := blockWith 0 [(0, -2048)] } 64 0x09)) =
      some ((0x0402, 0x0000_0009), 0, 0, []) := by decide +kernel

/-! ### Bit-packer -/

/-- V-B5, V-B9, V-B10, V-B8. -/
theorem test_wrbits :
    look (fun t => (t.OUTQ, pendingOf t)) (exec (.wrbits 16 0xFFFF) s0) = some ([0xFF, 0x00, 0xFF, 0x00], (0, 0)) ∧
    look (fun t => (t.OUTQ, pendingOf t)) (exec (.wrbits 4 0xABCD) s0) = some ([], (4, 0b1101)) ∧
    look (fun t => (t.OUTQ, pendingOf t)) (exec (.wrbits 16 0) { s0 with NBITS := 4, ACC := 0b0111 }) =
      some ([0x70, 0x00], (4, 0)) ∧
    look (fun t => (t.OUTQ, pendingOf t)) (exec (.wrbits 0 0x1234) s0) = some ([], (0, 0)) := by decide

/-- V-B12: capacity. -/
theorem test_wrbits_full :
    look (fun t => (errorSeen t, t.OUTQ.length, pendingOf t))
      (step (State.withFetchWord { s0 with OUTQ := List.replicate 1023 0 } 64 0xFFFF_100A)) =
      some ((0x0502, 0x0004_000A), 1023, (0, 0)) ∧
    look (fun t => (t.ERR, t.OUTQ.length)) (exec (.wrbits 8 0) { s0 with OUTQ := List.replicate 1023 0 }) =
      some (false, 1024) := by decide +kernel

/-- V-B2, V-B3, V-B4, V-B7. -/
theorem test_flush :
    look (fun t => (t.OUTQ, pendingOf t)) (exec .flush { s0 with NBITS := 6, ACC := 0b001010 }) = some ([0x2B], (0, 0)) ∧
    look (fun t => (t.OUTQ, pendingOf t)) (exec .flush { s0 with NBITS := 3, ACC := 0b111 }) =
      some ([0xFF, 0x00], (0, 0)) ∧
    look (fun t => (t.OUTQ, pendingOf t)) (exec .flush { s0 with NBITS := 3, ACC := 0b101 }) = some ([0xBF], (0, 0)) ∧
    look (fun t => (t.OUTQ, pendingOf t)) (exec .flush s0) = some ([], (0, 0)) := by decide

/-- V-B12: FLUSH with room for one byte of two. -/
theorem test_flush_full :
    look (fun t => (errorSeen t, pendingOf t))
      (step (State.withFetchWord { s0 with OUTQ := List.replicate 1023 0, NBITS := 3, ACC := 7 } 64 0x0B)) =
      some ((0x0502, 0x0002_000B), (3, 7)) := by decide +kernel

/-- V-B11. -/
theorem test_bwreset :
    look (fun t => (t.OUTQ, pendingOf t)) (exec .bwreset { s0 with OUTQ := [0xE9], NBITS := 6, ACC := 0b001010 }) =
      some ([], (0, 0)) := by decide

/-! ### Control and errors -/

/-- V-C1. -/
theorem test_nop : look (fun t => (t.LASTCMD, t.BUSY, errorSeen t)) (step (s0.withFetchWord 64 0)) = some (0, true, (0, 0)) := by
  decide

/-- V-C2. -/
theorem test_clrerr :
    look (fun t => (errorSeen t, t.OUTQ, t.PRED[2]))
      (step
        (State.withFetchWord
          { s0 with ERR := true, ERRCODE := 5, ERR_INFO := 0x0004_000A, OUTQ := [1], PRED := #v[0, 0, 3] } 64 0x0E)) =
      some ((0, 0), [1], 3) := by decide

/-- V-C7. -/
theorem test_sreset :
    look (fun t => (t.LASTCMD, errorSeen t, t.QUAL.toList, t.QT == s0.QT && t.S == s0.S, t.OUTQ))
      (step
        (State.withFetchWord
          { s0 with ERR := true, ERRCODE := 4, QUAL := #v[1, 2], QT := unitTables, S := Vector.replicate 64 5, OUTQ := [3] }
          64 0x0F)) =
      some (0x0F, (0, 0), [50, 50], true, []) := by decide +kernel

/-- V-C3 and V-C4: rejected while an error is recorded. -/
theorem test_rejected :
    look (fun t => (t.LASTCMD, errorSeen t, t.C[0]))
      (step (State.withFetchWord { s0 with ERR := true, ERRCODE := 4, C := Vector.replicate 64 7 } 64 0x01)) =
      some (0x01, (0x0402, 0), 7) ∧
    look (fun t => (t.LASTCMD, errorSeen t))
      (step (State.withFetchWord { s0 with ERR := true, ERRCODE := 4 } 64 0x0C07)) = some (0x0C07, (0x0402, 0)) := by decide

/-- V-C5 and V-C6: ILLEGAL words. -/
theorem test_illegal :
    look errorSeen (step (s0.withFetchWord 64 0x0C07)) = some (0x0102, 0x07) ∧
    look errorSeen
      (step (State.withFetchWord { s0 with ERR := true, ERRCODE := 1, ERR_INFO := 0x07 } 64 0x010E)) =
      some (0x0102, 0x07) := by decide

/-! ### The register space -/

/-- V-C8 and V-C11. -/
theorem test_bus_writes :
    (poke 0x203 100 s0).SYMCNT = 64 ∧ (poke 0x203 0x85 s0).SYMCNT = 5 ∧ (poke 0x209 0x55 s0).OUTQ = [] ∧
    (poke 0x140 7 s0).QT[0][0] = 16 := by decide +kernel

/-- V-C9 and V-C10. -/
theorem test_bus_reads :
    peek 0x040 s0 = 0 ∧ peek 0x300 s0 = 0 ∧ peek 0x20D s0 = 0x4A50_4547_0007_0001 ∧ peek 0x20C s0 = 1024 ∧
    peek 0x209 { s0 with OUTQ := [0x2B] } = 0x012B ∧ (afterRead 0x209 { s0 with OUTQ := [0x2B] }).OUTQ = [] ∧
    peek 0x209 s0 = 0 := by decide

/-- V-C12 and L1-12. -/
theorem test_bus_elements :
    peek 0x0C0 (poke 0x0C0 0x0001_8000 s0) = 0xFFFF_FFFF_FFFF_8000 ∧
    peek 0x000 (poke 0x040 200 s0) = 0x4052_0000_0000_0000 ∧ peek 0x000 (poke 0x040 0 s0) = 0xC060_0000_0000_0000 ∧
    peek 0x000 (poke 0x040 0x1FF s0) = 0x405F_C000_0000_0000 := by decide

/-- R290 and R281: the two host hazards. -/
theorem test_hazards :
    step { hosted [.read 0x203] with mustPoll := true, BUSY := true, latLeft := 3 } = .fault .busyHazard ∧
    step { hosted [.write 0x000 1] with inReset := true } = .fault .accessDuringReset := ⟨rfl, rfl⟩

/-! ### Witnesses: concrete states and operands that meet every hypothesis of a statement, clause by clause -/

/-- A state whose tables are those of reset is well-formed (R40) when the rest of it is. -/
theorem wf_of (s : State) (hqt : s.QT = State.reset.QT) (hq : s.QUAL = State.reset.QUAL) (hc : s.SYMCNT.toNat ≤ 64)
    (hp : s.ACC.toNat < 2 ^ s.NBITS.toNat) (ho : s.OUTQ.length ≤ Config.outCap) (he : s.ERR = false → s.ERRCODE = 0) : s.Wf :=
  ⟨by rw [hqt]; decide +kernel, by rw [hq]; decide, hc, hp, ho, he⟩

theorem witness_ExampleEncodingsOfTheSpec : ((0x0000_0000_0000_0C07, none) : Word × Option Instr) ∈ exampleWords ∧
    ((0x0000_0000_0000_0003, some (.qtbuild .luma 0)) : Word × Option Instr) ∈ exampleWords := by decide

theorem witness_DecodeReadsBackEveryEncoding :
    WellFormed (.wrbits 16 0xFFFF) = true ∧ WellFormed (.wrbits 0 0) = true ∧ WellFormed (.qtbuild .chroma 127) = true := by decide

theorem witness_DecodedWordIsTheOnlyEncoding :
    decode 0xFFFF_100A = .ok (.wrbits 16 0xFFFF) ∧ decode 0x007F_0103 = .ok (.qtbuild .chroma 127) := ⟨rfl, rfl⟩

theorem witness_IllegalWordsAreExactlyThoseOfTheRule :
    Illegal 0x10 ∧ Illegal 0xFF ∧ Illegal 0x0100 ∧ Illegal 0x8000_0000_0000_0001 ∧ Illegal 0x0C07 ∧ Illegal 0x0C09 ∧
    Illegal 0x110A ∧ ¬ Illegal 0x100A ∧ ∃ e, decode 0x110A = .error e := by
  refine ⟨.inl rfl, .inl rfl, .inr (.inl ⟨bitRange 8 63, rfl, by decide⟩), .inr (.inl ⟨bitRange 8 63, rfl, by decide⟩),
    .inr (.inr (.inl (by decide))), .inr (.inr (.inl (by decide))), .inr (.inr (.inr (by decide))), ?_, _, rfl⟩
  rintro (h | ⟨l, h, j, hj, hb⟩ | h | h)
  · revert h; decide
  · have hl : l = bitRange 32 63 ++ bitRange 13 15 := (Option.some.inj h).symm
    subst hl
    have : ∀ j ∈ bitRange 32 63 ++ bitRange 13 15, (0x100A : Word).getLsbD j = false := by decide
    rw [this j hj] at hb; cases hb
  · revert h; decide
  · revert h; decide

theorem witness_StepRunsTheDecodedCommand :
    ∃ s : State, s.hostq = .write 0x200 0x0E :: [] ∧ s.inReset = false ∧ s.mustPoll = false ∧ s.BUSY = false ∧ s.ERR = true ∧
      (0x0E : Word).extractLsb' 0 8 = 0x0E ∧ decode 0x0E = .ok .clrerr :=
  ⟨{ hosted [.write 0x200 0x0E] with ERR := true }, by decide⟩

theorem witness_StepRunsTheDecodedCommand_no_error :
    ∃ s : State, s.hostq = .write 0x200 0xFFFF_100A :: [] ∧ s.inReset = false ∧ s.mustPoll = false ∧ s.BUSY = false ∧
      s.ERR = false ∧ decode 0xFFFF_100A = .ok (.wrbits 16 0xFFFF) := ⟨hosted [.write 0x200 0xFFFF_100A], by decide⟩

theorem witness_CmdWriteFollowsTheAcceptanceRule :
    (∃ s : State, s.hostq = .write 0x200 1 :: [] ∧ s.inReset = false ∧ s.mustPoll = true) ∧
    (∃ s : State, s.hostq = .write 0x200 1 :: [] ∧ s.inReset = false ∧ s.mustPoll = false ∧ s.BUSY = false ∧ s.ERR = true ∧
      (1 : Word).extractLsb' 0 8 ≠ 0x0E ∧ (1 : Word).extractLsb' 0 8 ≠ 0x0F) ∧
    (∃ s : State, s.hostq = .write 0x200 0x010E :: [] ∧ s.inReset = false ∧ s.mustPoll = false ∧ s.BUSY = false ∧ s.ERR = true ∧
      ∃ e, decode 0x010E = .error e) ∧
    (∃ s : State, s.hostq = .write 0x200 0x0100 :: [] ∧ s.inReset = false ∧ s.mustPoll = false ∧ s.BUSY = false ∧
      s.ERR = false ∧ ∃ e, decode 0x0100 = .error e) ∧
    ∃ s : State, s.hostq = .write 0x200 0x0F :: [] ∧ s.inReset = false ∧ s.mustPoll = false ∧ s.BUSY = false ∧
      (0x0F : Word).extractLsb' 0 8 = 0x0F ∧ decode 0x0F = .ok .sreset :=
  ⟨⟨{ hosted [.write 0x200 1] with mustPoll := true }, rfl, rfl, rfl⟩,
   ⟨{ hosted [.write 0x200 1] with ERR := true }, by decide⟩,
   ⟨{ hosted [.write 0x200 0x010E] with ERR := true }, rfl, rfl, rfl, rfl, rfl, _, rfl⟩,
   ⟨hosted [.write 0x200 0x0100], rfl, rfl, rfl, rfl, rfl, _, rfl⟩, ⟨hosted [.write 0x200 0x0F], by decide⟩⟩

theorem witness_TransformsOfSpecialBlocks :
    (∃ s t : State, f64Unpack s.S[(5 : Fin 64)] = .nan ∧ exec .fdct s = .next t) ∧
    (∃ s t : State, f64Unpack s.C[(63 : Fin 64)] = .nan ∧ exec .idct s = .next t) ∧
    (∃ s t : State, (∀ k : Fin 64, s.S[k] = 0 ∨ s.S[k] = 0x8000_0000_0000_0000) ∧ exec .fdct s = .next t) ∧
    ∃ s t : State, (∀ k : Fin 64, s.C[k] = 0 ∨ s.C[k] = 0x8000_0000_0000_0000) ∧ exec .idct s = .next t :=
  ⟨⟨{ s0 with S := blockWith 0 [(5, 0x7FF8_0000_0000_0000)] }, _, by decide +kernel, rfl⟩,
   ⟨{ s0 with C := blockWith 0 [(63, 0xFFF0_0000_0000_0001)] }, _, by decide +kernel, rfl⟩,
   ⟨{ s0 with S := blockWith 0 [(3, 0x8000_0000_0000_0000)] }, _, by decide +kernel, rfl⟩,
   ⟨{ s0 with C := blockWith 0x8000_0000_0000_0000 [(3, 0)] }, _, by decide +kernel, rfl⟩⟩

/-- V-T6: an infinity, and two of opposite signs, in a block of zeros. -/
def infiniteState : State :=
  { s0 with
    S := blockWith 0 [(0, 0x7FF0_0000_0000_0000)]
    C := blockWith 0x8000_0000_0000_0000 [(0, 0x7FF0_0000_0000_0000), (1, 0xFFF0_0000_0000_0000)] }

theorem zeroOrInfinite_of {w : Word} (h : w ∈ [(0 : Word), 0x8000_0000_0000_0000, 0x7FF0_0000_0000_0000, 0xFFF0_0000_0000_0000]) :
    ZeroOrInfinite w := by
  have hz : f64Unpack 0 = .num false 0 0 ∧ f64Unpack 0x8000_0000_0000_0000 = .num true 0 0 ∧
      f64Unpack 0x7FF0_0000_0000_0000 = .inf false ∧ f64Unpack 0xFFF0_0000_0000_0000 = .inf true := by decide
  simp only [List.mem_cons, List.not_mem_nil, or_false] at h
  rcases h with rfl | rfl | rfl | rfl
  · exact .inl ⟨_, hz.1⟩
  · exact .inl ⟨_, hz.2.1⟩
  · exact .inr ⟨_, hz.2.2.1⟩
  · exact .inr ⟨_, hz.2.2.2⟩

theorem witness_TransformsOfSpecialBlocks_infinite :
    (∃ t : State, f64Unpack infiniteState.S[(0 : Fin 64)] = .inf false ∧ (∀ k : Fin 64, ZeroOrInfinite infiniteState.S[k]) ∧
      exec .fdct infiniteState = .next t) ∧
    (∃ t : State, f64Unpack infiniteState.C[(0 : Fin 64)] = .inf false ∧ f64Unpack infiniteState.C[(1 : Fin 64)] = .inf true ∧
      (∀ k : Fin 64, ZeroOrInfinite infiniteState.C[k]) ∧ exec .idct infiniteState = .next t) :=
  ⟨⟨_, by decide +kernel,
      fun k => zeroOrInfinite_of ((by decide +kernel : ∀ k : Fin 64, infiniteState.S[k] ∈ _) k), rfl⟩,
   ⟨_, by decide +kernel, by decide +kernel,
      fun k => zeroOrInfinite_of ((by decide +kernel : ∀ k : Fin 64, infiniteState.C[k] ∈ _) k), rfl⟩⟩

/-- The premises of `InfinitySum`: one infinite term, and two whose signs agree, or differ. -/
theorem witness_TransformsOfSpecialBlocks_signs :
    termNeg false (cosPattern 0 0) (cosPattern 0 0) = false ∧ termNeg true (cosPattern 0 0) (cosPattern 0 0) = true ∧
    termNeg false (cosPattern 7 1) (cosPattern 7 1) = false ∧ termNeg false (cosPattern 0 0) (cosPattern 7 1) = true := by decide

theorem witness_ArithmeticRoundsToNearestEven :
    Canonical (2 ^ 53 - 1) 2045 ∧ Canonical (2 ^ 52) 0 ∧ Canonical 1 0 ∧ Canonical 0 0 ∧ (1 : Nat) ≠ 0 := by
  unfold Canonical; decide

/-- A sum that is 0 exactly, a product that underflows to a zero, a quotient. -/
theorem witness_ArithmeticRoundsToNearestEven_signs :
    value false 1 0 + value true 1 0 = 0 ∧ fmul (.num true 1 0) (.num false 1 0) = .num true 0 0 ∧
    fdiv (.num true 1 0) (.num true 1 0) = .num false (2 ^ 52) 1022 := by
  refine ⟨?_, by decide +kernel, by decide +kernel⟩
  simp [value]

theorem witness_ConversionsAreExact :
    f64Unpack 0xFFF0_0000_0000_0000 ≠ .nan ∧ f64Unpack 0x7FEF_FFFF_FFFF_FFFF = .num false (2 ^ 53 - 1) 2045 ∧
    f64Unpack 0x8000_0000_0000_0001 = .num true 1 0 ∧ |(-(2 ^ 53 - 1) : ℤ)| < 2 ^ 53 := by decide +kernel

theorem witness_QtbuildFollowsItsRule :
    (1 ≤ (1 : BitVec 7).toNat ∧ (1 : BitVec 7).toNat ≤ 100) ∧ (1 ≤ (100 : BitVec 7).toNat ∧ (100 : BitVec 7).toNat ≤ 100) ∧
    ((0 : BitVec 7).toNat = 0) ∧ 100 < (101 : BitVec 7).toNat ∧ s0.ERR = false ∧ TableClass.chroma ≠ .luma := by decide

theorem witness_HigherQualityNeverRaisesADivisor :
    ∃ t1 t2 : State, 1 ≤ (1 : BitVec 7).toNat ∧ (1 : BitVec 7).toNat < (100 : BitVec 7).toNat ∧ (100 : BitVec 7).toNat ≤ 100 ∧
      exec (.qtbuild .luma 1) s0 = .next t1 ∧ exec (.qtbuild .luma 100) s0 = .next t2 :=
  ⟨_, _, by decide, by decide, by decide, rfl, rfl⟩

/-- Quotients that round to the ends of int16 (V-Q3). -/
def edgeState : State :=
  { s0 with QT := unitTables, C := blockWith 0 [(0, 0xC0E0_000C_CCCC_CCCD), (1, 0x40DF_FFD9_9999_999A)] }

/-- Quotients that round past them at index 2 (V-Q3), and a NaN at 5. -/
def badState : State :=
  { s0 with QT := unitTables, C := blockWith 0 [(2, 0x40DF_FFE0_0000_0000), (5, 0x7FF8_0000_0000_0000)] }

theorem witness_QuantFollowsItsRule :
    (∃ r : Fin 64 → ℤ, (∀ k : Fin 64, rha (fdiv (f64Unpack edgeState.C[k]) (i2f (edgeState.qtOf .luma)[k].toNat)) = some (r k) ∧
      -32768 ≤ r k ∧ r k ≤ 32767) ∧ r 0 = -32768 ∧ r 1 = 32767) ∧
    (badState.ERR = false ∧
      (∀ r, rha (fdiv (f64Unpack badState.C[(2 : Fin 64)]) (i2f (badState.qtOf .luma)[(2 : Fin 64)].toNat)) = some r →
        r < -32768 ∨ 32767 < r) ∧
      ∀ j : Fin 64, j < 2 → ∃ r, rha (fdiv (f64Unpack badState.C[j]) (i2f (badState.qtOf .luma)[j].toNat)) = some r ∧
        -32768 ≤ r ∧ r ≤ 32767) ∧
    1 ≤ (1 : Byte).toNat ∧ 1 ≤ (255 : Byte).toNat := by
  refine ⟨⟨fun k => if k = 0 then -32768 else if k = 1 then 32767 else 0, by decide +kernel, rfl, rfl⟩,
    ⟨rfl, ?_, ?_⟩, by decide, by decide⟩
  · have h : rha (fdiv (f64Unpack badState.C[(2 : Fin 64)]) (i2f (badState.qtOf .luma)[(2 : Fin 64)].toNat)) = some 32768 := by
      decide +kernel
    intro r hr
    rw [h] at hr
    exact .inr (by injection hr with hr; omega)
  · have h : ∀ j : Fin 64, j < 2 → rha (fdiv (f64Unpack badState.C[j]) (i2f (badState.qtOf .luma)[j].toNat)) = some 0 := by
      decide +kernel
    exact fun j hj => ⟨0, h j hj, by omega, by omega⟩

theorem witness_QuantFollowsItsRule_nan :
    ∀ r, rha (fdiv (f64Unpack badState.C[(5 : Fin 64)]) (i2f (badState.qtOf .luma)[(5 : Fin 64)].toNat)) ≠ some r := by
  have h : rha (fdiv (f64Unpack badState.C[(5 : Fin 64)]) (i2f (badState.qtOf .luma)[(5 : Fin 64)].toNat)) = none := by
    decide +kernel
  intro r hr
  rw [h] at hr
  cases hr

theorem witness_ZigzagTableIsTheAntiDiagonalScan : (1 : Fin 64).val = (0 : Fin 64).val + 1 ∧ (63 : Fin 64).val = (62 : Fin 64).val + 1 := by
  decide

theorem witness_ZigzagReordersIntoScanOrder : ∃ s : State, ∀ k : Fin 64, s.QB[k].toNat = k.val :=
  ⟨{ s0 with QB := tabulate fun k => BitVec.ofNat 16 k.val }, by decide +kernel⟩

theorem witness_UnzigzagRestoresNaturalOrder : ∃ s : State, ∀ i : Fin 64, s.ZB[i].toNat = i.val :=
  ⟨{ s0 with ZB := tabulate fun k => BitVec.ofNat 16 k.val }, by decide +kernel⟩

theorem witness_ZigzagRoundTrips :
    (∃ t u : State, exec .unzigzag s0 = .next t ∧ exec .zigzag t = .next u) ∧
    ∃ t u : State, exec .zigzag s0 = .next t ∧ exec .unzigzag t = .next u := ⟨⟨_, _, rfl, rfl⟩, _, _, rfl, rfl⟩

theorem witness_CategoryIsTheBitLength :
    |(-65535 : ℤ)| ≤ 65535 ∧ |(65535 : ℤ)| < 2 ^ 16 ∧ (1024 ≤ |(-1024 : ℤ)| ∧ |(-1024 : ℤ)| ≤ 2047) ∧ |(-2048 : ℤ)| = 2048 := by decide

theorem witness_AmplitudeBitsDetermineTheValue :
    (0 : ℤ) < 1 ∧ (-1 : ℤ) < 0 ∧ category (-1) = category (-1) ∧ amp (-1) (category (-1)) = amp (-1) (category (-1)) := by decide

theorem witness_SymbolWordHoldsItsFields :
    15 < 16 ∧ 31 < 32 ∧ (-2 ^ 31 : ℤ) ≤ -2 ^ 31 ∧ (-2 ^ 31 : ℤ) < 2 ^ 31 ∧ (-2 ^ 31 : ℤ) ≤ 2 ^ 31 - 1 ∧ (2 ^ 31 - 1 : ℤ) < 2 ^ 31 := by
  decide

theorem witness_SymbWritesTheSymbols :
    ∃ t : State, exec (.symb .y) s0 = .next t ∧ t.SYMCNT.toNat ≤ (2 : Fin 64).val ∧ Component.cr ≠ .y := ⟨_, rfl, by decide +kernel⟩

/-- A block with nonzero AC coefficients at 5 and 63, and one with none. -/
theorem witness_SymbWritesTheSymbols_positions :
    (∃ s : State, [(5 : Fin 64), 63].Pairwise (· < ·) ∧ ∀ k : Fin 64, k ∈ [(5 : Fin 64), 63] ↔ k ≠ 0 ∧ s.ZB[k] ≠ 0) ∧
    ([] : List (Fin 64)).Pairwise (· < ·) ∧ ∀ k : Fin 64, k ∈ ([] : List (Fin 64)) ↔ k ≠ 0 ∧ s0.ZB[k] ≠ 0 :=
  ⟨⟨{ s0 with ZB := blockWith 0 [(0, 9), (5, 1), (63, -1)] }, by decide +kernel⟩, by decide +kernel⟩

theorem witness_SymbolListBounds :
    (symbolize (blockWith 0 [(63, -1)]) 0)[3]? = some 0x0002_0F00_0000_0000 ∧ symKind 0x0002_0F00_0000_0000 = .zrl ∧
    (symbolize (blockWith 0 [(63, -1)]) 0).head? = some 0 ∧ 0x0001_0E01_FFFF_FFFF ∈ (symbolize (blockWith 0 [(63, -1)]) 0).tail ∧
    symKind 0x0001_0E01_FFFF_FFFF = .ac := by decide +kernel

theorem witness_AllZeroAcGivesOneEndOfBlock : ∃ z : Block Half, (∀ i : Fin 64, i ≠ 0 → z[i] = 0) ∧ z[0] = -32768 :=
  ⟨blockWith 0 [(0, -32768)], by decide +kernel⟩

/-- A last nonzero coefficient at 1, 62 and 63. -/
theorem witness_AllZeroAcGivesOneEndOfBlock_last :
    ∀ j ∈ [(1 : Fin 64), 62, 63], ∃ z : Block Half, j ≠ 0 ∧ z[j] ≠ 0 ∧ ∀ k : Fin 64, j < k → z[k] = 0 := by
  intro j hj
  refine ⟨blockWith 0 [(j.val, 1)], ?_⟩
  revert j
  decide +kernel

theorem witness_ZeroRunsGiveEscapesAndRemainder :
    ∃ z : Block Half,
      ((0 : Fin 64) < 5 ∧ (∀ k : Fin 64, 0 < k → k < 5 → z[k] = 0) ∧ z[(5 : Fin 64)] ≠ 0) ∧
      ((5 : Fin 64) < 6 ∧ z[(5 : Fin 64)] ≠ 0 ∧ (∀ k : Fin 64, 5 < k → k < 6 → z[k] = 0) ∧ z[(6 : Fin 64)] ≠ 0) ∧
      (6 : Fin 64) < 63 ∧ z[(6 : Fin 64)] ≠ 0 ∧ (∀ k : Fin 64, 6 < k → k < 63 → z[k] = 0) ∧ z[(63 : Fin 64)] ≠ 0 :=
  ⟨blockWith 0 [(5, 1), (6, 2), (63, 3)], by decide +kernel⟩

theorem witness_SymbolsDetermineTheBlock : symbolize (Vector.replicate 64 7) 7 = symbolize (Vector.replicate 64 7) 7 := rfl

theorem witness_CodeTablesAreCanonicalAndPrefixFree :
    dcRows .luma ∈ [dcRows .luma, acRows .luma] ∧ (⟨0x0B, 9, 0b111111110⟩ : CodeRow) ∈ dcRows .luma ∧
    (⟨0xF0, 11, 0b11111111001⟩ : CodeRow) ∈ acRows .luma := by decide +kernel

/-- `Codable` as a test. -/
def codable (w : Word) : Bool :=
  (symKind w != .dc || decide (symSize w ≤ 11)) && (symKind w != .ac || decide (1 ≤ symSize w ∧ symSize w ≤ 10))

theorem codable_iff (w : Word) : Codable w ↔ codable w = true := by
  unfold Codable codable; cases symKind w <;> simp

theorem codable_all {l : List Word} (h : l.all codable = true) : ∀ w ∈ l, Codable w := fun w hw =>
  (codable_iff w).mpr (List.all_eq_true.mp h w hw)

theorem not_codable {w : Word} (h : codable w = false) : ¬ Codable w := by rw [codable_iff, h]; decide

/-- Symbols of every kind, at the ends of the category ranges. -/
def codableState : State :=
  { s0 with
    SYMBUF := blockWith 0
      [(0, 0x0000_000B_0000_0400), (1, 0x0001_0001_0000_0001), (2, 0x0002_0F00_0000_0000), (3, 0x0001_0F0A_0000_0200),
       (4, 0x0003_0000_0000_0000)]
    SYMCNT := 5, OUTQ := List.replicate 608 0 }

theorem witness_HuffAppendsTheCodes :
    codableState.Wf ∧ (∀ w ∈ codableState.symbols, Codable w) ∧ codableState.OUTQ.length + 416 ≤ Config.outCap :=
  ⟨wf_of _ rfl rfl (by decide) (by decide) (by decide +kernel) (by decide), codable_all (by decide +kernel), by decide +kernel⟩

theorem witness_HuffRaisesCategoryAtTheLowestIndex :
    ∃ s : State, s.ERR = false ∧ s.symbols[1]? = some 0x0001_0000_0000_0000 ∧ ¬ Codable 0x0001_0000_0000_0000 ∧
      ∀ w' ∈ s.symbols.take 1, Codable w' :=
  ⟨{ s0 with SYMBUF := blockWith 0 [(1, 0x0001_0000_0000_0000)], SYMCNT := 2 }, rfl, by decide +kernel,
   not_codable (by decide), codable_all (by decide +kernel)⟩

theorem witness_HuffRaisesCategoryAtTheLowestIndex_edges :
    ¬ Codable 0x0001_000B_0000_0000 ∧ ¬ Codable 0x0000_000C_0000_0000 ∧
    ∃ s : State, s.ERR = false ∧ s.symbols[0]? = some 0x0000_000C_0000_0000 ∧ ∀ w' ∈ s.symbols.take 0, Codable w' :=
  ⟨not_codable (by decide), not_codable (by decide),
   { s0 with SYMBUF := blockWith 0 [(0, 0x0000_000C_0000_0000)], SYMCNT := 1 }, rfl, by decide +kernel, codable_all (by decide +kernel)⟩

theorem witness_EncblkIsSymbThenHuffInOneCommit :
    ∃ s : State, s.Wf ∧ (∀ w ∈ symbolize s.ZB (s.predOf .y), Codable w) ∧ s.OUTQ.length + 416 ≤ Config.outCap :=
  ⟨{ s0 with ZB := blockWith 0 [(0, 2047), (1, 1023), (63, -1)], OUTQ := List.replicate 608 0 },
    wf_of _ rfl rfl (by decide) (by decide) (by decide +kernel) (by decide), codable_all (by decide +kernel), by decide +kernel⟩

/-- The separate commands fill the queue to its last byte: V2's block with one byte of room. -/
theorem witness_EncblkIsSymbThenHuffInOneCommit_fits :
    ∃ s m t : State, s.ERR = false ∧ exec (.symb .y) s = .next m ∧ exec (.huff .luma) m = .next t ∧ t.ERR = false ∧
      t.OUTQ.length = 1024 := by
  have h : look (fun m => look (fun t => (t.ERR, t.OUTQ.length)) (exec (.huff .luma) m))
      (exec (.symb .y) { s0 with ZB := blockWith 0 [(0, 36)], OUTQ := List.replicate 1023 0 }) = some (some (false, 1024)) := by
    decide +kernel
  obtain ⟨m, hm, h'⟩ := look_some h
  obtain ⟨t, ht, he⟩ := look_some h'
  injection he with h1 h2
  exact ⟨_, m, t, rfl, hm, ht, h1, h2⟩

/-- A lookup miss, and a full queue. -/
theorem witness_EncblkIsSymbThenHuffInOneCommit_fails :
    (∃ s m t : State, s.ERR = false ∧ exec (.symb .y) s = .next m ∧ exec (.huff .luma) m = .next t ∧ t.ERR = true ∧
      t.ERRCODE = 4) ∧
    ∃ s m t : State, s.ERR = false ∧ exec (.symb .cb) s = .next m ∧ exec (.huff .chroma) m = .next t ∧ t.ERR = true ∧
      t.ERRCODE = 5 := by
  constructor
  · have h : look (fun m => look (fun t => (t.ERR, t.ERRCODE)) (exec (.huff .luma) m))
        (exec (.symb .y) { s0 with ZB := blockWith 0 [(0, -2048)] }) = some (some (true, 4)) := by decide +kernel
    obtain ⟨m, hm, h'⟩ := look_some h
    obtain ⟨t, ht, he⟩ := look_some h'
    injection he with h1 h2
    exact ⟨_, m, t, rfl, hm, ht, h1, h2⟩
  · have h : look (fun m => look (fun t => (t.ERR, t.ERRCODE)) (exec (.huff .chroma) m))
        (exec (.symb .cb) { s0 with ZB := blockWith 0 [(0, 1500)], OUTQ := List.replicate 1024 0 }) =
        some (some (true, 5)) := by decide +kernel
    obtain ⟨m, hm, h'⟩ := look_some h
    obtain ⟨t, ht, he⟩ := look_some h'
    injection he with h1 h2
    exact ⟨_, m, t, rfl, hm, ht, h1, h2⟩

theorem witness_CodedBlockIsUniquelyDecodable :
    (∀ w ∈ symbolize (blockWith 0 [(0, 2047), (1, 1023), (63, -1)]) 0, Codable w) ∧
    streamBits .luma (symbolize (blockWith 0 [(0, 2047), (1, 1023), (63, -1)]) 0) ++ [true] =
      streamBits .luma (symbolize (blockWith 0 [(0, 2047), (1, 1023), (63, -1)]) 0) ++ [true] :=
  ⟨codable_all (by decide +kernel), rfl⟩

theorem witness_WrbitsAppendsTheLowBits :
    ∃ s : State, s.Wf ∧ (16 : BitVec 5).toNat ≤ 16 ∧ (0 : BitVec 5).toNat ≤ 16 ∧ s.OUTQ.length + 4 ≤ Config.outCap :=
  ⟨{ s0 with OUTQ := List.replicate 1020 0, NBITS := 7, ACC := 127 },
   wf_of _ rfl rfl (by decide) (by decide) (by decide +kernel) (by decide), by decide, by decide, by decide +kernel⟩

theorem witness_FlushPadsWithOnes :
    (s0.Wf ∧ s0.NBITS = 0) ∧
    (∃ s : State, s.Wf ∧ s.NBITS ≠ 0 ∧ BitVec.ofNat 8 ((s.ACC.toNat + 1) * 2 ^ (8 - s.NBITS.toNat) - 1) = 0xFF ∧
      s.OUTQ.length + 2 ≤ Config.outCap) ∧
    ∃ s : State, s.Wf ∧ s.NBITS ≠ 0 ∧ BitVec.ofNat 8 ((s.ACC.toNat + 1) * 2 ^ (8 - s.NBITS.toNat) - 1) ≠ 0xFF ∧
      s.OUTQ.length + 1 = Config.outCap :=
  ⟨⟨wf_of _ rfl rfl (by decide) (by decide) (by decide +kernel) (by decide), rfl⟩,
   ⟨{ s0 with OUTQ := List.replicate 1022 0, NBITS := 7, ACC := 127 },
    wf_of _ rfl rfl (by decide) (by decide) (by decide +kernel) (by decide), by decide, by decide, by decide +kernel⟩,
   ⟨{ s0 with OUTQ := List.replicate 1023 0, NBITS := 1, ACC := 0 },
    wf_of _ rfl rfl (by decide) (by decide) (by decide +kernel) (by decide), by decide, by decide, by decide +kernel⟩⟩

/-- A queue with room for no byte, and symbols to code. -/
def fullState : State :=
  { s0 with
    OUTQ := List.replicate 1024 0, NBITS := 7, ACC := 127
    SYMBUF := blockWith 0 [(0, 0x0000_0006_0000_0024), (1, 0x0003_0000_0000_0000)], SYMCNT := 2
    ZB := blockWith 0 [(0, 36)] }

/-- The bytes that items would add to a state's stream. -/
def newBytes (s : State) (items : List CodeItem) : Nat := (pack s.ACC.toNat s.NBITS.toNat items).bytes.length

/-- The items of fullState's symbols, and of the block of V2. -/
def v2Items : List CodeItem := [⟨4, 0b1110⟩, ⟨6, 0b100100⟩, ⟨4, 0b1010⟩]

theorem witness_CapacityIsAllOrNothing :
    fullState.ERR = false ∧
    (Config.outCap < fullState.OUTQ.length + newBytes fullState [⟨(16 : BitVec 5).toNat, (0xFFFF : BitVec 16).toNat % 2 ^ (16 : BitVec 5).toNat⟩]) ∧
    (fullState.NBITS ≠ 0 ∧ Config.outCap < fullState.OUTQ.length +
      newBytes fullState [⟨8 - fullState.NBITS.toNat, 2 ^ (8 - fullState.NBITS.toNat) - 1⟩]) ∧
    (codeFrom .luma 0 fullState.symbols = .ok v2Items ∧ codeFrom .luma 0 (symbolize fullState.ZB (fullState.predOf .y)) = .ok v2Items ∧
      Config.outCap < fullState.OUTQ.length + newBytes fullState v2Items) ∧
    ∃ t : State, fullState.OUTQ.length ≤ Config.outCap ∧ exec .bwreset fullState = .next t :=
  ⟨rfl, by decide +kernel, by decide +kernel, by decide +kernel, _, by decide +kernel, rfl⟩

/-- V-B12 and its kin: the bytes fill the queue exactly. -/
theorem witness_CapacityIsAllOrNothing_fits :
    (∃ s : State, s.Wf ∧ s.OUTQ.length = 1023 ∧
      s.OUTQ.length + newBytes s [⟨(8 : BitVec 5).toNat, (0 : BitVec 16).toNat % 2 ^ (8 : BitVec 5).toNat⟩] = Config.outCap ∧
      codeFrom .luma 0 s.symbols = .ok v2Items ∧ codeFrom .luma 0 (symbolize s.ZB (s.predOf .y)) = .ok v2Items ∧
      s.OUTQ.length + newBytes s v2Items = Config.outCap) ∧
    ∃ s : State, s.Wf ∧ s.NBITS ≠ 0 ∧
      s.OUTQ.length + newBytes s [⟨8 - s.NBITS.toNat, 2 ^ (8 - s.NBITS.toNat) - 1⟩] = Config.outCap :=
  ⟨⟨{ fullState with OUTQ := List.replicate 1023 0, NBITS := 0, ACC := 0 },
    wf_of _ rfl rfl (by decide) (by decide) (by decide +kernel) (by decide), by decide +kernel⟩,
   ⟨{ s0 with OUTQ := List.replicate 1022 0, NBITS := 3, ACC := 7 },
    wf_of _ rfl rfl (by decide) (by decide) (by decide +kernel) (by decide), by decide +kernel⟩⟩

theorem witness_OutputBoundsPerCommand :
    ∃ t : State, s0.Wf ∧ WellFormed (.wrbits 16 0xFFFF) = true ∧ exec (.wrbits 16 0xFFFF) s0 = .next t ∧ s0.OUTQ = [] ∧ s0.ERR = false :=
  ⟨_, wf_of _ rfl rfl (by decide) (by decide) (by decide +kernel) (by decide), by decide, rfl, rfl, rfl⟩

/-- One state for each code a command records, and a command that records it. -/
theorem witness_ErrorsArePreciseAndRecorded :
    ([(.qtbuild .luma 101, s0), (.quant .luma, badState), (.encblk .y .luma, { s0 with ZB := blockWith 0 [(0, -2048)] }),
      (.flush, fullState)].map fun p : Instr × State => (p.2.ERR, look (fun t => (t.ERR, t.ERRCODE)) (exec p.1 p.2))) =
    [(false, some (true, 2)), (false, some (true, 3)), (false, some (true, 4)), (false, some (true, 5))] := by decide +kernel

theorem witness_OnlyThreeEventsClearAnError :
    (∃ s t : State, step s = .next t ∧ s.ERR = true ∧ s.hostq = [.read 0x202]) ∧
    (∃ s t : State, step s = .next t ∧ s.ERR = true ∧ s.hostq = [.write 0x200 0xE]) ∧
    (∃ s t : State, step s = .next t ∧ s.ERR = true ∧ s.hostq = [.write 0x200 0xF]) ∧
    ∃ s t : State, step s = .next t ∧ s.ERR = true ∧ s.hostq = [.releaseReset] ∧ s.inReset = true :=
  ⟨⟨{ hosted [.read 0x202] with ERR := true }, _, rfl, rfl, rfl⟩,
   ⟨{ hosted [.write 0x200 0xE] with ERR := true }, _, rfl, rfl, rfl⟩,
   ⟨{ hosted [.write 0x200 0xF] with ERR := true }, _, rfl, rfl, rfl⟩,
   ⟨{ hosted [.releaseReset] with ERR := true, inReset := true }, _, rfl, rfl, rfl, rfl⟩⟩

theorem witness_RegistersReadTheirFields :
    (∃ s : State, s.BUSY = false ∧ s.OUTQ.length ≤ Config.outCap ∧ s.OUTQ.length = 1024) ∧ ∃ s : State, s.BUSY = true :=
  ⟨⟨fullState, rfl, by decide +kernel, by decide +kernel⟩, { s0 with BUSY := true }, rfl⟩

theorem witness_WriteChangesOnlyItsElement :
    ((0x07F : BusAddr) ≠ 0x200 ∧ (0x07F : BusAddr) ≠ 0x03E ∧ ¬ (0x040 ≤ (0x07F : BusAddr).toNat ∧ (0x07F : BusAddr).toNat < 0x080 ∧
      (0x03E : BusAddr).toNat + 0x040 = (0x07F : BusAddr).toNat)) ∧
    (0x080 : BusAddr) ≠ 0x200 ∧ (0x080 : BusAddr) ≠ 0x040 ∧ ¬ (0x040 ≤ (0x080 : BusAddr).toNat ∧ (0x080 : BusAddr).toNat < 0x080 ∧
      (0x040 : BusAddr).toNat + 0x040 = (0x080 : BusAddr).toNat) := by decide

theorem witness_ReservedAndReadOnlyAddresses :
    ([0x20E, 0x3FF, 0x040, 0x07F].all fun a : BusAddr => 0x20E ≤ a.toNat || (0x040 ≤ a.toNat && a.toNat < 0x080)) = true ∧
    ([0x20E, 0x3FF, 0x140, 0x1BF, 0x201, 0x202, 0x204, 0x20D].all fun a : BusAddr =>
      0x20E ≤ a.toNat || (0x140 ≤ a.toNat && a.toNat < 0x1C0) || (0x201 ≤ a.toNat && a.toNat < 0x203) ||
        (0x204 ≤ a.toNat && a.toNat < 0x20E)) = true := by decide

theorem witness_ReadOfOutDataPopsOneByte :
    s0.OUTQ = [] ∧ (∃ s : State, s.OUTQ = 0x2B :: []) ∧ (0x208 : BusAddr) ≠ 0x209 := ⟨rfl, ⟨{ s0 with OUTQ := [0x2B] }, rfl⟩, by decide⟩

theorem witness_CommandsChangeOnlyTheirWindows :
    (∃ t : State, exec .fdct s0 = .next t ∧ windowOf (targetOf 0x000) ∉ windowsOf .fdct ∧ windowOf (targetOf 0x203) ∉ windowsOf .fdct) ∧
    ∃ t : State, exec .sreset s0 = .next t ∧ windowOf (targetOf 0x200) ∉ windowsOf .sreset := ⟨⟨_, rfl, by decide, by decide⟩, _, rfl, by decide⟩

theorem witness_StepStopsExactlyAtHostHazards :
    ({ hosted [.read 0x202] with mustPoll := true } : State).hazard = true ∧
    ({ hosted [.wait] with inReset := true } : State).hazard = true ∧
    ({ hosted [.read 0x201] with mustPoll := true, BUSY := true, latLeft := 1 } : State).hazard = false ∧
    (hosted [.write 0x200 0]).hazard = false := by decide

theorem witness_HostAccessesTakeEffectInOrder :
    (∃ s : State, s.inReset = false ∧ s.BUSY = false ∧ s.hostq = .read 0x209 :: [] ∧ s.mustPoll = false) ∧
    (∃ s : State, s.inReset = false ∧ s.BUSY = false ∧ s.hostq = .read 0x201 :: [] ∧ s.mustPoll = true) ∧
    ∃ s : State, s.inReset = false ∧ s.BUSY = false ∧ s.hostq = .write 0x040 255 :: [] ∧ (0x040 : BusAddr) ≠ 0x200 ∧ s.mustPoll = false :=
  ⟨⟨hosted [.read 0x209], rfl, rfl, rfl, rfl⟩, ⟨{ hosted [.read 0x201] with mustPoll := true }, rfl, rfl, rfl, rfl⟩,
   ⟨hosted [.write 0x040 255], rfl, rfl, rfl, by decide, rfl⟩⟩

theorem witness_HostAccessesTakeEffectInOrder_polls :
    (∃ s : State, s.inReset = false ∧ s.BUSY = true ∧ s.hostq = .read 0x201 :: [] ∧ 1 < s.latLeft) ∧
    ∃ s : State, s.inReset = false ∧ s.BUSY = true ∧ s.hostq = .read 0x201 :: [] ∧ s.latLeft ≤ 1 :=
  ⟨⟨{ hosted [.read 0x201] with mustPoll := true, BUSY := true, latLeft := 2 }, by decide⟩,
   ⟨{ hosted [.read 0x201] with mustPoll := true, BUSY := true, latLeft := 1 }, by decide⟩⟩

theorem witness_CommandLineRunsToItsEnd_recovery :
    (∃ s t : State, WellFormed .clrerr = true ∧ s.hostq = commandLine .clrerr ++ [] ∧ s.inReset = false ∧ s.mustPoll = false ∧
      s.BUSY = false ∧ s.ERR = true ∧ exec .clrerr (accepted s (encode .clrerr) (.wait :: [])) = .next t) ∧
    ∃ s t : State, WellFormed .sreset = true ∧ s.hostq = commandLine .sreset ++ [] ∧ s.inReset = false ∧ s.mustPoll = false ∧
      s.BUSY = false ∧ s.ERR = true ∧ exec .sreset (accepted s (encode .sreset) (.wait :: [])) = .next t :=
  ⟨⟨{ hosted (commandLine .clrerr) with ERR := true }, _, rfl, rfl, rfl, rfl, rfl, rfl, rfl⟩,
   ⟨{ hosted (commandLine .sreset) with ERR := true }, _, rfl, rfl, rfl, rfl, rfl, rfl, rfl⟩⟩

/-- Boot with a command in flight and an error recorded; INIT; both ends of the qualities. -/
theorem witness_CommandLineRunsToItsEnd_procedures :
    (1 ≤ (1 : BitVec 7).toNat ∧ (100 : BitVec 7).toNat ≤ 100) ∧
    (∃ s : State, s.inReset = false ∧ s.hostq = bootLines true 100 ++ [.idle] ∧ s.BUSY = true ∧ s.mustPoll = true ∧ s.ERR = true) ∧
    (∃ s : State, s.inReset = false ∧ s.hostq = bootLines false 1 ++ [] ∧ s.BUSY = false) ∧
    ∃ s : State, s.inReset = false ∧ s.hostq = initLines 75 ++ [.drain] ∧ s.mustPoll = false ∧ s.BUSY = false :=
  ⟨by decide,
   ⟨{ hosted (bootLines true 100 ++ [.idle]) with BUSY := true, mustPoll := true, latLeft := 3, ERR := true }, rfl, rfl, rfl, rfl, rfl⟩,
   ⟨hosted (bootLines false 1), rfl, rfl, rfl⟩, ⟨hosted (initLines 75 ++ [.drain]), rfl, rfl, rfl, rfl⟩⟩

/-- R282, R283: the boot procedure from a core with an error recorded ends clean, with the tables of its quality. -/
theorem test_boot :
    (match core.run (bootLines false 75).length
        ({ hosted (bootLines false 75) with ERR := true, ERRCODE := 5, NBITS := 2, ACC := 1, OUTQ := [7] } : State) with
      | .next t => look (fun u => (errorSeen u, pendingOf u, u.OUTQ, u.QUAL.toList, u.QT[0][0])) (.next t)
      | .fault _ => none
      | .refused _ => none) = some ((0, 0), (0, 0), [], [75, 50], 8) := by decide +kernel

theorem witness_CommandLineRunsToItsEnd :
    ∃ s t : State, WellFormed (.wrbits 16 0xFFFF) = true ∧ s.hostq = commandLine (.wrbits 16 0xFFFF) ++ [.drain] ∧ s.inReset = false ∧
      s.mustPoll = false ∧ s.BUSY = false ∧ s.ERR = false ∧
      exec (.wrbits 16 0xFFFF) (accepted s (encode (.wrbits 16 0xFFFF)) (.wait :: [.drain])) = .next t :=
  ⟨hosted (commandLine (.wrbits 16 0xFFFF) ++ [.drain]), _, by decide, rfl, rfl, rfl, rfl, rfl, rfl⟩

theorem witness_DrainReadsEveryByteInOrder :
    ∃ s : State, s.hostq = .drain :: [] ∧ s.inReset = false ∧ s.mustPoll = false ∧ s.BUSY = false ∧ s.OUTQ = [0xE9, 0x2B] :=
  ⟨{ hosted [.drain] with OUTQ := [0xE9, 0x2B] }, rfl, rfl, rfl, rfl, rfl⟩

theorem witness_WindowClosesOnlyWhenStatusReadsIdle :
    (∃ s t : State, step s = .next t ∧ s.mustPoll = true ∧ t.mustPoll = false ∧ s.hostq = [.read 0x201] ∧ s.BUSY = true) ∧
    (∃ s t : State, step s = .next t ∧ s.mustPoll = true ∧ t.mustPoll = false ∧ s.hostq = [.wait] ∧ s.BUSY = true) ∧
    ∃ s t : State, step s = .next t ∧ s.mustPoll = true ∧ t.mustPoll = false ∧ s.hostq = [.releaseReset] ∧ s.inReset = true :=
  ⟨⟨{ hosted [.read 0x201] with mustPoll := true, BUSY := true, latLeft := 1 }, _, rfl, rfl, by decide, rfl, rfl⟩,
   ⟨{ hosted [.wait] with mustPoll := true, BUSY := true, latLeft := 9 }, _, rfl, rfl, by decide, rfl, rfl⟩,
   ⟨{ hosted [.releaseReset] with mustPoll := true, inReset := true }, _, rfl, rfl, by decide, rfl, rfl⟩⟩

theorem witness_CoreNeverActsUnasked :
    (∃ s t : State, step s = .next t ∧ s.hostq = [] ∧ s.BUSY = true) ∧
    (∃ s t : State, step s = .next t ∧ s.hostq.head? = some .idle ∧ s.BUSY = true) ∧
    ∃ s t : State, step s = .next t ∧ (∀ d rest, s.hostq ≠ .write 0x200 d :: rest) ∧ s.hostq = [.read 0x209] :=
  ⟨⟨{ s0 with BUSY := true, mustPoll := true, latLeft := 2 }, _, rfl, rfl, rfl⟩,
   ⟨{ hosted [.idle, .wait] with BUSY := true, mustPoll := true, latLeft := 2 }, _, rfl, rfl, rfl⟩,
   ⟨{ hosted [.read 0x209] with OUTQ := [1] }, _, rfl, fun d rest h => (by cases h), rfl⟩⟩

theorem witness_CommandEndsAfterItsLatency :
    (∃ s : State, s.hostq = [] ∧ s.inReset = false ∧ s.BUSY = true ∧ 1 ≤ s.latLeft ∧ 2 < s.latLeft) ∧
    ∃ s : State, s.hostq = [] ∧ s.inReset = false ∧ s.BUSY = true ∧ 1 ≤ s.latLeft ∧ 0 < s.latLeft ∧ s.latLeft = 1 :=
  ⟨⟨{ s0 with BUSY := true, mustPoll := true, latLeft := 3 }, by decide⟩, { s0 with BUSY := true, mustPoll := true, latLeft := 1 }, by decide⟩

theorem witness_ResetGivesTheStatedValues :
    ∃ s : State, s.inReset = true ∧ s.hostq = .releaseReset :: [.read 0x201] ∧ s.BUSY = true ∧ s.ERR = true :=
  ⟨{ hosted [.releaseReset, .read 0x201] with inReset := true, BUSY := true, ERR := true }, rfl, rfl, rfl, rfl⟩

/-- A command in flight, an error recorded, a stuffed byte in the queue. -/
theorem witness_EveryStepKeepsTheInvariant : ∃ s t : State, s.Inv ∧ step s = .next t ∧ s.BUSY = true ∧ s.ERR = true :=
  ⟨{ hosted [.read 0x201] with
      BUSY := true, mustPoll := true, latLeft := 2, ERR := true, ERRCODE := 5, ERR_INFO := 0x0004_000A, OUTQ := [0xFF, 0x00] },
   _, ⟨wf_of _ rfl rfl (by decide) (by decide) (by decide) (by decide), by decide, by decide, by decide, by decide, by decide, by decide⟩,
   rfl, rfl, rfl⟩

end Sys2Proof.Tests
end

section
/-! SUPPORT. Reads and writes of each target of the register space (R64 to R78), by address. -/

namespace Sys2Proof.Machine

/-! ### What the addresses name (R61) -/

/-- The address of an element of `QT`, of either table class. -/
theorem targetOf_qt (t : TableClass) (k : Fin 64) :
    targetOf (BitVec.ofNat 10 (0x140 + 64 * (if t = .luma then 0 else 1) + k)) = .qt t k := by
  cases t
  · exact targetOf_qtLuma k
  · exact targetOf_qtChroma k

theorem targetOf_sPixWindow {a : BusAddr} (h : 0x040 ≤ a.toNat ∧ a.toNat < 0x080) :
    targetOf a = .sPix (Fin.ofNat 64 a.toNat) := by
  have hw : a.toNat / 64 = 1 := by omega
  simp only [targetOf, hw]

theorem targetOf_qtWindows {a : BusAddr} (h : 0x140 ≤ a.toNat ∧ a.toNat < 0x1C0) :
    ∃ t, targetOf a = .qt t (Fin.ofNat 64 a.toNat) := by
  have hw : a.toNat / 64 = 5 ∨ a.toNat / 64 = 6 := by omega
  rcases hw with hw | hw
  · exact ⟨.luma, by simp only [targetOf, hw]⟩
  · exact ⟨.chroma, by simp only [targetOf, hw]⟩

/-- Past the eight windows the address map is `registerAt`. -/
theorem targetOf_eq_registerAt {a : BusAddr} (h : 0x200 ≤ a.toNat) : targetOf a = registerAt a.toNat := by
  unfold targetOf
  split
  case h_9 => rfl
  all_goals omega

theorem registerAt_eq_reserved {n : Nat} (h : 0x20E ≤ n) : registerAt n = .reserved := by
  unfold registerAt
  split
  case h_15 => rfl
  all_goals omega

/-- The reserved addresses (R64). -/
theorem targetOf_eq_reserved {a : BusAddr} (h : 0x20E ≤ a.toNat) : targetOf a = .reserved := by
  rw [targetOf_eq_registerAt (by omega), registerAt_eq_reserved h]

/-! ### Targets that a write leaves alone (R64) -/

/-- The targets that `poke` ignores: the read-only and reserved ones, and `CMD`, whose write issues a command instead. -/
def Target.IgnoresPoke : Target → Prop
  | .qt _ _ | .cmd | .status | .errInfo | .pred _ | .bwState | .outCount | .outData | .qual _ | .outCapReg | .ident
  | .reserved => True
  | .s _ | .sPix _ | .c _ | .qb _ | .zb _ | .symbuf _ | .symcnt => False

theorem poke_of_ignoresPoke {a : BusAddr} (h : (targetOf a).IgnoresPoke) (d : Word) (s : State) : poke a d s = s := by
  unfold poke
  cases hx : targetOf a <;> simp only [hx, Target.IgnoresPoke] at h ⊢

/-- Of the registers, `SYMCNT` alone is written by `poke`. -/
theorem registerAt_ignoresPoke {n : Nat} (h : n ≠ 0x203) : (registerAt n).IgnoresPoke := by
  unfold registerAt
  split
  case h_4 => contradiction
  all_goals trivial

theorem poke_register {a : BusAddr} (h : 0x200 ≤ a.toNat) (hn : a.toNat ≠ 0x203) (d : Word) (s : State) : poke a d s = s :=
  poke_of_ignoresPoke (targetOf_eq_registerAt h ▸ registerAt_ignoresPoke hn) d s

theorem poke_qtWindows {a : BusAddr} (h : 0x140 ≤ a.toNat ∧ a.toNat < 0x1C0) (d : Word) (s : State) : poke a d s = s := by
  obtain ⟨t, ht⟩ := targetOf_qtWindows h
  exact poke_of_ignoresPoke (ht ▸ trivial) d s

/-! ### Reads of the windows (R65 to R71, R73) -/

variable (s : State) (d : Word) (k : Fin 64)

@[simp] theorem peek_s : peek (BitVec.ofNat 10 k) s = s.S[k] := by simp only [peek, targetOf_s]

@[simp] theorem peek_sPix : peek (BitVec.ofNat 10 (0x040 + k)) s = 0 := by simp only [peek, targetOf_sPix]

@[simp] theorem peek_c : peek (BitVec.ofNat 10 (0x080 + k)) s = s.C[k] := by simp only [peek, targetOf_c]

@[simp] theorem peek_qb : peek (BitVec.ofNat 10 (0x0C0 + k)) s = s.QB[k].signExtend 64 := by
  simp only [peek, targetOf_qb, sext16]

@[simp] theorem peek_zb : peek (BitVec.ofNat 10 (0x100 + k)) s = s.ZB[k].signExtend 64 := by
  simp only [peek, targetOf_zb, sext16]

theorem peek_qt (t : TableClass) :
    peek (BitVec.ofNat 10 (0x140 + 64 * (if t = .luma then 0 else 1) + k)) s = (s.qtOf t)[k].setWidth 64 := by
  simp only [peek, targetOf_qt]

@[simp] theorem peek_symbuf : peek (BitVec.ofNat 10 (0x1C0 + k)) s = s.SYMBUF[k] := by simp only [peek, targetOf_symbuf]

@[simp] theorem peek_symcnt : peek 0x203 s = s.SYMCNT.setWidth 64 := rfl

theorem peek_reserved {a : BusAddr} (h : 0x20E ≤ a.toNat) : peek a s = 0 := by
  simp only [peek, targetOf_eq_reserved h]

theorem peek_sPixWindow {a : BusAddr} (h : 0x040 ≤ a.toNat ∧ a.toNat < 0x080) : peek a s = 0 := by
  simp only [peek, targetOf_sPixWindow h]

/-! ### Writes of the windows (R65 to R71, R73) -/

@[simp] theorem poke_s : poke (BitVec.ofNat 10 k) d s = s.setS (s.S.set k d) := by simp only [poke, targetOf_s]

@[simp] theorem poke_sPix : poke (BitVec.ofNat 10 (0x040 + k)) d s = s.setS (s.S.set k (levelShift d)) := by
  simp only [poke, targetOf_sPix]

@[simp] theorem poke_c : poke (BitVec.ofNat 10 (0x080 + k)) d s = s.setC (s.C.set k d) := by simp only [poke, targetOf_c]

@[simp] theorem poke_qb : poke (BitVec.ofNat 10 (0x0C0 + k)) d s = s.setQB (s.QB.set k (d.extractLsb' 0 16)) := by
  simp only [poke, targetOf_qb, BitVec.setWidth_eq_extractLsb' (show 16 ≤ 64 by decide)]

@[simp] theorem poke_zb : poke (BitVec.ofNat 10 (0x100 + k)) d s = s.setZB (s.ZB.set k (d.extractLsb' 0 16)) := by
  simp only [poke, targetOf_zb, BitVec.setWidth_eq_extractLsb' (show 16 ≤ 64 by decide)]

theorem poke_qt (t : TableClass) :
    poke (BitVec.ofNat 10 (0x140 + 64 * (if t = .luma then 0 else 1) + k)) d s = s := by
  simp only [poke, targetOf_qt]

@[simp] theorem poke_symbuf : poke (BitVec.ofNat 10 (0x1C0 + k)) d s = s.setSymbuf (s.SYMBUF.set k d) := by
  simp only [poke, targetOf_symbuf]

/-- `SYMCNT` is clamped to 64 (R73). -/
@[simp] theorem poke_symcnt :
    poke 0x203 d s = s.setSymcnt (if 64 ≤ (d.extractLsb' 0 7).toNat then 64 else d.extractLsb' 0 7) := by
  have hclamp : BitVec.ofNat 7 (min (d.toNat % 2 ^ 7) 64) =
      if 64 ≤ (d.extractLsb' 0 7).toNat then 64 else d.extractLsb' 0 7 := by
    have hd : (d.extractLsb' 0 7).toNat = d.toNat % 2 ^ 7 := by simp
    apply BitVec.eq_of_toNat_eq
    split
    · rw [Nat.min_eq_right (by omega)]; rfl
    · rw [Nat.min_eq_left (by omega), BitVec.toNat_ofNat, hd, Nat.mod_mod]
  rw [← hclamp]
  rfl

end Sys2Proof.Machine
end

section
/-! SUPPORT. Binary64 data: packing and unpacking a canonical finite datum, and the exactness of `i2f` below 2^53 (R13, R63). -/

open Sys2Proof.Claims

namespace Sys2Proof.Machine

/-- The bits of the pattern of a canonical finite datum (R63). -/
theorem f64Pack_num_toNat {m e : Nat} (hm : m < 2 ^ 53) (he : e ≤ 2045) (f : BitVec 53) (neg : Bool) :
    (f64Pack f (.num neg m e)).toNat = signWeight neg + e * 2 ^ 52 + m := by
  rw [f64Pack, BitVec.toNat_ofNat, Nat.mod_eq_of_lt]
  have hsign : signWeight neg ≤ 2 ^ 63 := by cases neg <;> decide
  omega

/-- Unpacking undoes packing, on canonical finite data (R63). -/
theorem f64Unpack_f64Pack_num {m e : Nat} (h : Canonical m e) (f : BitVec 53) (neg : Bool) :
    f64Unpack (f64Pack f (.num neg m e)) = .num neg m e := by
  obtain ⟨hm, he, hnorm⟩ := h
  have hsign : decide ((signWeight neg + e * 2 ^ 52 + m) / 2 ^ 63 % 2 = 1) = neg := by
    cases neg <;> simp [signWeight] <;> omega
  have hdvd : 2 ^ 63 ∣ signWeight neg := by cases neg <;> decide
  rw [f64Unpack, f64Pack_num_toNat hm he, hsign]
  by_cases hnormal : 2 ^ 52 ≤ m
  · have hexpo : (signWeight neg + e * 2 ^ 52 + m) / 2 ^ 52 % 2 ^ 11 = e + 1 := by omega
    have hfrac : 2 ^ 52 + (signWeight neg + e * 2 ^ 52 + m) % 2 ^ 52 = m := by omega
    simp only [hexpo, hfrac, if_neg (show e + 1 ≠ 2047 by omega), if_neg e.succ_ne_zero, Nat.add_sub_cancel]
  · obtain rfl : e = 0 := hnorm.resolve_left hnormal
    have hexpo : (signWeight neg + 0 * 2 ^ 52 + m) / 2 ^ 52 % 2 ^ 11 = 0 := by omega
    have hfrac : (signWeight neg + 0 * 2 ^ 52 + m) % 2 ^ 52 = m := by omega
    simp only [hexpo, hfrac, if_neg (show (0 : ℕ) ≠ 2047 by decide), if_true]

/-- Shifting its leading bit to bit 52 makes a magnitude below 2^53 normal. -/
theorem shiftLeft_log2_bounds {m : Nat} (hm : m ≠ 0) (h : m < 2 ^ 53) :
    2 ^ 52 ≤ m <<< (52 - m.log2) ∧ m <<< (52 - m.log2) < 2 ^ 53 := by
  have hlog : m.log2 < 53 := (Nat.log2_lt hm).mpr h
  rw [Nat.shiftLeft_eq]
  constructor
  · calc 2 ^ 52 = 2 ^ m.log2 * 2 ^ (52 - m.log2) := by rw [← pow_add]; congr 1; omega
      _ ≤ m * 2 ^ (52 - m.log2) := Nat.mul_le_mul_right _ (Nat.log2_self_le hm)
  · calc m * 2 ^ (52 - m.log2) < 2 ^ (m.log2 + 1) * 2 ^ (52 - m.log2) := by gcongr; exact Nat.lt_log2_self
      _ = 2 ^ 53 := by rw [← pow_add]; congr 1; omega

/-- Below 2^53 `i2f` shifts the magnitude until its leading bit is bit 52, and rounds nothing away (R13). -/
theorem i2f_eq_num {n : ℤ} (hn : n ≠ 0) (h : n.natAbs < 2 ^ 53) :
    i2f n = .num (decide (n < 0)) (n.natAbs <<< (52 - n.natAbs.log2)) (1022 + n.natAbs.log2) := by
  have hm : n.natAbs ≠ 0 := Int.natAbs_ne_zero.mpr hn
  have hlog : n.natAbs.log2 < 53 := (Nat.log2_lt hm).mpr h
  have hnocarry := (shiftLeft_log2_bounds hm h).2.ne
  have hq : ((n.natAbs.log2 : ℤ) + 1074 - 52).toNat = 1022 + n.natAbs.log2 := by omega
  have hle : ((1022 + n.natAbs.log2 : ℕ) : ℤ) ≤ 1074 := by omega
  have hk : (1074 - ((1022 + n.natAbs.log2 : ℕ) : ℤ)).toNat = 52 - n.natAbs.log2 := by omega
  have hfinite : ¬1022 + n.natAbs.log2 > 2045 := by omega
  simp only [i2f, f64Round, if_neg hm, hq, if_pos hle, hk, if_neg hnocarry, if_neg hfinite]

/-- The shift of `i2f_eq_num` leaves the value as it was. -/
theorem magnitude_shiftLeft_log2 {m : Nat} (hlog : m.log2 < 53) :
    magnitude (m <<< (52 - m.log2)) (1022 + m.log2) = m := by
  have hexp : ((1022 + m.log2 : ℕ) : ℤ) - 1074 = -((52 - m.log2 : ℕ) : ℤ) := by omega
  rw [magnitude, hexp, Nat.shiftLeft_eq, Nat.cast_mul, Nat.cast_pow, Nat.cast_ofNat, zpow_neg, zpow_natCast,
    mul_inv_cancel_right₀ (by positivity)]

/-- `i2f` is exact below 2^53 (R13). -/
theorem i2f_exact (n : ℤ) (h : |n| < 2 ^ 53) :
    ∃ neg m e, i2f n = .num neg m e ∧ Canonical m e ∧ value neg m e = (n : ℚ) := by
  have hn : n.natAbs < 2 ^ 53 := by rw [Int.abs_eq_natAbs] at h; omega
  by_cases h0 : n = 0
  · subst h0
    exact ⟨false, 0, 0, rfl, by simp [Canonical], by simp [value, magnitude]⟩
  · have hm : n.natAbs ≠ 0 := Int.natAbs_ne_zero.mpr h0
    have hlog : n.natAbs.log2 < 53 := (Nat.log2_lt hm).mpr hn
    obtain ⟨hnormal, hlt⟩ := shiftLeft_log2_bounds hm hn
    refine ⟨_, _, _, i2f_eq_num h0 hn, ⟨hlt, by omega, .inl hnormal⟩, ?_⟩
    rw [value, magnitude_shiftLeft_log2 hlog, Nat.cast_natAbs]
    by_cases hneg : n < 0
    · simp [hneg, abs_of_neg hneg]
    · simp [hneg, abs_of_nonneg (not_lt.mp hneg)]

end Sys2Proof.Machine
end

section
/-! The obligations about the register space: `S_PIX` (R66), reserved and read-only addresses (R64), the buffer windows (R65 to R73). -/

open Sys2Proof.Claims

namespace Sys2Proof.Machine

/-- `i2f` is exact on the range of a level-shifted sample (R66). -/
theorem i2f_sample_exact (b : Byte) :
    ∃ neg m e, i2f ((b.toNat : ℤ) - 128) = .num neg m e ∧ Canonical m e ∧ value neg m e = (b.toNat : ℚ) - 128 := by
  have hb := b.isLt
  obtain ⟨neg, m, e, hnum, hcanon, hvalue⟩ := i2f_exact ((b.toNat : ℤ) - 128) (by rw [abs_lt]; omega)
  exact ⟨neg, m, e, hnum, hcanon, by rw [hvalue]; push_cast; rfl⟩

/-- The stored pattern of the level shift is a datum's, not rounded again when it is read (R66). -/
theorem f64Unpack_levelShift (d : Word) : f64Unpack (levelShift d) = i2f (((d.extractLsb' 0 8).toNat : ℤ) - 128) := by
  have hpattern : levelShift d = f64Pack 0 (i2f (((d.extractLsb' 0 8).toNat : ℤ) - 128)) := by simp [levelShift]
  obtain ⟨neg, m, e, hnum, hcanon, -⟩ := i2f_sample_exact (d.extractLsb' 0 8)
  rw [hpattern, hnum, f64Unpack_f64Pack_num hcanon]

/-- Settles O45: a write of `S_PIX[k]` stores the level shift, and `i2f` is exact on a sample's range. -/
theorem levelShiftIsExact : Obligations.LevelShiftIsExact := by
  intro s d k
  obtain ⟨neg, m, e, hnum, -, hvalue⟩ := i2f_sample_exact (d.extractLsb' 0 8)
  have hunpack := f64Unpack_levelShift d
  exact ⟨peek_sPix s k, levelShift d, poke_sPix s d k, hunpack, neg, m, e, hunpack.trans hnum, hvalue⟩

/-- Settles O48: by what each range of addresses names. -/
theorem reservedAndReadOnlyAddresses : Obligations.ReservedAndReadOnlyAddresses := by
  intro a d s
  constructor
  · rintro (hres | hpix)
    · exact ⟨peek_reserved s hres, afterRead_of_ne s (by simp [targetOf_eq_reserved hres])⟩
    · exact ⟨peek_sPixWindow s hpix, afterRead_of_ne s (by simp [targetOf_sPixWindow hpix])⟩
  · rintro (hres | hqt | hreg | hreg)
    · exact poke_register (by omega) (by omega) d s
    · exact poke_qtWindows hqt d s
    · exact poke_register (by omega) (by omega) d s
    · exact poke_register (by omega) (by omega) d s

/-- Settles O44: the read and the write of each window, put together. -/
theorem windowsReadAndWriteTheirElements : Obligations.WindowsReadAndWriteTheirElements := by
  intro s d k t
  rw [Nat.zero_add]
  exact ⟨⟨peek_s s k, poke_s s d k⟩, ⟨peek_c s k, poke_c s d k⟩, ⟨peek_qb s k, poke_qb s d k⟩,
    ⟨peek_zb s k, poke_zb s d k⟩, ⟨peek_qt s k t, poke_qt s d k t⟩, ⟨peek_symbuf s k, poke_symbuf s d k⟩,
    ⟨peek_symcnt s, poke_symcnt s d⟩⟩

end Sys2Proof.Machine
end

section
/-! The encoding obligations: the words the decoder rejects are those of R94, and the encodings of R100. -/

open Sys2Proof.Machine Sys2Proof.Claims

namespace Sys2Proof

/-! ### Fields and their bits (R10, R93) -/

theorem toNat_extractLsb'_eq_field (d : Word) (lo len : Nat) : (d.extractLsb' lo len).toNat = field d lo len := by
  rw [BitVec.extractLsb'_toNat, Nat.shiftRight_eq_div_pow, field]

theorem extractLsb'_eq_iff_field (d : Word) (lo len : Nat) (x : BitVec len) :
    d.extractLsb' lo len = x ↔ field d lo len = x.toNat := by
  rw [← BitVec.toNat_inj, toNat_extractLsb'_eq_field]

theorem testBit_field (d : Word) (lo len i : Nat) :
    (field d lo len).testBit i = (decide (i < len) && d.getLsbD (i + lo)) := by
  rw [field, Nat.testBit_mod_two_pow, Nat.testBit_div_two_pow, BitVec.testBit_toNat]

@[simp] theorem mem_bitRange {j lo hi : Nat} : j ∈ bitRange lo hi ↔ lo ≤ j ∧ j ≤ hi := by
  simp only [bitRange, List.mem_filter, List.mem_range, decide_eq_true_eq]
  omega

/-- One of the bits `l` of a word is 1. -/
def AnyBitSet (d : Word) (l : List Nat) : Prop := ∃ j ∈ l, d.getLsbD j = true

theorem anyBitSet_append {d : Word} {l l' : List Nat} : AnyBitSet d (l ++ l') ↔ AnyBitSet d l ∨ AnyBitSet d l' := by
  simp only [AnyBitSet, List.mem_append, or_and_right, exists_or]

/-- A bit of the field `d[hi:lo]` is 1 exactly when the field's number is not 0. -/
theorem anyBitSet_bitRange {d : Word} {lo hi : Nat} : AnyBitSet d (bitRange lo hi) ↔ field d lo (hi + 1 - lo) ≠ 0 := by
  constructor
  · rintro ⟨j, hj, hbit⟩ hzero
    have hbounds := mem_bitRange.mp hj
    have htest := testBit_field d lo (hi + 1 - lo) (j - lo)
    rw [hzero, Nat.zero_testBit, Nat.sub_add_cancel hbounds.1, hbit, decide_eq_true (by omega)] at htest
    cases htest
  · intro hne
    obtain ⟨i, hi⟩ := Nat.exists_testBit_of_ne_zero hne
    rw [testBit_field, Bool.and_eq_true, decide_eq_true_eq] at hi
    exact ⟨i + lo, mem_bitRange.mpr (by omega), hi.2⟩

/-- Reserved bits up to bit 63, cut where the decoder cuts them: below bit 32, and bits 63:32 (R90). -/
theorem anyBitSet_bitRange_63 {d : Word} {lo : Nat} (h : lo ≤ 32) :
    AnyBitSet d (bitRange lo 63) ↔ field d lo (32 - lo) ≠ 0 ∨ field d 32 32 ≠ 0 := by
  have hcut : AnyBitSet d (bitRange lo 63) ↔ AnyBitSet d (bitRange lo 31) ∨ AnyBitSet d (bitRange 32 63) := by
    rw [← anyBitSet_append]
    refine exists_congr fun j => and_congr_left' ?_
    simp only [List.mem_append, mem_bitRange]
    omega
  rw [hcut, anyBitSet_bitRange, anyBitSet_bitRange]

/-! ### What each format rejects (R92, R94) -/

/-- The decoder rejects: the result names an error. -/
def Rejected (r : Except DecodeError Instr) : Prop := ∃ e, r = .error e

@[simp] theorem rejected_error (e : DecodeError) : Rejected (.error e) := ⟨e, rfl⟩

@[simp] theorem not_rejected_ok (i : Instr) : ¬ Rejected (.ok i) := fun ⟨_, h⟩ => nomatch h

/-- A check that fails rejects. -/
theorem rejected_ite {p : Prop} [Decidable p] {r : Except DecodeError Instr} {e : DecodeError} :
    Rejected (if p then r else .error e) ↔ ¬ p ∨ Rejected r := by
  split_ifs with h <;> simp [h]

/-- The two-bit field `c` names no component exactly when it is 3 (R93). -/
theorem componentOf_field_eq_none_iff {d : Word} : componentOf (field d 10 2) = none ↔ field d 10 2 = 3 := by
  have hlt : field d 10 2 < 4 := Nat.mod_lt _ (by decide)
  generalize field d 10 2 = c at hlt ⊢
  revert c
  decide

theorem rejected_formatN {d : Word} {i : Instr} : Rejected (formatN d i) ↔ field d 8 24 ≠ 0 := by
  simp [formatN, rejected_ite]

theorem rejected_formatT {d : Word} {f : TableClass → Instr} : Rejected (formatT d f) ↔ field d 9 23 ≠ 0 := by
  simp [formatT, rejected_ite]

theorem rejected_formatC {d : Word} {f : Component → Instr} :
    Rejected (formatC d f) ↔ (field d 12 20 ≠ 0 ∨ field d 8 2 ≠ 0) ∨ field d 10 2 = 3 := by
  rw [formatC, rejected_ite, not_and_or, ← componentOf_field_eq_none_iff]
  cases componentOf (field d 10 2) <;> simp

theorem rejected_formatCT {d : Word} {f : Component → TableClass → Instr} :
    Rejected (formatCT d f) ↔ (field d 12 20 ≠ 0 ∨ field d 9 1 ≠ 0) ∨ field d 10 2 = 3 := by
  rw [formatCT, rejected_ite, not_and_or, ← componentOf_field_eq_none_iff]
  cases componentOf (field d 10 2) <;> simp

theorem rejected_formatQ {d : Word} {f : TableClass → BitVec 7 → Instr} :
    Rejected (formatQ d f) ↔ field d 23 9 ≠ 0 ∨ field d 9 7 ≠ 0 := by
  rw [formatQ, rejected_ite, not_and_or, or_iff_left (not_rejected_ok _)]

theorem rejected_formatW {d : Word} {f : BitVec 5 → BitVec 16 → Instr} :
    Rejected (formatW d f) ↔ field d 13 3 ≠ 0 ∨ field d 8 5 > 16 := by
  rw [formatW, rejected_ite, rejected_ite, or_iff_left (not_rejected_ok _), not_le]

/-! ### ILLEGAL words (R94) -/

/-- The clauses of R94 for a word whose opcode is in the map, by the bits its format reserves. -/
theorem illegal_iff_of_reservedBits {d : Word} {l : List Nat} (h : reservedBits (field d 0 8) = some l) :
    Illegal d ↔ AnyBitSet d l ∨ ((field d 0 8 = 0x07 ∨ field d 0 8 = 0x09) ∧ field d 10 2 = 3) ∨
      (field d 0 8 = 0x0A ∧ field d 8 5 > 16) := by
  simp only [Illegal, AnyBitSet, extractLsb'_eq_iff_field, toNat_extractLsb'_eq_field, h, reduceCtorEq, false_or,
    Option.some.injEq, exists_eq_left', BitVec.reduceToNat]

theorem reservedBits_of_opcode_above_15 {op : Nat} (h : 15 < op) : reservedBits op = none := by
  have hne : ∀ n ≤ 15, op ≠ n := fun n hn => by omega
  simp [reservedBits, hne]

/-- The opcode map ends at 0x0F (R94 (a), R95). -/
theorem illegal_of_opcode_above_15 {d : Word} (h : 15 < field d 0 8) : Illegal d :=
  .inl (by rw [toNat_extractLsb'_eq_field, reservedBits_of_opcode_above_15 h])

/-- The opcodes of format N (R95). -/
def formatNOpcodes : List Nat := [0x00, 0x01, 0x02, 0x05, 0x06, 0x0B, 0x0C, 0x0D, 0x0E, 0x0F]

theorem rejected_formatN_iff_illegal {d : Word} {i : Instr} (hop : field d 0 8 ∈ formatNOpcodes) :
    field d 32 32 ≠ 0 ∨ Rejected (formatN d i) ↔ Illegal d := by
  have hother : ∀ op ∈ formatNOpcodes, op ≠ 0x07 ∧ op ≠ 0x09 ∧ op ≠ 0x0A := by decide
  obtain ⟨h7, h9, hA⟩ := hother _ hop
  rw [rejected_formatN, illegal_iff_of_reservedBits (if_pos hop), anyBitSet_bitRange_63 (by decide)]
  simp [h7, h9, hA, or_comm]

theorem rejected_formatT_iff_illegal {d : Word} {f : TableClass → Instr} (hop : field d 0 8 = 0x04 ∨ field d 0 8 = 0x08) :
    field d 32 32 ≠ 0 ∨ Rejected (formatT d f) ↔ Illegal d := by
  have hbits : reservedBits (field d 0 8) = some (bitRange 9 63) := by rcases hop with h | h <;> rw [h] <;> rfl
  rw [rejected_formatT, illegal_iff_of_reservedBits hbits, anyBitSet_bitRange_63 (by decide)]
  rcases hop with h | h <;> simp [h, or_comm]

theorem rejected_formatC_iff_illegal {d : Word} {f : Component → Instr} (hop : field d 0 8 = 0x07) :
    field d 32 32 ≠ 0 ∨ Rejected (formatC d f) ↔ Illegal d := by
  have hbits : reservedBits (field d 0 8) = some (bitRange 12 63 ++ bitRange 8 9) := by rw [hop]; rfl
  rw [rejected_formatC, illegal_iff_of_reservedBits hbits, anyBitSet_append, anyBitSet_bitRange_63 (by decide),
    anyBitSet_bitRange]
  simp only [hop]
  tauto

theorem rejected_formatCT_iff_illegal {d : Word} {f : Component → TableClass → Instr} (hop : field d 0 8 = 0x09) :
    field d 32 32 ≠ 0 ∨ Rejected (formatCT d f) ↔ Illegal d := by
  have hbits : reservedBits (field d 0 8) = some (bitRange 12 63 ++ bitRange 9 9) := by rw [hop]; rfl
  rw [rejected_formatCT, illegal_iff_of_reservedBits hbits, anyBitSet_append, anyBitSet_bitRange_63 (by decide),
    anyBitSet_bitRange]
  simp only [hop]
  tauto

theorem rejected_formatQ_iff_illegal {d : Word} {f : TableClass → BitVec 7 → Instr} (hop : field d 0 8 = 0x03) :
    field d 32 32 ≠ 0 ∨ Rejected (formatQ d f) ↔ Illegal d := by
  have hbits : reservedBits (field d 0 8) = some (bitRange 23 63 ++ bitRange 9 15) := by rw [hop]; rfl
  rw [rejected_formatQ, illegal_iff_of_reservedBits hbits, anyBitSet_append, anyBitSet_bitRange_63 (by decide),
    anyBitSet_bitRange]
  simp only [hop]
  tauto

theorem rejected_formatW_iff_illegal {d : Word} {f : BitVec 5 → BitVec 16 → Instr} (hop : field d 0 8 = 0x0A) :
    field d 32 32 ≠ 0 ∨ Rejected (formatW d f) ↔ Illegal d := by
  have hbits : reservedBits (field d 0 8) = some (bitRange 32 63 ++ bitRange 13 15) := by rw [hop]; rfl
  rw [rejected_formatW, illegal_iff_of_reservedBits hbits, anyBitSet_append, anyBitSet_bitRange, anyBitSet_bitRange]
  simp only [hop]
  tauto

/-- R94: the decoder rejects exactly the ILLEGAL words; the case split is that of the opcode map (R95). -/
theorem rejected_decode_iff_illegal (d : Word) : Rejected (decode d) ↔ Illegal d := by
  rw [decode, rejected_ite]
  split
  case h_4 hop => exact rejected_formatQ_iff_illegal hop
  case h_5 hop => exact rejected_formatT_iff_illegal (.inl hop)
  case h_8 hop => exact rejected_formatC_iff_illegal hop
  case h_9 hop => exact rejected_formatT_iff_illegal (.inr hop)
  case h_10 hop => exact rejected_formatCT_iff_illegal hop
  case h_11 hop => exact rejected_formatW_iff_illegal hop
  case h_17 =>
    have hop : 15 < field d 0 8 := by simp only [imp_false] at *; omega
    simp [illegal_of_opcode_above_15 hop]
  all_goals
    next hop => exact rejected_formatN_iff_illegal (by rw [hop]; decide)

end Sys2Proof

namespace Sys2Proof.Machine

/-! ### Issuing an ILLEGAL word (R94, R251, R252) -/

theorem errorEntry_illegalCmd (s : State) : errorEntry .illegalCmd s = if s.ERR then s else withError s 0x01 0 := by
  cases h : s.ERR
  · rw [errorEntry_of_no_error h, errInfoWord_eq]; rfl
  · rw [errorEntry_of_error h]; rfl

/-- The word is accepted and the error entry is all that follows: a rejection meets a recorded error, which the entry keeps (R91, R252). -/
theorem issue_of_rejected {d : Word} (h : Rejected (decode d)) (s : State) :
    issue d s = .next (errorEntry .illegalCmd (accept d s)) := by
  rcases issue_cases d s with ⟨hrej, hissue⟩ | ⟨-, -, hissue⟩ | ⟨-, i, hok, -⟩
  · have herr : (accept d s).ERR = true := ((rejects_iff s d).mp hrej).1
    rw [hissue, errorEntry_of_error herr]
  · exact hissue
  · exact absurd h (by simp [hok])

/-- Settles O4: the decoder's rejections are those of R94, and a rejected word does no more than enter the error. -/
theorem illegalWordsAreExactlyThoseOfTheRule : Obligations.IllegalWordsAreExactlyThoseOfTheRule := by
  intro d
  refine ⟨rejected_decode_iff_illegal d, fun hill s => ?_⟩
  rw [issue_of_rejected ((rejected_decode_iff_illegal d).mpr hill), errorEntry_illegalCmd]
  rfl

/-! ### The encodings of R100 -/

theorem decode_exampleWords : ∀ p ∈ exampleWords, (decode p.1).toOption = p.2 := by decide

theorem encode_exampleWords : ∀ p ∈ exampleWords, ∀ i ∈ p.2, encode i = p.1 := by decide

/-- Settles O1: row by row of the table of R100, decoded and encoded. -/
theorem exampleEncodingsOfTheSpec : Obligations.ExampleEncodingsOfTheSpec := fun p hp =>
  ⟨decode_exampleWords p hp, encode_exampleWords p hp⟩

end Sys2Proof.Machine
end

section
/-! The quantizer obligations: QTBUILD (R141 to R143) and QUANT (R144). -/

open Sys2Proof.Machine Sys2Proof.Claims

namespace Sys2Proof

/-! ### The command words of formats Q and T (R92, R95) -/

/-- The fields of bits 31:8 are fields of the operand number. -/
theorem field_operand (d : Word) {lo len : Nat} (h : lo + len ≤ 24) :
    field d (8 + lo) len = field d 8 24 / 2 ^ lo % 2 ^ len := by
  have hdvd : 2 ^ len ∣ 2 ^ (24 - lo) := Nat.pow_dvd_pow 2 (by omega)
  simp only [field]
  rw [show 2 ^ 24 = 2 ^ lo * 2 ^ (24 - lo) by rw [← pow_add]; congr 1; omega, Nat.mod_mul_right_div_self,
    Nat.div_div_eq_div_mul, ← pow_add, Nat.mod_mod_of_dvd _ hdvd]

@[simp] theorem tableClassOf_tableClassCode (t : TableClass) : tableClassOf (tableClassCode t) = t := by cases t <;> rfl

theorem tableClassCode_lt (t : TableClass) : tableClassCode t < 2 := by cases t <;> decide

theorem tableClassCode_eq_ite (t : TableClass) : tableClassCode t = if t = .luma then 0 else 1 := by cases t <;> rfl

theorem decode_encode_qtbuild (t : TableClass) (q : BitVec 7) : decode (encode (.qtbuild t q)) = .ok (.qtbuild t q) := by
  obtain ⟨hop, hoperand, hhigh⟩ := Laws.EncodeFields.qtbuild t q rfl
  have ht := tableClassCode_lt t
  have hq := q.isLt
  simp only [operandBits] at hoperand
  have h23 := field_operand (encode (.qtbuild t q)) (show 15 + 9 ≤ 24 by decide)
  have h9 := field_operand (encode (.qtbuild t q)) (show 1 + 7 ≤ 24 by decide)
  have h8 := field_operand (encode (.qtbuild t q)) (show 0 + 1 ≤ 24 by decide)
  have h16 := field_operand (encode (.qtbuild t q)) (show 8 + 7 ≤ 24 by decide)
  simp only [Nat.reduceAdd] at h23 h9 h8 h16
  have hreserved : field (encode (.qtbuild t q)) 23 9 = 0 ∧ field (encode (.qtbuild t q)) 9 7 = 0 := by omega
  have hclass : field (encode (.qtbuild t q)) 8 1 = tableClassCode t := by omega
  have hquality : field (encode (.qtbuild t q)) 16 7 = q.toNat := by omega
  simp only [decode, if_pos hhigh, hop, opcodeOf, formatQ, if_pos hreserved, hclass, hquality,
    tableClassOf_tableClassCode, BitVec.ofNat_toNat, BitVec.setWidth_eq]

theorem decode_encode_quant (t : TableClass) : decode (encode (.quant t)) = .ok (.quant t) := by cases t <;> decide

end Sys2Proof

namespace Sys2Proof.Machine

/-- An error whose detail fits its field is recorded as R252 says. -/
theorem errorEntry_eq_withError {s : State} (h : s.ERR = false) {e : ErrorEvent} (hd : e.detail < 2 ^ 16) :
    errorEntry e s = withError s e.code e.detail := by
  rw [errorEntry_of_no_error h, errInfoWord_eq, Nat.mod_eq_of_lt hd, withError]

/-! ### The table class that QTBUILD writes, and the other one (R17, R142) -/

theorem tableIndex_val_ne {c c' : TableClass} (h : c' ≠ c) : (tableIndex c).val ≠ (tableIndex c').val := by
  revert h
  cases c <;> cases c' <;> decide

section
variable (s : State) (c : TableClass) (b : Block Byte) (q : BitVec 7)

@[simp] theorem qtOf_setTable_same : (s.setTable c b q).qtOf c = b := by simp [State.qtOf]

@[simp] theorem qualOf_setTable_same : (s.setTable c b q).qualOf c = q := by simp [State.qualOf]

variable {c} {c' : TableClass} (h : c' ≠ c)
include h

theorem qtOf_setTable_ne : (s.setTable c b q).qtOf c' = s.qtOf c' := by
  simp [State.qtOf, Vector.getElem_set_ne _ _ (tableIndex_val_ne h)]

theorem qualOf_setTable_ne : (s.setTable c b q).qualOf c' = s.qualOf c' := by
  simp [State.qualOf, Vector.getElem_set_ne _ _ (tableIndex_val_ne h)]

end

/-! ### The entries of a built table (R141) -/

/-- An entry of a built table, as a number: `entry` fits a byte. -/
theorem toNat_getElem_builtTable (t : TableClass) (q : Nat) (k : Fin 64) :
    (builtTable t q)[k].toNat = entry (base t)[k].toNat q := by
  have hbounds := entry_bounds (base t)[k].toNat q
  simp only [Fin.getElem_fin, getElem_builtTable, BitVec.toNat_ofNat] at hbounds ⊢
  omega

/-- The formula of R141 on integers: up to q = 100 the subtraction of `scale` does not truncate. -/
theorem entry_cast (b : Nat) {q : Nat} (h : q ≤ 100) :
    (entry b q : ℤ) = max 1 (min 255 ((b * (if q < 50 then 5000 / q else 200 - 2 * q : ℤ) + 50) / 100)) := by
  have hscale : (scale q : ℤ) = (if q < 50 then 5000 / q else 200 - 2 * q : ℤ) := by
    unfold scale
    split <;> push_cast [Nat.cast_sub (show 2 * q ≤ 200 by omega)] <;> rfl
  rw [← hscale, entry, clamp]
  push_cast
  omega

/-- No base divisor is below 10 (R140). -/
theorem ten_le_base (t : TableClass) (k : Fin 64) : 10 ≤ (base t)[k].toNat := by
  cases t <;> revert k <;> decide

theorem entry_50 {b : Nat} (h : 1 ≤ b ∧ b ≤ 255) : entry b 50 = b := by
  simp only [entry, clamp, show scale 50 = 100 from rfl]
  omega

theorem entry_100 (b : Nat) : entry b 100 = 1 := by simp [entry, clamp, scale]

theorem entry_1 {b : Nat} (h : 6 ≤ b) : entry b 1 = 255 := by
  simp only [entry, clamp, show scale 1 = 5000 from rfl]
  omega

/-- R142: q = 50 copies the base table. -/
theorem builtTable_50 (t : TableClass) (k : Fin 64) : (builtTable t 50)[k] = (base t)[k] := by
  have hten := ten_le_base t k
  have hbyte := (base t)[k].isLt
  exact BitVec.eq_of_toNat_eq ((toNat_getElem_builtTable t 50 k).trans (entry_50 (by omega)))

/-- R142: q = 100 gives all 1. -/
theorem builtTable_100 (t : TableClass) (k : Fin 64) : (builtTable t 100)[k] = 1 :=
  BitVec.eq_of_toNat_eq ((toNat_getElem_builtTable t 100 k).trans (entry_100 _))

/-- R142: q = 1 gives all 255. -/
theorem builtTable_1 (t : TableClass) (k : Fin 64) : (builtTable t 1)[k] = 255 := by
  have hten := ten_le_base t k
  exact BitVec.eq_of_toNat_eq ((toNat_getElem_builtTable t 1 k).trans (entry_1 (by omega)))

/-- Settles O15: the commit of the built table, or the error entry. -/
theorem qtbuildFollowsItsRule : Obligations.QtbuildFollowsItsRule := by
  refine ⟨fun c q s hlo hhi => ?_, fun c q s hq herr => ?_, fun c q => ?_⟩
  · refine ⟨s.setTable c (builtTable c q.toNat) q, execQtbuild_ok c s ⟨hlo, hhi⟩, rfl, qualOf_setTable_same s c _ q,
      fun c' hne => ⟨qtOf_setTable_ne s _ q hne, qualOf_setTable_ne s _ q hne⟩, fun k => ?_⟩
    rw [qtOf_setTable_same, toNat_getElem_builtTable]
    refine ⟨entry_cast _ hhi, ?_, ?_, ?_⟩
    · rintro rfl; exact builtTable_50 c k
    · rintro rfl; exact builtTable_100 c k
    · rintro rfl; exact builtTable_1 c k
  · have hfits : (ErrorEvent.quality q.toNat).detail < 2 ^ 16 := q.isLt.trans (by decide)
    exact (execQtbuild_error c s (by omega)).trans (congrArg _ (errorEntry_eq_withError herr hfits))
  · rw [← tableClassCode_eq_ite]
    exact decode_encode_qtbuild c q

/-! ### Monotonicity in the quality (R143) -/

/-- A higher quality scales by no more; at 50 the hyperbola meets the line. -/
theorem scale_antitone {q1 q2 : Nat} (h1 : 1 ≤ q1) (h12 : q1 ≤ q2) : scale q2 ≤ scale q1 := by
  unfold scale
  by_cases hq2 : q2 < 50
  · rw [if_pos hq2, if_pos (by omega)]
    exact Nat.div_le_div_left h12 h1
  · by_cases hq1 : q1 < 50
    · rw [if_neg hq2, if_pos hq1]
      have hjoin : 100 ≤ 5000 / q1 := (Nat.le_div_iff_mul_le h1).mpr (by omega)
      omega
    · rw [if_neg hq2, if_neg hq1]
      omega

theorem entry_antitone (b : Nat) {q1 q2 : Nat} (h1 : 1 ≤ q1) (h12 : q1 ≤ q2) : entry b q2 ≤ entry b q1 := by
  have hscale := scale_antitone h1 h12
  unfold entry clamp
  gcongr

/-- Settles O16: the two tables are built from one base table, and `entry` falls with the quality. -/
theorem higherQualityNeverRaisesADivisor : Obligations.HigherQualityNeverRaisesADivisor := by
  intro c q1 q2 s1 s2 t1 t2 hlo hlt hhi hexec1 hexec2 k
  obtain rfl : s1.setTable c (builtTable c q1.toNat) q1 = t1 :=
    Host.Outcome.next.inj ((execQtbuild_ok c s1 ⟨hlo, by omega⟩).symm.trans hexec1)
  obtain rfl : s2.setTable c (builtTable c q2.toNat) q2 = t2 :=
    Host.Outcome.next.inj ((execQtbuild_ok c s2 ⟨by omega, hhi⟩).symm.trans hexec2)
  simp only [qtOf_setTable_same, toNat_getElem_builtTable]
  exact entry_antitone _ hlo hlt.le

/-! ### The quotients of QUANT (R144) -/

theorem quantOne_eq_none {c : Word} {d : Byte} :
    quantOne c d = none ↔ ∀ r, rha (fdiv (f64Unpack c) (i2f d.toNat)) = some r → r < -32768 ∨ 32767 < r := by
  unfold quantOne
  split
  · rename_i hr; simp [hr]
  · rename_i r hr
    simp only [hr, ite_eq_left_iff, reduceCtorEq, imp_false, not_not, Option.some.injEq, forall_eq', gt_iff_lt]

/-- A zero over a nonzero number is a zero (R127). -/
theorem fdiv_zero_num (s t : Bool) (e f : Nat) {n : Nat} (h : n ≠ 0) :
    fdiv (.num s 0 e) (.num t n f) = .num (s != t) 0 0 := by
  simp [fdiv, f64Round, h]

theorem rha_zero (neg : Bool) (e : Nat) : rha (.num neg 0 e) = some 0 := by
  by_cases he : 1074 ≤ e
  · simp [rha, he]
  · have hhalf : 2 ^ (1074 - e) / 2 ^ (1075 - e) = 0 := Nat.div_eq_of_lt (Nat.pow_lt_pow_right (by decide) (by omega))
    simp [rha, he, hhalf]

/-- A divisor is a nonzero finite datum, whatever its place in the table (R144). -/
theorem i2f_divisor {d : Byte} (h : 1 ≤ d.toNat) : ∃ n f, n ≠ 0 ∧ i2f d.toNat = .num false n f := by
  have hlt : (d.toNat : ℤ).natAbs < 2 ^ 53 := by have := d.isLt; omega
  have hnormal := (shiftLeft_log2_bounds (m := d.toNat) (by omega) hlt).1
  refine ⟨d.toNat <<< (52 - d.toNat.log2), 1022 + d.toNat.log2, by omega, ?_⟩
  rw [i2f_eq_num (by omega) hlt, decide_eq_false (by omega), Int.natAbs_natCast]

/-- R144: a coefficient of -0.0 quantizes to 0. -/
theorem quotient_negativeZero {d : Byte} (h : 1 ≤ d.toNat) :
    rha (fdiv (f64Unpack 0x8000_0000_0000_0000) (i2f d.toNat)) = some 0 := by
  obtain ⟨n, f, hn, hd⟩ := i2f_divisor h
  have hzero : f64Unpack 0x8000_0000_0000_0000 = .num true 0 0 := by decide
  rw [hzero, hd, fdiv_zero_num _ _ _ _ hn, rha_zero]

/-- Settles O17: all quotients in range are committed, and the least bad index is reported. -/
theorem quantFollowsItsRule : Obligations.QuantFollowsItsRule := by
  refine ⟨fun c s r hr => ?_, fun c s k herr hbad hbefore => ?_, fun d => quotient_negativeZero, fun c => ?_⟩
  · have hquot : ∀ k : Fin 64, ∃ h, quantOne s.C[k] (s.qtOf c)[k] = some h ∧ h.toInt = r k := fun k => by
      obtain ⟨hrha, hlo, hhi⟩ := hr k
      have hint : (BitVec.ofInt 16 (r k)).toInt = r k := BitVec.toInt_ofInt_eq_self (by decide) hlo (by omega)
      exact ⟨_, quantOne_eq_some.mpr ⟨r k, hrha, hlo, hhi, hint⟩, hint⟩
    refine ⟨_, execQuant_ok c fun k => ?_, rfl, fun k => ?_⟩ <;> obtain ⟨h, hsome, hint⟩ := hquot k
    · rw [hsome, Option.isSome_some]
    · rw [State.setQB_QB, getElem_tabulate_fin, hsome, Option.getD_some, hint]
  · have hgood : ∀ j : Fin 64, j < k → quantOne s.C[j] (s.qtOf c)[j] ≠ none := fun j hj hnone => by
      obtain ⟨r, hr, hlo, hhi⟩ := hbefore j hj
      have hout := quantOne_eq_none.mp hnone r hr
      omega
    have hfits : (ErrorEvent.range k.val).detail < 2 ^ 16 := k.isLt.trans (by decide)
    exact (execQuant_error c (quantOne_eq_none.mpr hbad) hgood).trans (congrArg _ (errorEntry_eq_withError herr hfits))
  · rw [← tableClassCode_eq_ite]
    exact decode_encode_quant c

end Sys2Proof.Machine
end

section
/-! The zigzag obligations: ZIGZAG (R162), UNZIGZAG (R163) and their round trips (R164). -/

namespace Sys2Proof.Machine

theorem exec_zigzag (s : State) : exec .zigzag s = .next (s.setZB (toScan s.QB)) := rfl

theorem exec_unzigzag (s : State) : exec .unzigzag s = .next (s.setQB (toNatural s.ZB)) := rfl

theorem getElem_toScan_fin (b : Block Half) (i : Fin 64) : (toScan b)[i] = b[zz i] := getElem_toScan b i.val i.isLt

theorem getElem_toNatural_fin (b : Block Half) (k : Fin 64) : (toNatural b)[k] = b[zi k] :=
  getElem_toNatural b k.val k.isLt

/-! ### The reordering as a permutation (R160) -/

/-- `ZZ` as a permutation of the 64 indices; its inverse is `ZI`. -/
def scanPerm : Equiv.Perm (Fin 64) where
  toFun := zz
  invFun := zi
  left_inv := zi_zz
  right_inv := zz_zi

theorem toList_eq_ofFn (b : Block Half) : b.toList = List.ofFn fun k : Fin 64 => b[k] :=
  congrArg Vector.toList (block_ext fun k => (getElem_tabulate_fin (b[·]) k).symm)

/-- Values are moved, never changed (R162): the scan order lists the block composed with a permutation. -/
theorem toList_toScan_perm (b : Block Half) : (toScan b).toList.Perm b.toList := by
  rw [toScan, toList_tabulate, toList_eq_ofFn b]
  exact scanPerm.ofFn_comp_perm (b[·])

/-! ### The two reorderings undo each other (R164) -/

@[simp] theorem toScan_toNatural (b : Block Half) : toScan (toNatural b) = b :=
  block_ext fun i => by simp only [getElem_toScan_fin, getElem_toNatural_fin, zi_zz]

@[simp] theorem toNatural_toScan (b : Block Half) : toNatural (toScan b) = b :=
  block_ext fun k => by simp only [getElem_toScan_fin, getElem_toNatural_fin, zz_zi]

/-! ### The obligations -/

/-- Settles O19: the new `ZB` is the scan order of `QB`, a reordering that fixes both ends. -/
theorem zigzagReordersIntoScanOrder : Obligations.ZigzagReordersIntoScanOrder := by
  refine ⟨by decide, fun s => ⟨_, exec_zigzag s, rfl, ?_⟩⟩
  rw [State.setZB_ZB]
  have hmap := getElem_toScan_fin s.QB
  exact ⟨hmap, toList_toScan_perm s.QB, hmap 0, hmap 63, fun hid i => by rw [hmap, hid]⟩

/-- Settles O20: the new `QB` is the natural order of `ZB`, and `ZI` undoes `ZZ`. -/
theorem unzigzagRestoresNaturalOrder : Obligations.UnzigzagRestoresNaturalOrder := by
  refine ⟨by decide, fun s => ⟨_, exec_unzigzag s, rfl, ?_⟩⟩
  rw [State.setQB_QB]
  have hmap := getElem_toNatural_fin s.ZB
  exact ⟨fun i => by simp only [hmap, zi_zz], hmap, fun hid k => by rw [hmap, hid]⟩

/-- Settles O21: the second command reads the buffer that the first one wrote, and undoes its reordering. -/
theorem zigzagRoundTrips : Obligations.ZigzagRoundTrips := by
  intro s t u
  constructor <;> intro hfirst hsecond
  · rw [exec_unzigzag, Host.Outcome.next.injEq] at hfirst
    rw [exec_zigzag, Host.Outcome.next.injEq] at hsecond
    rw [← hsecond, State.setZB_ZB, ← hfirst, State.setQB_QB, toScan_toNatural]
  · rw [exec_zigzag, Host.Outcome.next.injEq] at hfirst
    rw [exec_unzigzag, Host.Outcome.next.injEq] at hsecond
    rw [← hsecond, State.setQB_QB, ← hfirst, State.setZB_ZB, toNatural_toScan]

end Sys2Proof.Machine
end

section
/-! The symbolizer obligations: categories (R170), the list that `symbolize` returns (R173, R175, R177, R178) and RSTPRED (R176). -/

namespace Sys2Proof.Machine

/-! ### Categories (R170) -/

/-- `category_le_iff` in the integers. -/
theorem category_le_iff_abs (v : ℤ) (len : Nat) : category v ≤ len ↔ |v| < 2 ^ len := by
  rw [category_le_iff, Int.abs_eq_natAbs]
  exact_mod_cast Iff.rfl

/-- The magnitudes of category `len + 1`. -/
theorem category_eq_succ_iff (v : ℤ) (len : Nat) : category v = len + 1 ↔ 2 ^ len ≤ |v| ∧ |v| < 2 ^ (len + 1) := by
  rw [← category_le_iff_abs, ← not_lt (a := |v|), ← category_le_iff_abs]
  omega

/-- Settles O22: a bound on the category is a bound on the magnitude. -/
theorem categoryIsTheBitLength : Obligations.CategoryIsTheBitLength := by
  refine ⟨fun v => ⟨(category_le_iff_abs v _).mp le_rfl, fun len => (category_le_iff_abs v len).mpr, fun h => ?_⟩,
    fun v => ⟨fun hlo hhi => ?_, fun h => ?_⟩, by decide⟩
  · exact (category_le_iff_abs v 16).mpr (by omega)
  · exact (category_eq_succ_iff v 10).mpr (by omega)
  · exact (category_eq_succ_iff v 11).mpr (by omega)

/-! ### The four words that `symbolize` emits (R172) -/

theorem zrlWord_eq : zrlWord = 0x0002_0F00_0000_0000 := by decide

theorem eobWord_eq : eobWord = 0x0003_0000_0000_0000 := by decide

@[simp] theorem symKind_zrlWord : symKind zrlWord = .zrl := by decide

@[simp] theorem symKind_eobWord : symKind eobWord = .eob := by decide

section
variable {run : Nat} (hrun : run < 16) (z p : Half)

theorem symKind_dcWord_diff : symKind (dcWord (z.toInt - p.toInt)) = .dc :=
  symKind_symword (by decide) ((category_diff z p).trans_lt (by decide))

theorem symSize_dcWord_diff : symSize (dcWord (z.toInt - p.toInt)) = category (z.toInt - p.toInt) :=
  symSize_symword (by decide) ((category_diff z p).trans_lt (by decide))

theorem abs_diff_le : |z.toInt - p.toInt| ≤ 65535 := by
  have := z.toInt_lt; have := z.le_toInt; have := p.toInt_lt; have := p.le_toInt
  rw [abs_le]
  omega

theorem symValue_dcWord_diff : symValue (dcWord (z.toInt - p.toInt)) = z.toInt - p.toInt := by
  have hdiff := abs_le.mp (abs_diff_le z p)
  exact symValue_symword (by decide) ((category_diff z p).trans_lt (by decide)) (by omega) (by omega)

include hrun

theorem symKind_acWord : symKind (acWord run z.toInt) = .ac :=
  symKind_symword hrun ((category_half z).trans_lt (by decide))

theorem symSize_acWord : symSize (acWord run z.toInt) = category z.toInt :=
  symSize_symword hrun ((category_half z).trans_lt (by decide))

end

theorem one_le_category_half {z : Half} (h : z ≠ 0) : 1 ≤ category z.toInt := by
  rw [Nat.one_le_iff_ne_zero, ne_eq, category_eq_zero]
  exact fun h0 => h (BitVec.eq_of_toInt_eq h0)

/-! ### The loop over the AC coefficients (R173) -/

theorem acSymbols_cons_zero (run : Nat) (zs : List Half) : acSymbols run (0 :: zs) = acSymbols (run + 1) zs := if_pos rfl

theorem acSymbols_cons_of_ne_zero (run : Nat) {z : Half} (h : z ≠ 0) (zs : List Half) :
    acSymbols run (z :: zs) =
      List.replicate (run / 16) zrlWord ++ acWord (run % 16) z.toInt :: acSymbols 0 zs := if_neg h

/-- Zeros are counted, and nothing is emitted for them yet. -/
theorem acSymbols_replicate_zero_append (run n : Nat) (zs : List Half) :
    acSymbols run (List.replicate n 0 ++ zs) = acSymbols (run + n) zs := by
  induction n generalizing run with
  | zero => rfl
  | succ n ih => rw [List.replicate_succ, List.cons_append, acSymbols_cons_zero, ih, Nat.add_right_comm, Nat.add_assoc]

/-- R178 for the coefficients that remain: `n` zeros, then a nonzero coefficient. -/
theorem acSymbols_zero_run (n : Nat) {z : Half} (h : z ≠ 0) (zs : List Half) :
    acSymbols 0 (List.replicate n 0 ++ z :: zs) =
      List.replicate (n / 16) zrlWord ++ acWord (n % 16) z.toInt :: acSymbols 0 zs := by
  rw [acSymbols_replicate_zero_append, Nat.zero_add, acSymbols_cons_of_ne_zero n h]

/-- Zeros up to the end give one EOB. -/
theorem acSymbols_replicate_zero (n : Nat) :
    acSymbols 0 (List.replicate n 0) = if n = 0 then [] else [eobWord] := by
  have hrun := acSymbols_replicate_zero_append 0 n []
  rw [List.append_nil, Nat.zero_add] at hrun
  rw [hrun]
  cases n with
  | zero => rfl
  | succ n => rfl

/-- Whatever stands before it, a nonzero coefficient leaves its AC word, starts a new run, and no EOB stands before it. -/
theorem acSymbols_append_cons (run : Nat) (xs : List Half) {z : Half} (h : z ≠ 0) (zs : List Half) :
    ∃ ws r, r < 16 ∧ (∀ w ∈ ws, symKind w ≠ .eob) ∧
      acSymbols run (xs ++ z :: zs) = ws ++ acWord r z.toInt :: acSymbols 0 zs := by
  have hzrl : ∀ n, ∀ w ∈ List.replicate n zrlWord, symKind w ≠ .eob := fun n w hw => by
    simp [List.eq_of_mem_replicate hw]
  have hmod : ∀ n, n % 16 < 16 := fun n => Nat.mod_lt n (by decide)
  induction xs generalizing run with
  | nil => exact ⟨_, _, hmod run, hzrl (run / 16), acSymbols_cons_of_ne_zero run h zs⟩
  | cons x xs ih =>
    by_cases hx : x = 0
    · subst hx
      rw [List.cons_append, acSymbols_cons_zero]
      exact ih (run + 1)
    · obtain ⟨ws, r, hr, hws, heq⟩ := ih 0
      have hac : symKind (acWord (run % 16) x.toInt) ≠ .eob := by simp [symKind_acWord (hmod run)]
      refine ⟨List.replicate (run / 16) zrlWord ++ acWord (run % 16) x.toInt :: ws, r, hr,
        List.forall_mem_append.mpr ⟨hzrl _, List.forall_mem_cons.mpr ⟨hac, hws⟩⟩, ?_⟩
      rw [List.cons_append, acSymbols_cons_of_ne_zero run hx, heq, List.append_assoc, List.cons_append]

/-! ### Bounds of the loop's words (R175) -/

/-- What a word after the DC symbol can be. -/
theorem mem_acSymbols {run : Nat} {l : List Half} {w : Word} (hw : w ∈ acSymbols run l) :
    w = zrlWord ∨ w = eobWord ∨ ∃ r, ∃ z : Half, r < 16 ∧ z ≠ 0 ∧ w = acWord r z.toInt := by
  fun_induction acSymbols run l with
  | case1 run h => exact .inr (.inl (List.mem_singleton.mp hw))
  | case2 run h => cases hw
  | case3 run zs ih => exact ih hw
  | case4 run z zs hz ih =>
    rcases List.mem_append.mp hw with hw | hw
    · exact .inl (List.eq_of_mem_replicate hw)
    · rcases List.mem_cons.mp hw with rfl | hw
      · exact .inr (.inr ⟨run % 16, z, Nat.mod_lt run (by decide), hz, rfl⟩)
      · exact ih hw

/-- Each ZRL stands for 16 zeros. -/
theorem acSymbols_zrl_count (run : Nat) (l : List Half) :
    16 * ((acSymbols run l).filter fun w => symKind w = .zrl).length ≤ run + l.length := by
  fun_induction acSymbols run l with
  | case1 run h => simp
  | case2 run h => simp
  | case3 run zs ih => rw [List.length_cons]; omega
  | case4 run z zs hz ih =>
    have hac : symKind (acWord (run % 16) z.toInt) = .ac := symKind_acWord (Nat.mod_lt run (by decide)) z
    rw [List.filter_append, List.filter_replicate_of_pos (by simp), List.filter_cons_of_neg (by simp [hac]),
      List.length_append, List.length_replicate, List.length_cons]
    omega

/-- A ZRL is followed by a ZRL or an AC symbol. -/
def ZrlsFollowed (l : List Word) : Prop :=
  ∀ i w, l[i]? = some w → symKind w = .zrl → ∃ w', l[i + 1]? = some w' ∧ (symKind w' = .zrl ∨ symKind w' = .ac)

theorem zrlsFollowed_nil : ZrlsFollowed [] := fun i w hw => by simp at hw

theorem zrlsFollowed_cons_cons {w w' : Word} {l : List Word} (hw' : symKind w' = .zrl ∨ symKind w' = .ac)
    (hl : ZrlsFollowed (w' :: l)) : ZrlsFollowed (w :: w' :: l)
  | 0, _, _, _ => ⟨w', rfl, hw'⟩
  | i + 1, v, hv, hzrl => hl i v hv hzrl

theorem zrlsFollowed_cons_of_ne {w : Word} {l : List Word} (hw : symKind w ≠ .zrl) (hl : ZrlsFollowed l) :
    ZrlsFollowed (w :: l)
  | 0, _, hv, hzrl => absurd hzrl (Option.some.inj hv ▸ hw)
  | i + 1, v, hv, hzrl => hl i v hv hzrl

theorem zrlsFollowed_replicate_append {w : Word} {l : List Word} (hw : symKind w = .ac) (hl : ZrlsFollowed l) (n : Nat) :
    ZrlsFollowed (List.replicate n zrlWord ++ w :: l) := by
  induction n with
  | zero => exact zrlsFollowed_cons_of_ne (by simp [hw]) hl
  | succ n ih =>
    cases n with
    | zero => exact zrlsFollowed_cons_cons (.inr hw) ih
    | succ n => exact zrlsFollowed_cons_cons (.inl symKind_zrlWord) ih

theorem zrlsFollowed_acSymbols (run : Nat) (l : List Half) : ZrlsFollowed (acSymbols run l) := by
  fun_induction acSymbols run l with
  | case1 run h => exact zrlsFollowed_cons_of_ne (by simp) zrlsFollowed_nil
  | case2 run h => exact zrlsFollowed_nil
  | case3 run zs ih => exact ih
  | case4 run z zs hz ih => exact zrlsFollowed_replicate_append (symKind_acWord (Nat.mod_lt run (by decide)) z) ih _

/-- The fields of a word after the DC symbol. -/
theorem symFields_of_mem_acSymbols {run : Nat} {l : List Half} {w : Word} (hw : w ∈ acSymbols run l) :
    symKind w ≠ .dc ∧ (symKind w = .ac → symRun w ≤ 15 ∧ 1 ≤ symSize w ∧ symSize w ≤ 16) := by
  rcases mem_acSymbols hw with rfl | rfl | ⟨r, z, hr, hz, rfl⟩
  · simp
  · simp
  · rw [symKind_acWord hr, symSize_acWord hr]
    exact ⟨by decide, fun _ => ⟨Nat.le_of_lt_succ (symRun_lt _), one_le_category_half hz, category_half z⟩⟩

/-- Settles O26: the DC word from its difference, the other bounds from the loop's. -/
theorem symbolListBounds : Obligations.SymbolListBounds := by
  intro z p
  have hdc := symKind_dcWord_diff z[0] p
  have hcount := acSymbols_zrl_count 0 z.toList.tail
  refine ⟨(symbolize_length z p).1, (symbolize_length z p).2, fun w hw => ?_, fun w hw => symFields_of_mem_acSymbols hw,
    ?_, zrlsFollowed_cons_of_ne (by simp [hdc]) (zrlsFollowed_acSymbols 0 _)⟩
  · obtain rfl : dcWord (z[0].toInt - p.toInt) = w := Option.some.inj hw
    rw [symValue_dcWord_diff, symSize_dcWord_diff]
    exact ⟨hdc, abs_diff_le _ _, category_diff _ _⟩
  · rw [List.length_tail, Vector.length_toList] at hcount
    rw [symbolize, List.filter_cons_of_neg (by simp [hdc])]
    omega

/-! ### Runs of coefficients in a block -/

/-- The coefficients strictly between two scan positions. -/
def coefsBetween (z : Block Half) (i j : Nat) : List Half := (z.toList.drop (i + 1)).take (j - i - 1)

theorem symbolize_eq (z : Block Half) (p : Half) :
    symbolize z p = dcWord (z[0].toInt - p.toInt) :: acSymbols 0 (coefsBetween z 0 64) := by
  rw [symbolize, coefsBetween, List.take_of_length_le (by simp), List.drop_one]

theorem coefsBetween_split (z : Block Half) {i : Nat} {j : Fin 64} (h : i < j) :
    coefsBetween z i 64 = coefsBetween z i j ++ z[j] :: coefsBetween z j 64 := by
  have hdrop : ∀ n, (z.toList.drop (n + 1)).take (64 - n - 1) = z.toList.drop (n + 1) := fun n =>
    List.take_of_length_le (by simp; omega)
  have hat : z.toList.drop j = z[j] :: z.toList.drop (j + 1) := List.drop_eq_getElem_cons (by simp)
  simp only [coefsBetween, hdrop]
  rw [← hat]
  conv_lhs => rw [← List.take_append_drop (j - i - 1) (z.toList.drop (i + 1)), List.drop_drop]
  congr 2
  omega

theorem coefsBetween_eq_replicate {z : Block Half} {i j : Nat} (hj : j ≤ 64)
    (h : ∀ k : Fin 64, i < k → k < j → z[k] = 0) : coefsBetween z i j = List.replicate (j - i - 1) 0 := by
  refine List.ext_getElem (by simp [coefsBetween]; omega) fun n hn hn' => ?_
  rw [List.length_replicate] at hn'
  simpa [coefsBetween] using h ⟨i + 1 + n, by omega⟩ (by simp; omega) (by simp; omega)

/-- The list up to the AC word of a nonzero coefficient, and from there on. -/
theorem symbolize_split (z : Block Half) (p : Half) {j : Fin 64} (hj : j ≠ 0) (hz : z[j] ≠ 0) :
    ∃ ws r, r < 16 ∧ (∀ w ∈ ws, symKind w ≠ .eob) ∧
      symbolize z p =
        dcWord (z[0].toInt - p.toInt) :: ws ++ acWord r z[j].toInt :: acSymbols 0 (coefsBetween z j 64) := by
  obtain ⟨ws, r, hr, hws, heq⟩ := acSymbols_append_cons 0 (coefsBetween z 0 j) hz (coefsBetween z j 64)
  refine ⟨ws, r, hr, hws, ?_⟩
  rw [symbolize_eq, coefsBetween_split z (j := j) (by omega), heq, List.cons_append]

/-! ### The ends and the runs of the list (R177, R178) -/

/-- Settles O27: the zeros after the last nonzero coefficient, or after the DC position, give one EOB. -/
theorem allZeroAcGivesOneEndOfBlock : Obligations.AllZeroAcGivesOneEndOfBlock := by
  refine ⟨fun z p hzero => ?_, fun z p j hj hz hlast => ?_⟩
  · rw [symbolize_eq, coefsBetween_eq_replicate le_rfl fun k hk _ => hzero k (by omega), acSymbols_replicate_zero,
      if_neg (by decide), eobWord_eq, dcWord]
  · obtain ⟨ws, r, hr, hws, heq⟩ := symbolize_split z p hj hz
    refine ⟨ws, r, hr, fun hmem => hws _ hmem (by decide), ?_⟩
    have hend : 64 - j.val - 1 = 0 ↔ j = 63 := by omega
    rw [heq, coefsBetween_eq_replicate le_rfl fun k hk _ => hlast k hk, acSymbols_replicate_zero, eobWord_eq, dcWord, acWord]
    simp only [hend]

/-- Settles O28: the run is counted from the DC word, or from the AC word of the first position. -/
theorem zeroRunsGiveEscapesAndRemainder : Obligations.ZeroRunsGiveEscapesAndRemainder := by
  intro z p i j hij hi hzero hz n words
  have hrun : acSymbols 0 (coefsBetween z i 64) = words ++ acSymbols 0 (coefsBetween z j 64) := by
    rw [coefsBetween_split z hij, coefsBetween_eq_replicate j.isLt.le hzero, acSymbols_zero_run _ hz, zrlWord_eq, acWord]
    simp only [words, n, List.append_assoc, List.singleton_append]
  refine ⟨fun h0 => ?_, fun h0 => ?_⟩
  · subst h0
    exact ⟨_, hrun.symm.trans (congrArg List.tail (symbolize_eq z p)).symm⟩
  · obtain ⟨ws, r, hr, -, heq⟩ := symbolize_split z p h0 (hi.resolve_left h0)
    refine ⟨r, hr, dcWord (z[0].toInt - p.toInt) :: ws, acSymbols 0 (coefsBetween z j 64), ?_⟩
    simp only [heq, hrun, acWord, List.append_assoc, List.cons_append]

/-! ### RSTPRED (R176) -/

theorem exec_rstpred (s : State) : exec .rstpred s = .next (s.setPred #v[0, 0, 0]) := rfl

/-- Settles O30: the commit of the three predictors. -/
theorem rstpredZeroesThePredictors : Obligations.RstpredZeroesThePredictors := ⟨by decide, exec_rstpred⟩

end Sys2Proof.Machine
end

section
/-! The bit-packer obligations: BWRESET (R215) and the output bounds of the commands (R217). -/

open Sys2Proof.Claims

namespace Sys2Proof.Machine

/-! ### BWRESET (R215) -/

theorem exec_bwreset (s : State) : exec .bwreset s = .next (s.setWriter 0 0 []) := rfl

/-- Settles O38: the commit of an empty bit-writer and an empty queue. -/
theorem bwresetEmptiesTheStream : Obligations.BwresetEmptiesTheStream := ⟨by decide, exec_bwreset⟩

/-! ### What R217 says of a command that only appends -/

/-- From `s` to `t` at most `n` bytes are appended to `OUTQ`, and `E_OUT_FULL` is not recorded when `OUTQ` was empty. -/
def AppendsWithin (n : Nat) (s t : State) : Prop :=
  (∃ bytes, t.OUTQ = s.OUTQ ++ bytes ∧ bytes.length ≤ n) ∧ (s.OUTQ = [] → s.ERR = false → t.ERRCODE ≠ 0x05)

section
variable {n : Nat} {s t : State}

/-- A commit that leaves the queue alone, with no error recorded after it. -/
theorem appendsWithin_of_kept (hq : t.OUTQ = s.OUTQ) (hcode : s.ERR = false → t.ERRCODE = 0) : AppendsWithin n s t :=
  ⟨⟨[], by rw [hq, List.append_nil], n.zero_le⟩, fun _ herr => by rw [hcode herr]; decide⟩

theorem eq_outFull_of_code {e : ErrorEvent} (h : e.code = 0x05) : ∃ m, e = .outFull m := by
  cases e
  case outFull m => exact ⟨m, rfl⟩
  all_goals simp [ErrorEvent.code] at h

/-- An error entry that is `E_OUT_FULL` at most when the queue holds bytes. -/
theorem appendsWithin_errorEntry {e : ErrorEvent} (h : ∀ m, e = .outFull m → s.OUTQ ≠ []) :
    AppendsWithin n s (errorEntry e s) := by
  refine ⟨⟨[], by rw [errorEntry_OUTQ, List.append_nil], n.zero_le⟩, fun hempty herr hcode => ?_⟩
  rw [errorEntry_of_no_error herr] at hcode
  obtain ⟨m, hm⟩ := eq_outFull_of_code hcode
  exact h m hm hempty

/-- Eight bits complete a byte, and stuffing at most doubles it; an empty queue has room for them (R200, R216). -/
theorem appendsWithin_append {items : List CodeItem} (hwf : s.Wf) (hroom : n ≤ Config.outCap)
    (hbits : 2 * ((s.NBITS.toNat + (items.flatMap itemBits).length) / 8) ≤ n)
    (h : conclude s (appendItems items s) = .next t) : AppendsWithin n s t := by
  have hlen : (pack s.ACC.toNat s.NBITS.toNat items).bytes.length ≤ n :=
    (packBits_length (nbits_le_seven s) _).trans hbits
  rcases conclude_append_cases h with ⟨-, rfl⟩ | ⟨hfull, rfl⟩
  · refine ⟨⟨_, State.setWriter_OUTQ .., hlen⟩, fun _ herr => ?_⟩
    rw [State.setWriter_ERRCODE, hwf.noError herr]
    decide
  · refine appendsWithin_errorEntry fun _ _ hempty => ?_
    rw [hempty, List.length_nil] at hfull
    omega

/-- The symbols of a block, at most 64 of 26 bits each (R200). -/
theorem appendsWithin_code {k : TableClass} {i : Nat} {l : List Word} {items : List CodeItem} (hwf : s.Wf)
    (hl : l.length ≤ 64) (hcode : codeFrom k i l = .ok items) (h : conclude s (appendItems items s) = .next t) :
    AppendsWithin 416 s t := by
  have hbits := codeFrom_bits k hcode
  have hpending := nbits_le_seven s
  exact appendsWithin_append hwf (by decide) (by omega) h

end

/-! ### The commands that append (R197, R198, R213, R214) -/

theorem symbols_length_le (s : State) : s.symbols.length ≤ 64 := by
  rw [State.symbols, List.length_take, Vector.length_toList]
  exact Nat.min_le_right _ _

/-- FLUSH fills the pending byte, if there is one (R214). -/
theorem padding_bits {nb : Nat} (h : nb ≤ 7) : nb + ((padding nb).flatMap itemBits).length ≤ 8 := by
  by_cases h0 : nb = 0
  · simp [padding, h0]
  · simp only [padding, if_neg h0, List.flatMap_singleton, length_itemBits]
    omega

section
variable {s t : State} (hwf : s.Wf)
include hwf

theorem appendsWithin_huff {k : TableClass} (h : execHuff k s = .next t) : AppendsWithin 416 s t := by
  rcases execHuff_cases h with ⟨j, -, rfl⟩ | ⟨items, hcode, happend⟩
  · exact appendsWithin_errorEntry nofun
  · exact appendsWithin_code hwf (symbols_length_le s) hcode happend

theorem appendsWithin_encblk {c : Component} {k : TableClass} (h : execEncblk c k s = .next t) :
    AppendsWithin 416 s t := by
  have hl := (symbolize_length s.ZB (s.predOf c)).2
  rcases execEncblk_cases h with ⟨j, -, rfl⟩ | ⟨items, hcode, ⟨u, happend, rfl⟩ | ⟨e, happend, rfl⟩⟩
  · exact appendsWithin_errorEntry nofun
  · have hu : AppendsWithin 416 s u := appendsWithin_code hwf hl hcode (by rw [happend, conclude_ok])
    exact hu
  · exact appendsWithin_code hwf hl hcode (by rw [happend, conclude_error])

theorem appendsWithin_wrbits {n : BitVec 5} {v : BitVec 16} (hn : n.toNat ≤ 16) (h : execWrbits n v s = .next t) :
    AppendsWithin 4 s t := by
  have hpending := nbits_le_seven s
  refine appendsWithin_append hwf (by decide) ?_ h
  simp only [List.flatMap_singleton, length_itemBits]
  omega

theorem appendsWithin_flush (h : execFlush s = .next t) : AppendsWithin 2 s t := by
  have hbits := padding_bits (nbits_le_seven s)
  exact appendsWithin_append hwf (by decide) (by omega) h

/-! ### Every command (R217) -/

/-- No command but BWRESET and SRESET takes a byte from the queue, and each keeps to its bound. -/
theorem exec_appendsWithin {i : Instr} (hi : WellFormed i = true) (hne : i ≠ .bwreset ∧ i ≠ .sreset)
    (h : exec i s = .next t) : AppendsWithin (mostAppended i) s t := by
  cases i
  case huff k => exact appendsWithin_huff hwf h
  case encblk c k => exact appendsWithin_encblk hwf h
  case wrbits n v => exact appendsWithin_wrbits hwf (of_decide_eq_true hi) h
  case flush => exact appendsWithin_flush hwf h
  case bwreset => exact absurd rfl hne.1
  case sreset => exact absurd rfl hne.2
  case qtbuild c q =>
    by_cases hq : 1 ≤ q.toNat ∧ q.toNat ≤ 100
    · obtain rfl := Host.Outcome.next.inj ((execQtbuild_ok c s hq).symm.trans h)
      exact appendsWithin_of_kept rfl hwf.noError
    · obtain rfl := Host.Outcome.next.inj ((execQtbuild_error c s hq).symm.trans h)
      exact appendsWithin_errorEntry nofun
  case quant c =>
    rcases execQuant_cases h with ⟨k, rfl⟩ | ⟨b, rfl⟩
    · exact appendsWithin_errorEntry nofun
    · exact appendsWithin_of_kept rfl hwf.noError
  case clrerr =>
    obtain rfl := Host.Outcome.next.inj h
    exact appendsWithin_of_kept rfl fun _ => rfl
  all_goals
    obtain rfl := Host.Outcome.next.inj h
    exact appendsWithin_of_kept rfl hwf.noError

end

/-- Settles O40: the two resets empty the queue, and every other command appends within its bound. -/
theorem outputBoundsPerCommand : Obligations.OutputBoundsPerCommand := by
  intro i s t hwf hi h
  by_cases hne : i ≠ .bwreset ∧ i ≠ .sreset
  · obtain ⟨happend, hroom⟩ := exec_appendsWithin hwf hi hne h
    exact ⟨.inl happend, hroom⟩
  · have hreset : i = .bwreset ∨ i = .sreset := by tauto
    have hempty : t.OUTQ = [] ∧ (s.ERR = false → t.ERRCODE = 0) := by
      rcases hreset with rfl | rfl <;> obtain rfl := Host.Outcome.next.inj h
      · exact ⟨rfl, hwf.noError⟩
      · exact ⟨rfl, fun _ => rfl⟩
    exact ⟨.inr ⟨hreset, hempty.1⟩, fun _ herr => by rw [hempty.2 herr]; decide⟩

end Sys2Proof.Machine
end

section
/-! The encoding obligations: decoding undoes encoding (R93, R96), and encoding undoes decoding (R97). -/

open Sys2Proof.Machine

namespace Sys2Proof

/-! ### Decoding an encoding (R93, R96) -/

theorem decode_encode_wrbits {n : BitVec 5} (hn : n.toNat ≤ 16) (v : BitVec 16) :
    decode (encode (.wrbits n v)) = .ok (.wrbits n v) := by
  obtain ⟨hop, hoperand, hhigh⟩ := Laws.EncodeFields.wrbits n v (decide_eq_true hn)
  have hv := v.isLt
  simp only [operandBits] at hoperand
  have h13 := field_operand (encode (.wrbits n v)) (show 5 + 3 ≤ 24 by decide)
  have h8 := field_operand (encode (.wrbits n v)) (show 0 + 5 ≤ 24 by decide)
  have h16 := field_operand (encode (.wrbits n v)) (show 8 + 16 ≤ 24 by decide)
  simp only [Nat.reduceAdd] at h13 h8 h16
  have hreserved : field (encode (.wrbits n v)) 13 3 = 0 := by omega
  have hcount : field (encode (.wrbits n v)) 8 5 = n.toNat := by omega
  have hvalue : field (encode (.wrbits n v)) 16 16 = v.toNat := by omega
  simp only [decode, if_pos hhigh, hop, opcodeOf, formatW, if_pos hreserved, hcount, if_pos hn, hvalue,
    BitVec.ofNat_toNat, BitVec.setWidth_eq]

/-- Settles O2: the two formats with wide operands field by field; every other operand has at most six values. -/
theorem decodeReadsBackEveryEncoding : Obligations.DecodeReadsBackEveryEncoding := by
  intro i hi
  cases i
  case qtbuild t q => exact decode_encode_qtbuild t q
  case wrbits n v => exact decode_encode_wrbits (of_decide_eq_true hi) v
  case quant t => exact decode_encode_quant t
  case symb c => cases c <;> decide
  case huff t => cases t <;> decide
  case encblk c t => cases c <;> cases t <;> decide
  all_goals decide

/-! ### What each format accepts, and the operand number it then holds in bits 31:8 (R92) -/

theorem tableClassCode_tableClassOf_field (d : Word) (lo : Nat) :
    tableClassCode (tableClassOf (field d lo 1)) = field d lo 1 := by
  have hlt : field d lo 1 < 2 := Nat.mod_lt _ (by decide)
  generalize field d lo 1 = t at hlt ⊢
  revert t
  decide

theorem componentCode_of_componentOf {n : Nat} {c : Component} (h : componentOf n = some c) : componentCode c = n := by
  unfold componentOf at h
  split at h <;> cases h <;> rfl

/-- A check that succeeds. -/
theorem ite_error_eq_ok {p : Prop} [Decidable p] {r : Except DecodeError Instr} {e : DecodeError} {i : Instr} :
    (if p then r else .error e) = .ok i ↔ p ∧ r = .ok i := by
  split_ifs with h <;> simp [h]

section
variable {d : Word} {i : Instr}

theorem formatN_ok {j : Instr} (h : formatN d j = .ok i) : i = j ∧ field d 8 24 = 0 := by
  obtain ⟨hzero, hok⟩ := ite_error_eq_ok.mp h
  exact ⟨(Except.ok.inj hok).symm, hzero⟩

theorem formatT_ok {f : TableClass → Instr} (h : formatT d f = .ok i) :
    ∃ t, i = f t ∧ field d 8 24 = tableClassCode t := by
  obtain ⟨hzero, hok⟩ := ite_error_eq_ok.mp h
  refine ⟨_, (Except.ok.inj hok).symm, ?_⟩
  rw [tableClassCode_tableClassOf_field]
  simp only [field] at hzero ⊢
  omega

theorem formatC_ok {f : Component → Instr} (h : formatC d f = .ok i) :
    ∃ c, i = f c ∧ field d 8 24 = componentCode c * 2 ^ 2 := by
  obtain ⟨⟨hhigh, hlow⟩, hok⟩ := ite_error_eq_ok.mp h
  cases hc : componentOf (field d 10 2) with
  | none => rw [hc] at hok; cases hok
  | some c =>
    rw [hc] at hok
    refine ⟨c, (Except.ok.inj hok).symm, ?_⟩
    rw [componentCode_of_componentOf hc]
    simp only [field] at hhigh hlow ⊢
    omega

theorem formatCT_ok {f : Component → TableClass → Instr} (h : formatCT d f = .ok i) :
    ∃ c t, i = f c t ∧ field d 8 24 = componentCode c * 2 ^ 2 + tableClassCode t := by
  obtain ⟨⟨hhigh, hlow⟩, hok⟩ := ite_error_eq_ok.mp h
  cases hc : componentOf (field d 10 2) with
  | none => rw [hc] at hok; cases hok
  | some c =>
    rw [hc] at hok
    refine ⟨c, _, (Except.ok.inj hok).symm, ?_⟩
    rw [componentCode_of_componentOf hc, tableClassCode_tableClassOf_field]
    simp only [field] at hhigh hlow ⊢
    omega

theorem formatQ_ok {f : TableClass → BitVec 7 → Instr} (h : formatQ d f = .ok i) :
    ∃ t q, i = f t q ∧ field d 8 24 = q.toNat * 2 ^ 8 + tableClassCode t := by
  obtain ⟨⟨hhigh, hlow⟩, hok⟩ := ite_error_eq_ok.mp h
  refine ⟨_, _, (Except.ok.inj hok).symm, ?_⟩
  rw [tableClassCode_tableClassOf_field]
  simp only [field, BitVec.toNat_ofNat] at hhigh hlow ⊢
  omega

theorem formatW_ok {f : BitVec 5 → BitVec 16 → Instr} (h : formatW d f = .ok i) :
    ∃ n v, i = f n v ∧ n.toNat ≤ 16 ∧ field d 8 24 = v.toNat * 2 ^ 8 + n.toNat := by
  obtain ⟨hzero, hok⟩ := ite_error_eq_ok.mp h
  obtain ⟨hcount, hok⟩ := ite_error_eq_ok.mp hok
  refine ⟨_, _, (Except.ok.inj hok).symm, ?_⟩
  simp only [field, BitVec.toNat_ofNat] at hzero hcount ⊢
  omega

/-- A word is the encoding of the command whose opcode, operand bits and zeros it holds (R90). -/
theorem encode_eq_of_fields (hhigh : field d 32 32 = 0) (hop : field d 0 8 = opcodeOf i)
    (hbits : operandBits i = field d 8 24 * 2 ^ 8) : encode i = d := by
  apply BitVec.eq_of_toNat_eq
  rw [encode, hbits, ← hop, BitVec.toNat_ofNat]
  simp only [field] at hhigh ⊢
  omega

/-- Encoding undoes decoding (R97); the case split is that of the opcode map (R95). -/
theorem encode_of_decode (h : decode d = .ok i) : WellFormed i = true ∧ encode i = d := by
  rw [decode, ite_error_eq_ok] at h
  obtain ⟨hhigh, h⟩ := h
  split at h
  case h_4 hop =>
    obtain ⟨t, q, rfl, hbits⟩ := formatQ_ok h
    exact ⟨rfl, encode_eq_of_fields hhigh hop (by rw [hbits, operandBits]; ring)⟩
  case h_8 hop =>
    obtain ⟨c, rfl, hbits⟩ := formatC_ok h
    exact ⟨rfl, encode_eq_of_fields hhigh hop (by rw [hbits, operandBits]; ring)⟩
  case h_10 hop =>
    obtain ⟨c, t, rfl, hbits⟩ := formatCT_ok h
    exact ⟨rfl, encode_eq_of_fields hhigh hop (by rw [hbits, operandBits]; ring)⟩
  case h_11 hop =>
    obtain ⟨n, v, rfl, hn, hbits⟩ := formatW_ok h
    exact ⟨decide_eq_true hn, encode_eq_of_fields hhigh hop (by rw [hbits, operandBits]; ring)⟩
  case h_5 hop =>
    obtain ⟨t, rfl, hbits⟩ := formatT_ok h
    exact ⟨rfl, encode_eq_of_fields hhigh hop (by rw [hbits, operandBits])⟩
  case h_9 hop =>
    obtain ⟨t, rfl, hbits⟩ := formatT_ok h
    exact ⟨rfl, encode_eq_of_fields hhigh hop (by rw [hbits, operandBits])⟩
  case h_17 => cases h
  all_goals
    next hop =>
      obtain ⟨rfl, hbits⟩ := formatN_ok h
      exact ⟨rfl, encode_eq_of_fields hhigh hop (by rw [hbits]; rfl)⟩

end

/-- Settles O3: encoding undoes decoding. -/
theorem decodedWordIsTheOnlyEncoding : Obligations.DecodedWordIsTheOnlyEncoding := fun _ _ => encode_of_decode

end Sys2Proof
end

section
/-! The obligations about acceptance (R91), the control commands (R232 to R234) and the reset values (R280). -/

open Sys2Proof.Claims

namespace Sys2Proof.Machine

/-! ### The word written to `CMD` (R91) -/

theorem not_rejects_iff (s : State) (d : Word) :
    s.rejects d = false ↔ s.ERR = false ∨ d.extractLsb' 0 8 = 0x0E ∨ d.extractLsb' 0 8 = 0x0F := by
  rw [← Bool.not_eq_true, rejects_iff, ← Bool.not_eq_true]
  tauto

theorem issue_of_rejects {d : Word} {s : State} (h : s.rejects d = true) : issue d s = .next (accept d s) := if_pos h

theorem issue_of_decode {d : Word} {s : State} {i : Instr} (hrej : s.rejects d = false) (hd : decode d = .ok i) :
    issue d s = exec i (accept d s) := by
  simp only [issue, hrej, Bool.false_eq_true, if_false, hd]

theorem step_cmd_of_decode {s : State} {d : Word} {rest : List HostOp} {i : Instr} (hq : s.hostq = .write 0x200 d :: rest)
    (hr : s.inReset = false) (hp : s.mustPoll = false) (hb : s.BUSY = false)
    (hrun : s.ERR = false ∨ d.extractLsb' 0 8 = 0x0E ∨ d.extractLsb' 0 8 = 0x0F) (hd : decode d = .ok i) :
    step s = exec i (accepted s d rest) := by
  rw [step_cmd hq hr hp hb]
  exact issue_of_decode ((not_rejects_iff _ d).mpr hrun) hd

/-- Settles O5: a word that is not rejected runs; the placed word is the head of the host's queue by definition. -/
theorem stepRunsTheDecodedCommand : Obligations.StepRunsTheDecodedCommand :=
  ⟨fun _ _ _ _ => step_cmd_of_decode, fun _ _ => ⟨rfl, rfl, rfl, rfl⟩⟩

/-- A write inside the window is a hazard, whatever its address (R290). -/
theorem busWrite_of_inWindow {s : State} (h : s.inWindow = true) (a : BusAddr) (d : Word) :
    busWrite a d s = .fault .busyHazard := if_pos h

/-- Settles O6: the four outcomes of a word at `CMD` (rejected, ILLEGAL with and without an error, executed), and the window's hazard. -/
theorem cmdWriteFollowsTheAcceptanceRule : Obligations.CmdWriteFollowsTheAcceptanceRule := by
  refine ⟨fun s d => ⟨_, Nat.le_add_right 1 (Config.latExtra s.latDraws), rfl⟩, fun s d rest hq hr => ⟨fun hp => ?_, fun hp hb => ?_⟩⟩
  · rw [step_running hq hr]
    exact busWrite_of_inWindow (by simp [State.inWindow, hp]) 0x200 d
  · have hstep := step_cmd hq hr hp hb
    refine ⟨fun herr h14 h15 => ?_, fun herr hd => ?_, fun herr hd => ?_, fun hrun i hd => step_cmd_of_decode hq hr hp hb hrun hd⟩
    · rw [hstep]
      exact issue_of_rejects ((rejects_iff _ d).mpr ⟨herr, h14, h15⟩)
    · have hkept : (accept d (s.setHostq rest)).ERR = true := herr
      rw [hstep, issue_of_rejected hd, errorEntry_of_error hkept]
      rfl
    · have hnone : (accept d (s.setHostq rest)).ERR = false := herr
      rw [hstep, issue_of_rejected hd, errorEntry_illegalCmd, hnone]
      rfl

/-! ### The control commands (R232 to R234) -/

/-- Settles O7: NOP commits the state it was given. -/
theorem nopChangesNothing : Obligations.NopChangesNothing := fun _ => rfl

/-- Settles O8: CLRERR commits `clearError`. -/
theorem clrerrClearsOnlyTheErrorRecord : Obligations.ClrerrClearsOnlyTheErrorRecord := fun _ => rfl

/-- Settles O9: SRESET commits `softReset`. -/
theorem sresetRestoresTheResetState : Obligations.SresetRestoresTheResetState := fun _ => rfl

/-! ### Reset (R280) -/

theorem qtOf_reset (t : TableClass) : State.reset.qtOf t = base t := by cases t <;> rfl

theorem qualOf_reset (t : TableClass) : State.reset.qualOf t = 50 := by cases t <;> rfl

/-- The base tables are the tables of quality 50 (R142, R280). -/
theorem builtTable_50_eq_base (t : TableClass) : builtTable t 50 = base t := block_ext (builtTable_50 t)

/-- A state that holds the reset values is a clean entry at quality 50 (R283). -/
theorem cleanEntry_hardReset (s : State) : (hardReset s).CleanEntry [(.luma, 50), (.chroma, 50)] where
  idle := rfl
  noError := ⟨rfl, rfl⟩
  emptyQueue := rfl
  aligned := ⟨rfl, rfl⟩
  predictors := rfl
  built b hb := by
    have hclass : b.2 = 50 := by
      simp only [List.mem_cons, List.not_mem_nil, or_false] at hb
      rcases hb with rfl | rfl <;> rfl
    rw [hclass]
    exact ⟨(qtOf_reset b.1).trans (builtTable_50_eq_base b.1).symm, qualOf_reset b.1⟩

/-- Settles O58: the tables of reset are those of quality 50, and a released reset input leaves the reset state. -/
theorem resetGivesTheStatedValues : Obligations.ResetGivesTheStatedValues := by
  refine ⟨fun t k => ⟨?_, ?_, qualOf_reset t⟩, fun s rest hr hq => ?_⟩
  · rw [qtOf_reset]
  · rw [qtOf_reset, ← toNat_getElem_builtTable, builtTable_50]
  · exact ⟨hardReset (s.setHostq rest), step_inReset hq hr, rfl, rfl, rfl, rfl, rfl, rfl, rfl, rfl, rfl, rfl, rfl, rfl, rfl, rfl,
      rfl, rfl, rfl, rfl, cleanEntry_hardReset _⟩

end Sys2Proof.Machine
end

section
/-! The invariant (R40 and Safety.lean): it holds at reset, and every step keeps it. Its five parts are stated over the registers they speak of,
so that a part whose registers a step leaves alone is kept by definition. -/

namespace Sys2Proof.Machine

/-! ### The parts of the invariant -/

/-- Divisors in 1..255, qualities in 1..100 (R25, R26). -/
def TablesOk (QT : Vector (Block Byte) 2) (QUAL : Vector (BitVec 7) 2) : Prop :=
  (∀ (t : Fin 2) (k : Fin 64), 1 ≤ QT[t][k].toNat) ∧ ∀ t : Fin 2, 1 ≤ QUAL[t].toNat ∧ QUAL[t].toNat ≤ 100

/-- The pending bits fit their count, the queue its capacity, and the stream is stuffed (R31, R32, R218). -/
def WriterOk (ACC : BitVec 7) (NBITS : BitVec 3) (OUTQ : List Byte) : Prop :=
  ACC.toNat < 2 ^ NBITS.toNat ∧ OUTQ.length ≤ Config.outCap ∧ stuffed OUTQ = true

/-- The error record is empty without an error, and that of R34 and R250 with one. -/
def ErrorOk (ERR : Bool) (ERRCODE : BitVec 8) (ERR_INFO : Word) : Prop :=
  (ERR = false → ERRCODE = 0) ∧ (ERR = false → ERR_INFO = 0) ∧
    (ERR = true → 1 ≤ ERRCODE.toNat ∧ ERRCODE.toNat ≤ 5) ∧
    ERR_INFO.toNat / 2 ^ 8 % 2 ^ 8 = 0 ∧ ERR_INFO.toNat / 2 ^ 32 = 0

/-- The handshake: `BUSY` is 1 only inside the window and with cycles left, and the error bits shown meanwhile are an error's (R39, R290). -/
def HandshakeOk (BUSY mustPoll : Bool) (latLeft : Nat) (heldERR : Bool) (heldERRCODE : BitVec 8) : Prop :=
  (BUSY = true → mustPoll = true ∧ 1 ≤ latLeft) ∧ (heldERR = false → heldERRCODE = 0)

/-- The part of the invariant that a command can touch. -/
def State.CoreOk (s : State) : Prop :=
  TablesOk s.QT s.QUAL ∧ s.SYMCNT.toNat ≤ 64 ∧ WriterOk s.ACC s.NBITS s.OUTQ ∧ ErrorOk s.ERR s.ERRCODE s.ERR_INFO

/-- The part of the invariant that no command touches (`SameHost`). -/
def State.HostOk (s : State) : Prop := HandshakeOk s.BUSY s.mustPoll s.latLeft s.heldERR s.heldERRCODE

theorem inv_iff (s : State) : s.Inv ↔ s.CoreOk ∧ s.HostOk := by
  constructor
  · rintro ⟨⟨hdiv, hqual, hcnt, hpend, hcap, hcode⟩, hbusy, hinfo, herr, hres, hheld, hstream⟩
    exact ⟨⟨⟨hdiv, hqual⟩, hcnt, ⟨hpend, hcap, hstream⟩, hcode, hinfo, herr, hres⟩, hbusy, hheld⟩
  · rintro ⟨⟨⟨hdiv, hqual⟩, hcnt, ⟨hpend, hcap, hstream⟩, hcode, hinfo, herr, hres⟩, hbusy, hheld⟩
    exact ⟨⟨hdiv, hqual, hcnt, hpend, hcap, hcode⟩, hbusy, hinfo, herr, hres, hheld, hstream⟩

theorem writerOk_empty : WriterOk 0 0 [] := ⟨by decide, by decide, rfl⟩

theorem errorOk_none : ErrorOk false 0 0 := ⟨fun _ => rfl, fun _ => rfl, nofun, by decide⟩

theorem tablesOk_reset : TablesOk State.reset.QT State.reset.QUAL := ⟨by decide +kernel, by decide⟩

theorem coreOk_reset : State.reset.CoreOk := ⟨tablesOk_reset, by decide, writerOk_empty, errorOk_none⟩

theorem hostOk_reset : State.reset.HostOk := ⟨nofun, fun _ => rfl⟩

/-- Settles O59: the reset values meet every part of the invariant. -/
theorem resetStateIsWellFormed : Obligations.ResetStateIsWellFormed := (inv_iff _).mpr ⟨coreOk_reset, hostOk_reset⟩

/-! ### Commands keep the core's part -/

/-- The record of an error holds nothing in its reserved bits (R34). -/
theorem errInfoWord_reserved (detail : Nat) (d : Word) :
    (errInfoWord detail d).toNat / 2 ^ 8 % 2 ^ 8 = 0 ∧ (errInfoWord detail d).toNat / 2 ^ 32 = 0 := by
  rw [errInfoWord, BitVec.toNat_ofNat]
  omega

theorem ErrorEvent.code_bounds (e : ErrorEvent) : 1 ≤ e.code.toNat ∧ e.code.toNat ≤ 5 := by
  cases e <;> simp only [ErrorEvent.code] <;> decide

theorem coreOk_errorEntry {s : State} (h : s.CoreOk) (e : ErrorEvent) : (errorEntry e s).CoreOk := by
  cases herr : s.ERR
  · obtain ⟨htab, hcnt, hwriter, -⟩ := h
    rw [errorEntry_of_no_error herr]
    exact ⟨htab, hcnt, hwriter, nofun, nofun, fun _ => e.code_bounds, errInfoWord_reserved _ _⟩
  · rwa [errorEntry_of_error herr]

theorem coreOk_conclude {s t : State} {r : Except ErrorEvent State} (h : s.CoreOk) (hr : ∀ u, r = .ok u → u.CoreOk)
    (ht : conclude s r = .next t) : t.CoreOk := by
  rcases conclude_cases ht with hok | ⟨e, -, rfl⟩
  · exact hr t hok
  · exact coreOk_errorEntry h e

/-- What fits is appended stuffed, and what stays pending fits its count (R211, R216, R218). -/
theorem coreOk_append {s u : State} {items : List CodeItem} (h : s.CoreOk) (hu : appendItems items s = .ok u) : u.CoreOk := by
  obtain ⟨htab, hcnt, ⟨hpend, -, hstream⟩, herr⟩ := h
  rcases appendItems_cases items s with ⟨hroom, hok⟩ | ⟨-, herror⟩
  · obtain ⟨hnb, hacc⟩ := pack_pending hpend items
    obtain rfl := Except.ok.inj (hok.symm.trans hu)
    obtain ⟨hACC, hNBITS⟩ := setWriter_fits s (s.OUTQ ++ (pack s.ACC.toNat s.NBITS.toNat items).bytes) hnb hacc
    refine ⟨htab, hcnt, ⟨by rwa [hACC, hNBITS], ?_, stuffed_append hstream (packBits_stuffed _ _ _)⟩, herr⟩
    rw [State.setWriter_OUTQ, List.length_append]
    exact hroom
  · rw [herror] at hu
    cases hu

theorem tablesOk_setTable {s : State} {q : BitVec 7} (h : TablesOk s.QT s.QUAL) (hq : 1 ≤ q.toNat ∧ q.toNat ≤ 100) (c : TableClass) :
    TablesOk (s.setTable c (builtTable c q.toNat) q).QT (s.setTable c (builtTable c q.toNat) q).QUAL := by
  obtain ⟨hdiv, hqual⟩ := h
  constructor
  · intro t k
    rw [State.setTable_QT, Fin.getElem_fin (s.QT.set _ _ _), Vector.getElem_set]
    split
    · rw [toNat_getElem_builtTable]
      exact (entry_bounds _ _).1
    · exact hdiv t k
  · intro t
    rw [State.setTable_QUAL, Fin.getElem_fin, Vector.getElem_set]
    split
    · exact hq
    · exact hqual t

theorem coreOk_setSymbols {s : State} (h : s.CoreOk) {l : List Word} (hl : l.length ≤ 64) (c : Component) (p : Half) :
    (s.setSymbols l c p).CoreOk := by
  obtain ⟨htab, -, hwriter, herr⟩ := h
  refine ⟨htab, ?_, hwriter, herr⟩
  rw [State.setSymbols_SYMCNT, BitVec.toNat_ofNat]
  omega

/-- Every command keeps the core's part of the invariant. -/
theorem exec_coreOk {i : Instr} {s t : State} (h : s.CoreOk) (ht : exec i s = .next t) : t.CoreOk := by
  obtain ⟨htab, hcnt, hwriter, herr⟩ := id h
  cases i
  case qtbuild c q =>
    by_cases hq : 1 ≤ q.toNat ∧ q.toNat ≤ 100
    · obtain rfl := Host.Outcome.next.inj ((execQtbuild_ok c s hq).symm.trans ht)
      exact ⟨tablesOk_setTable htab hq c, hcnt, hwriter, herr⟩
    · obtain rfl := Host.Outcome.next.inj ((execQtbuild_error c s hq).symm.trans ht)
      exact coreOk_errorEntry h _
  case quant c =>
    rcases execQuant_cases ht with ⟨k, rfl⟩ | ⟨b, rfl⟩
    · exact coreOk_errorEntry h _
    · exact h
  case huff k =>
    rcases execHuff_cases ht with ⟨j, -, rfl⟩ | ⟨items, -, happend⟩
    · exact coreOk_errorEntry h _
    · exact coreOk_conclude h (fun u => coreOk_append h) happend
  case encblk c k =>
    rcases execEncblk_cases ht with ⟨j, -, rfl⟩ | ⟨items, -, ⟨u, happend, rfl⟩ | ⟨e, -, rfl⟩⟩
    · exact coreOk_errorEntry h _
    · exact coreOk_setSymbols (coreOk_append h happend) (symbolize_length _ _).2 c _
    · exact coreOk_errorEntry h _
  case wrbits n v => exact coreOk_conclude h (fun u => coreOk_append h) ht
  case flush => exact coreOk_conclude h (fun u => coreOk_append h) ht
  case symb c =>
    obtain rfl := Host.Outcome.next.inj ht
    exact coreOk_setSymbols h (symbolize_length _ _).2 c _
  case bwreset =>
    obtain rfl := Host.Outcome.next.inj ht
    exact ⟨htab, hcnt, writerOk_empty, herr⟩
  case clrerr =>
    obtain rfl := Host.Outcome.next.inj ht
    exact ⟨htab, hcnt, hwriter, errorOk_none⟩
  case sreset =>
    obtain rfl := Host.Outcome.next.inj ht
    exact coreOk_reset
  all_goals
    obtain rfl := Host.Outcome.next.inj ht
    exact h

theorem SameHost.hostOk {s t : State} (h : SameHost s t) (hs : s.HostOk) : t.HostOk := by
  rw [State.HostOk, h.BUSY, h.mustPoll, h.latLeft, h.heldERR, h.heldERRCODE]
  exact hs

theorem exec_inv {i : Instr} {s t : State} (h : s.Inv) (ht : exec i s = .next t) : t.Inv := by
  obtain ⟨hcore, hhost⟩ := (inv_iff s).mp h
  exact (inv_iff t).mpr ⟨exec_coreOk hcore ht, (exec_sameHost ht).hostOk hhost⟩

/-! ### Steps keep the invariant -/

theorem inv_setHostq {s : State} (h : s.Inv) (q : List HostOp) : (s.setHostq q).Inv :=
  (inv_iff _).mpr ((inv_iff s).mp h)

theorem inv_setInReset {s : State} (h : s.Inv) (b : Bool) : (s.setInReset b).Inv :=
  (inv_iff _).mpr ((inv_iff s).mp h)

/-- A cycle of the latency: in its last cycle `BUSY` falls. -/
theorem inv_tick {s : State} (h : s.Inv) : s.tick.Inv := by
  cases hb : s.BUSY
  · rwa [State.tick_of_idle hb]
  · obtain ⟨hcore, hbusy, hheld⟩ := (inv_iff s).mp h
    rw [State.tick_of_busy hb]
    refine (inv_iff _).mpr ⟨hcore, fun hlat => ⟨(hbusy hb).1, ?_⟩, hheld⟩
    have hlat : 1 < s.latLeft := of_decide_eq_true hlat
    exact Nat.le_sub_one_of_lt hlat

theorem inv_errorEntry {s : State} (h : s.Inv) (e : ErrorEvent) : (errorEntry e s).Inv := by
  obtain ⟨hcore, hhost⟩ := (inv_iff s).mp h
  exact (inv_iff _).mpr ⟨coreOk_errorEntry hcore e, (sameHost_errorEntry e s).hostOk hhost⟩

/-- Acceptance opens the window and holds the error bits (R39, R91). -/
theorem inv_accept {s : State} (h : s.Inv) (d : Word) : (accept d s).Inv := by
  obtain ⟨hcore, -⟩ := (inv_iff s).mp h
  exact (inv_iff _).mpr ⟨hcore, fun _ => ⟨rfl, Nat.le_add_right _ _⟩, h.wf.noError⟩

theorem issue_inv {d : Word} {s t : State} (h : s.Inv) (ht : issue d s = .next t) : t.Inv := by
  have haccept := inv_accept h d
  rcases issue_cases d s with ⟨-, hi⟩ | ⟨-, -, hi⟩ | ⟨-, i, -, hi⟩
  · obtain rfl := Host.Outcome.next.inj (hi.symm.trans ht)
    exact haccept
  · obtain rfl := Host.Outcome.next.inj (hi.symm.trans ht)
    exact inv_errorEntry haccept _
  · exact exec_inv haccept (hi.symm.trans ht)

/-- A read takes at most the oldest byte, and records a word (R76). -/
theorem inv_read {s : State} (h : s.Inv) (a : BusAddr) (w : Word) : ((afterRead a s).record a w).Inv := by
  obtain ⟨q, hread, hq⟩ := afterRead_eq a s
  obtain ⟨⟨htab, hcnt, ⟨hpend, hcap, hstream⟩, herr⟩, hhost⟩ := (inv_iff s).mp h
  rw [hread]
  refine (inv_iff _).mpr ⟨⟨htab, hcnt, ⟨hpend, ?_⟩, herr⟩, hhost⟩
  rcases hq with rfl | rfl
  · exact ⟨hcap, hstream⟩
  · exact ⟨by simp; omega, stuffed_tail hstream⟩

theorem inv_poke {s : State} (h : s.Inv) (a : BusAddr) (d : Word) : (poke a d s).Inv := by
  obtain ⟨_, _, _, _, _, n, hpoke, hn⟩ := poke_eq a d s
  obtain ⟨⟨htab, hcnt, hwriter, herr⟩, hhost⟩ := (inv_iff s).mp h
  rw [hpoke]
  exact (inv_iff _).mpr ⟨⟨htab, hn hcnt, hwriter, herr⟩, hhost⟩

/-- A read of `STATUS` closes the window only with `BUSY` = 0. -/
theorem inv_polled {s : State} (h : s.Inv) (a : BusAddr) (w : Word) : (s.record a w).polled.Inv := by
  obtain ⟨hcore, hbusy, hheld⟩ := (inv_iff s).mp h
  refine (inv_iff _).mpr ⟨hcore, fun hb => ?_, hheld⟩
  have hb : s.BUSY = true := hb
  obtain ⟨hpoll, hlat⟩ := hbusy hb
  exact ⟨show (s.mustPoll && s.BUSY) = true by rw [hpoll, hb]; rfl, hlat⟩

theorem inv_setIdle {s : State} (h : s.Inv) : s.setIdle.Inv := by
  obtain ⟨hcore, -, hheld⟩ := (inv_iff s).mp h
  exact (inv_iff _).mpr ⟨hcore, nofun, hheld⟩

/-- Settles O60: kind by kind of what a step can do. -/
theorem everyStepKeepsTheInvariant : Obligations.EveryStepKeepsTheInvariant := by
  intro s t h hstep
  have htick := fun q => inv_setHostq (inv_tick h) q
  cases step_cases hstep
  case inReset q _ => exact inv_setHostq h q
  case released q _ _ => exact (inv_iff _).mpr ⟨coreOk_reset, hostOk_reset⟩
  case quiet q _ _ => exact htick q
  case asserted q _ _ => exact inv_setInReset (htick q) true
  case status q _ _ => exact inv_polled (htick q) _ _
  case read a q _ _ _ => exact inv_read (htick q) a _
  case write a d q _ _ _ _ => exact inv_poke (htick q) a d
  case command d q _ _ _ hi => exact issue_inv (htick q) hi
  case wait q _ _ => exact inv_polled (inv_setIdle (inv_setHostq h q)) _ _

end Sys2Proof.Machine
end

section
/-! The obligations about the register space: what each register reads (R72 to R77), the pop of `OUT_DATA` (R76), and the frames of a host
write (R78) and of every command (R122 to R234), read by read. -/

open Sys2Proof.Claims

namespace Sys2Proof.Machine

/-! ### Layouts of registers (R33, R36, R76) -/

/-- A number above a byte's place and one below it: their sum is their bitwise or. -/
theorem ofNat_mul_add_eq_or {w : Nat} (x : BitVec w) {y : Nat} (hw : x.toNat < 2 ^ 56) (hy : y < 2 ^ 8) :
    BitVec.ofNat 64 (x.toNat * 2 ^ 8 + y) = x.setWidth 64 <<< 8 ||| BitVec.ofNat 64 y := by
  apply BitVec.eq_of_toNat_eq
  have hor := Nat.two_pow_add_eq_or_of_lt hy x.toNat
  have hx : (x.setWidth 64 <<< 8).toNat = 2 ^ 8 * x.toNat := by
    rw [BitVec.toNat_shiftLeft, BitVec.toNat_setWidth, Nat.shiftLeft_eq]
    omega
  rw [BitVec.toNat_or, hx, BitVec.toNat_ofNat, BitVec.toNat_ofNat, Nat.mod_eq_of_lt (show y < 2 ^ 64 by omega), ← hor]
  omega

theorem statusLayout_eq (busy err : Bool) (code : BitVec 8) :
    statusLayout busy err code = (code.setWidth 64 <<< 8) ||| (if err then 2 else 0) ||| (if busy then 1 else 0) := by
  have hlow : bitOf err * 2 + bitOf busy < 2 ^ 8 := by cases err <;> cases busy <;> decide
  rw [statusLayout, Nat.add_assoc, ofNat_mul_add_eq_or code (code.isLt.trans (by decide)) hlow, BitVec.or_assoc]
  cases err <;> cases busy <;> rfl

theorem statusWord_of_idle {s : State} (h : s.BUSY = false) : s.statusWord = statusLayout false s.ERR s.ERRCODE := by
  simp [State.statusWord, h]

theorem statusWord_of_busy {s : State} (h : s.BUSY = true) : s.statusWord = statusLayout true s.heldERR s.heldERRCODE := by
  simp [State.statusWord, h]

theorem bwStateWord_eq (s : State) : s.bwStateWord = (s.NBITS.setWidth 64 <<< 8) ||| s.ACC.setWidth 64 := by
  have hacc := s.ACC.isLt
  rw [State.bwStateWord, ofNat_mul_add_eq_or s.NBITS (s.NBITS.isLt.trans (by decide)) (by omega)]
  congr 1
  exact BitVec.eq_of_toNat_eq (by simp)

theorem outDataWord_cons (b : Byte) (rest : List Byte) : outDataWord (b :: rest) = 0x100 ||| b.setWidth 64 := by
  refine (ofNat_mul_add_eq_or (1 : BitVec 8) (by decide) b.isLt).trans ?_
  congr 1
  exact BitVec.eq_of_toNat_eq (by simp)

/-- Settles O46: each register's layout. -/
theorem registersReadTheirFields : Obligations.RegistersReadTheirFields := by
  refine fun s => ⟨rfl, rfl, fun h => ?_, fun h => ?_, rfl, rfl, rfl, bwStateWord_eq s, fun h => ?_, rfl, rfl, rfl, rfl⟩
  · exact (statusWord_of_idle h).trans ((statusLayout_eq _ _ _).trans (BitVec.or_zero))
  · exact (statusWord_of_busy h).trans (statusLayout_eq _ _ _)
  · have hcap : Config.outCap < 2 ^ 64 := by decide
    exact (BitVec.toNat_ofNat s.OUTQ.length 64).trans (Nat.mod_eq_of_lt (by omega))

/-! ### The pop of `OUT_DATA` (R76) -/

theorem targetOf_eq_outData {a : BusAddr} (h : targetOf a = .outData) : a = 0x209 :=
  targetOf_inj (b := 0x209) h (by rw [h]; decide)

/-- Settles O49: the word read and the byte removed; no other address names `OUT_DATA`. -/
theorem readOfOutDataPopsOneByte : Obligations.ReadOfOutDataPopsOneByte := by
  intro s
  have hpeek : peek 0x209 s = outDataWord s.OUTQ := rfl
  have hread : afterRead 0x209 s = { s with OUTQ := s.OUTQ.tail } := rfl
  refine ⟨fun hq => ⟨by rw [hpeek, hq]; rfl, ?_⟩, fun b rest hq => ⟨?_, by rw [hread, hq]; rfl⟩, fun a ha => ?_⟩
  · have htail : s.OUTQ.tail = s.OUTQ := by rw [hq]; rfl
    rw [hread, htail]
  · rw [hpeek, hq, outDataWord_cons]
  · exact afterRead_of_ne s fun h => ha (targetOf_eq_outData h)

/-! ### The frame of a host write (R78) -/

section
variable {b : BusAddr} {s : State}

theorem peek_setS {v : Block Word} (h : ∀ k, targetOf b = .s k → v[k] = s.S[k]) : peek b (s.setS v) = peek b s := by
  unfold peek
  cases hb : targetOf b with
  | s k => exact h k hb
  | _ => rfl

theorem peek_setC {v : Block Word} (h : ∀ k, targetOf b = .c k → v[k] = s.C[k]) : peek b (s.setC v) = peek b s := by
  unfold peek
  cases hb : targetOf b with
  | c k => exact h k hb
  | _ => rfl

theorem peek_setQB {v : Block Half} (h : ∀ k, targetOf b = .qb k → v[k] = s.QB[k]) : peek b (s.setQB v) = peek b s := by
  unfold peek
  cases hb : targetOf b with
  | qb k => exact congrArg sext16 (h k hb)
  | _ => rfl

theorem peek_setZB {v : Block Half} (h : ∀ k, targetOf b = .zb k → v[k] = s.ZB[k]) : peek b (s.setZB v) = peek b s := by
  unfold peek
  cases hb : targetOf b with
  | zb k => exact congrArg sext16 (h k hb)
  | _ => rfl

theorem peek_setSymbuf {v : Block Word} (h : ∀ k, targetOf b = .symbuf k → v[k] = s.SYMBUF[k]) :
    peek b (s.setSymbuf v) = peek b s := by
  unfold peek
  cases hb : targetOf b with
  | symbuf k => exact h k hb
  | _ => rfl

theorem peek_setSymcnt {n : BitVec 7} (h : targetOf b ≠ .symcnt) : peek b (s.setSymcnt n) = peek b s := by
  unfold peek
  cases hb : targetOf b with
  | symcnt => exact absurd hb h
  | _ => rfl

end

/-- Writing an element of a block leaves the others. -/
theorem getElem_set_of_ne {α : Type} {v : Block α} {k j : Fin 64} {x : α} (h : k ≠ j) : (v.set k.val x)[j] = v[j] :=
  Vector.getElem_set_ne _ _ fun hval => h (Fin.ext hval)

/-- A write changes the reading of its own target alone, and of `S[k]` when that is `S_PIX[k]`. -/
theorem peek_poke {a b : BusAddr} (d : Word) (s : State) (hne : targetOf a ≠ targetOf b)
    (hpix : ∀ k, targetOf a = .sPix k → targetOf b ≠ .s k) : peek b (poke a d s) = peek b s := by
  by_cases hign : (targetOf a).IgnoresPoke
  · rw [poke_of_ignoresPoke hign]
  unfold poke
  cases ha : targetOf a <;> simp only [ha, Target.IgnoresPoke, not_true_eq_false] at hne hign
  case s k => exact peek_setS fun j hj => getElem_set_of_ne (by rintro rfl; exact hne hj.symm)
  case sPix k => exact peek_setS fun j hj => getElem_set_of_ne (by rintro rfl; exact hpix k ha hj)
  case c k => exact peek_setC fun j hj => getElem_set_of_ne (by rintro rfl; exact hne hj.symm)
  case qb k => exact peek_setQB fun j hj => getElem_set_of_ne (by rintro rfl; exact hne hj.symm)
  case zb k => exact peek_setZB fun j hj => getElem_set_of_ne (by rintro rfl; exact hne hj.symm)
  case symbuf k => exact peek_setSymbuf fun j hj => getElem_set_of_ne (by rintro rfl; exact hne hj.symm)
  case symcnt => exact peek_setSymcnt hne.symm

/-- Settles O47: two addresses that are not reserved name different targets, and a reserved one ignores the write. -/
theorem writeChangesOnlyItsElement : Obligations.WriteChangesOnlyItsElement := by
  intro a b d s _ hab hpix
  by_cases hres : targetOf a = .reserved
  · rw [poke_of_ignoresPoke (hres ▸ trivial)]
  · refine peek_poke d s (fun h => hab (targetOf_inj h hres)) fun k ha hb => hpix ?_
    have ha' := addrOf_targetOf a hres
    have hb' := addrOf_targetOf b (by rw [hb]; nofun)
    rw [ha] at ha'
    rw [hb] at hb'
    rw [← ha', ← hb']
    simp only [addrOf, BitVec.toNat_ofNat]
    omega

/-! ### The frame of a command (R122 to R234) -/

/-- What a host reads in a window is the same in `t` as in `s`, when their host sides are the same. -/
def SameWindow (s t : State) : Window → Prop
  | .s => t.S = s.S
  | .c => t.C = s.C
  | .qb => t.QB = s.QB
  | .zb => t.ZB = s.ZB
  | .qt u => t.qtOf u = s.qtOf u
  | .qual u => t.qualOf u = s.qualOf u
  | .symbuf => t.SYMBUF = s.SYMBUF
  | .symcnt => t.SYMCNT = s.SYMCNT
  | .pred u => t.predOf u = s.predOf u
  | .writer => t.ACC = s.ACC ∧ t.NBITS = s.NBITS ∧ t.OUTQ = s.OUTQ
  | .error => t.ERR = s.ERR ∧ t.ERRCODE = s.ERRCODE ∧ t.ERR_INFO = s.ERR_INFO
  | .fixed => True

/-- A read shows its window and the host's side alone. -/
theorem peek_of_sameWindow {a : BusAddr} {s t : State} (hhost : SameHost s t) (h : SameWindow s t (windowOf (targetOf a))) :
    peek a t = peek a s := by
  refine peek_congr ?_
  cases ha : targetOf a <;> rw [ha] at h
  case cmd => exact hhost.LASTCMD
  case status => exact ⟨hhost.BUSY, h.1, h.2.1, hhost.heldERR, hhost.heldERRCODE⟩
  case errInfo => exact h.2.2
  case bwState => exact ⟨h.1, h.2.1⟩
  case outCount => exact h.2.2
  case outData => exact h.2.2
  case sPix => trivial
  all_goals exact h

section
variable {s t : State} {w : Window}

theorem SameWindow.trans {u : State} (hsu : SameWindow s u w) (hut : SameWindow u t w) : SameWindow s t w := by
  cases w
  case writer => exact ⟨hut.1.trans hsu.1, hut.2.1.trans hsu.2.1, hut.2.2.trans hsu.2.2⟩
  case error => exact ⟨hut.1.trans hsu.1, hut.2.1.trans hsu.2.1, hut.2.2.trans hsu.2.2⟩
  case fixed => trivial
  all_goals exact Eq.trans hut hsu

theorem sameWindow_errorEntry (e : ErrorEvent) (h : w ≠ .error) : SameWindow s (errorEntry e s) w := by
  cases w
  case error => exact absurd rfl h
  all_goals simp [SameWindow, State.qtOf, State.qualOf, State.predOf]

theorem sameWindow_setWriter {a nb : Nat} {q : List Byte} (h : w ≠ .writer) : SameWindow s (s.setWriter a nb q) w := by
  cases w
  case writer => exact absurd rfl h
  all_goals simp [SameWindow, State.qtOf, State.qualOf, State.predOf]

theorem sameWindow_append {items : List CodeItem} (h : w ≠ .writer) (ht : appendItems items s = .ok t) : SameWindow s t w := by
  rcases appendItems_cases items s with ⟨-, hok⟩ | ⟨-, herror⟩
  · obtain rfl := Except.ok.inj (hok.symm.trans ht)
    exact sameWindow_setWriter h
  · rw [herror] at ht
    cases ht

/-- An append that fits changes the bit-writer, and one that does not the error record. -/
theorem sameWindow_conclude_append {items : List CodeItem} (hwriter : w ≠ .writer) (herror : w ≠ .error)
    (ht : conclude s (appendItems items s) = .next t) : SameWindow s t w := by
  rcases conclude_cases ht with hok | ⟨e, -, rfl⟩
  · exact sameWindow_append hwriter hok
  · exact sameWindow_errorEntry e herror

theorem predIndex_val_ne {c c' : Component} (h : c' ≠ c) : (predIndex c).val ≠ (predIndex c').val := by
  revert h
  cases c <;> cases c' <;> decide

theorem predOf_setSymbols_ne {c c' : Component} (h : c' ≠ c) (s : State) (l : List Word) (p : Half) :
    (s.setSymbols l c p).predOf c' = s.predOf c' := by
  simp [State.predOf, Vector.getElem_set_ne _ _ (predIndex_val_ne h)]

theorem sameWindow_setSymbols {l : List Word} {c : Component} {p : Half} (h : w ∉ [.symbuf, .symcnt, .pred c]) :
    SameWindow s (s.setSymbols l c p) w := by
  cases w
  case symbuf => simp at h
  case symcnt => simp at h
  case pred u => exact predOf_setSymbols_ne (by simpa using h) s l p
  all_goals simp [SameWindow, State.qtOf, State.qualOf]

theorem sameWindow_setTable {c : TableClass} {b : Block Byte} {q : BitVec 7} (h : w ∉ [.qt c, .qual c]) :
    SameWindow s (s.setTable c b q) w := by
  cases w
  case qt u => exact qtOf_setTable_ne s b q (by simpa using h)
  case qual u => exact qualOf_setTable_ne s b q (by simpa using h)
  all_goals simp [SameWindow, State.predOf]

/-- The windows that a command's rule does not name stay the same. -/
theorem exec_sameWindow {i : Instr} (ht : exec i s = .next t) (hw : w ∉ windowsOf i) : SameWindow s t w := by
  cases i
  case qtbuild c q =>
    simp only [windowsOf, List.mem_cons, List.not_mem_nil, or_false, not_or] at hw
    obtain ⟨hqt, hqual, herror⟩ := hw
    by_cases hq : 1 ≤ q.toNat ∧ q.toNat ≤ 100
    · obtain rfl := Host.Outcome.next.inj ((execQtbuild_ok c s hq).symm.trans ht)
      exact sameWindow_setTable (by simp [hqt, hqual])
    · obtain rfl := Host.Outcome.next.inj ((execQtbuild_error c s hq).symm.trans ht)
      exact sameWindow_errorEntry _ herror
  case quant c =>
    rcases execQuant_cases ht with ⟨k, rfl⟩ | ⟨b, rfl⟩
    · exact sameWindow_errorEntry _ (List.ne_of_not_mem_cons (List.not_mem_of_not_mem_cons hw))
    · cases w <;> simp [windowsOf] at hw <;> simp [SameWindow, State.qtOf, State.qualOf, State.predOf]
  case huff k =>
    simp only [windowsOf, List.mem_cons, List.not_mem_nil, or_false, not_or] at hw
    rcases execHuff_cases ht with ⟨j, -, rfl⟩ | ⟨items, -, happend⟩
    · exact sameWindow_errorEntry _ hw.2
    · exact sameWindow_conclude_append hw.1 hw.2 happend
  case encblk c k =>
    simp only [windowsOf, List.mem_cons, List.not_mem_nil, or_false, not_or] at hw
    obtain ⟨hbuf, hcnt, hpred, hwriter, herror⟩ := hw
    rcases execEncblk_cases ht with ⟨j, -, rfl⟩ | ⟨items, -, ⟨u, happend, rfl⟩ | ⟨e, -, rfl⟩⟩
    · exact sameWindow_errorEntry _ herror
    · exact (sameWindow_append hwriter happend).trans (sameWindow_setSymbols (by simp [hbuf, hcnt, hpred]))
    · exact sameWindow_errorEntry _ herror
  case wrbits n v =>
    simp only [windowsOf, List.mem_cons, List.not_mem_nil, or_false, not_or] at hw
    exact sameWindow_conclude_append hw.1 hw.2 ht
  case flush =>
    simp only [windowsOf, List.mem_cons, List.not_mem_nil, or_false, not_or] at hw
    exact sameWindow_conclude_append hw.1 hw.2 ht
  case symb c =>
    obtain rfl := Host.Outcome.next.inj ht
    exact sameWindow_setSymbols hw
  case bwreset =>
    obtain rfl := Host.Outcome.next.inj ht
    exact sameWindow_setWriter (List.ne_of_not_mem_cons hw)
  case rstpred =>
    obtain rfl := Host.Outcome.next.inj ht
    cases w
    case pred u => cases u <;> simp [windowsOf] at hw
    all_goals simp [SameWindow, State.qtOf, State.qualOf]
  case sreset =>
    obtain rfl := Host.Outcome.next.inj ht
    cases w
    case qt u => cases u <;> simp [windowsOf] at hw
    case qual u => cases u <;> simp [windowsOf] at hw
    case pred u => cases u <;> simp [windowsOf] at hw
    all_goals simp [SameWindow, windowsOf] at hw ⊢
  all_goals
    obtain rfl := Host.Outcome.next.inj ht
    cases w <;> simp [windowsOf] at hw <;> simp [SameWindow, State.qtOf, State.qualOf, State.predOf]

end

/-- Settles O50: a read shows its window and the host's side, and a command leaves both alone. -/
theorem commandsChangeOnlyTheirWindows : Obligations.CommandsChangeOnlyTheirWindows := fun _ _ _ _ ht hw =>
  peek_of_sameWindow (exec_sameHost ht) (exec_sameWindow ht hw)

end Sys2Proof.Machine
end

section
/-! The error obligations: what a command that raises an error leaves behind (R250, R252), and what clears a recorded error (R254). -/

open Sys2Proof.Claims

namespace Sys2Proof.Machine

/-! ### The record of an error (R34, R250, R252) -/

/-- From no error to an error recorded, `t` is the error entry of one of the codes `l`. -/
def EntersOneOf (l : List (BitVec 8)) (s t : State) : Prop :=
  s.ERR = false → t.ERR = true → ∃ e : ErrorEvent, t = errorEntry e s ∧ e.code ∈ l

section
variable {l : List (BitVec 8)} {s t : State}

/-- A commit that leaves `ERR` alone, or clears it, enters no error. -/
theorem entersOneOf_of_kept (h : s.ERR = false → t.ERR = false) : EntersOneOf l s t := fun hs ht => by
  rw [h hs] at ht
  cases ht

theorem entersOneOf_errorEntry {e : ErrorEvent} (h : e.code ∈ l) : EntersOneOf l s (errorEntry e s) :=
  fun _ _ => ⟨e, rfl, h⟩

theorem append_ERR {items : List CodeItem} {u : State} (h : appendItems items s = .ok u) : u.ERR = s.ERR := by
  rcases appendItems_cases items s with ⟨-, hok⟩ | ⟨-, herror⟩
  · rw [← Except.ok.inj (hok.symm.trans h), State.setWriter_ERR]
  · rw [herror] at h
    cases h

theorem entersOneOf_append {items : List CodeItem} (hl : 0x05 ∈ l) (h : conclude s (appendItems items s) = .next t) :
    EntersOneOf l s t := by
  rcases conclude_append_cases h with ⟨-, rfl⟩ | ⟨-, rfl⟩
  · exact entersOneOf_of_kept id
  · exact entersOneOf_errorEntry hl

/-- A command that raises an error does nothing but enter it, with one of its own codes (R15, R250, R252). -/
theorem exec_entersOneOf {i : Instr} (h : exec i s = .next t) : EntersOneOf (mayRaise i) s t := by
  cases i
  case qtbuild c q =>
    by_cases hq : 1 ≤ q.toNat ∧ q.toNat ≤ 100
    · obtain rfl := Host.Outcome.next.inj ((execQtbuild_ok c s hq).symm.trans h)
      exact entersOneOf_of_kept id
    · obtain rfl := Host.Outcome.next.inj ((execQtbuild_error c s hq).symm.trans h)
      exact entersOneOf_errorEntry (List.mem_singleton.mpr rfl)
  case quant c =>
    rcases execQuant_cases h with ⟨k, rfl⟩ | ⟨b, rfl⟩
    · exact entersOneOf_errorEntry (List.mem_singleton.mpr rfl)
    · exact entersOneOf_of_kept id
  case huff k =>
    rcases execHuff_cases h with ⟨j, -, rfl⟩ | ⟨items, -, happend⟩
    · exact entersOneOf_errorEntry List.mem_cons_self
    · exact entersOneOf_append (by simp [mayRaise]) happend
  case encblk c k =>
    rcases execEncblk_cases h with ⟨j, -, rfl⟩ | ⟨items, -, ⟨u, happend, rfl⟩ | ⟨e, happend, rfl⟩⟩
    · exact entersOneOf_errorEntry List.mem_cons_self
    · exact entersOneOf_of_kept fun hs => (append_ERR happend).trans hs
    · exact entersOneOf_append (by simp [mayRaise]) (by rw [happend, conclude_error])
  case wrbits n v => exact entersOneOf_append (by simp [mayRaise]) h
  case flush => exact entersOneOf_append (by simp [mayRaise]) h
  case clrerr =>
    obtain rfl := Host.Outcome.next.inj h
    exact entersOneOf_of_kept fun _ => rfl
  case sreset =>
    obtain rfl := Host.Outcome.next.inj h
    exact entersOneOf_of_kept fun _ => rfl
  all_goals
    obtain rfl := Host.Outcome.next.inj h
    exact entersOneOf_of_kept id

end

/-- The opcode in bits 7:0, and zeros in the reserved bits (R34). -/
theorem errInfoWord_fields (detail : Nat) (d : Word) :
    (errInfoWord detail d).extractLsb' 0 8 = d.extractLsb' 0 8 ∧ (errInfoWord detail d).extractLsb' 8 8 = 0 ∧
      (errInfoWord detail d).extractLsb' 32 32 = 0 := by
  simp only [extractLsb'_eq_iff_field, toNat_extractLsb'_eq_field, field, errInfoWord, BitVec.toNat_ofNat,
    BitVec.reduceToNat]
  omega

/-- Settles O42: an error entry on a state without an error, read field by field. -/
theorem errorsArePreciseAndRecorded : Obligations.ErrorsArePreciseAndRecorded := by
  intro i s t h hs ht
  obtain ⟨e, rfl, hcode⟩ := exec_entersOneOf h hs ht
  rw [errorEntry_of_no_error hs]
  exact ⟨rfl, hcode, errInfoWord_fields _ _⟩

/-! ### What clears an error (R254) -/

/-- A word with the opcode of CLRERR or SRESET that is not ILLEGAL is the word of that command: it has no operands (R92, R95). -/
theorem word_of_decode_clears {d : Word} {i : Instr} (hd : decode d = .ok i)
    (hop : d.extractLsb' 0 8 = 0x0E ∨ d.extractLsb' 0 8 = 0x0F) : d = 0xE ∨ d = 0xF := by
  obtain ⟨-, hencode⟩ := encode_of_decode hd
  rw [decode, ite_error_eq_ok] at hd
  simp only [extractLsb'_eq_iff_field] at hop
  rcases hop with hop | hop <;> simp only [hop, BitVec.reduceToNat] at hd
  · obtain ⟨rfl, -⟩ := formatN_ok hd.2
    exact .inl hencode.symm
  · obtain ⟨rfl, -⟩ := formatN_ok hd.2
    exact .inr hencode.symm

/-- The error record of `t` is that of `s`. -/
def SameError (s t : State) : Prop := t.ERR = s.ERR ∧ t.ERRCODE = s.ERRCODE ∧ t.ERR_INFO = s.ERR_INFO

/-- While an error is recorded, a word at `CMD` keeps the record, unless it is that of CLRERR or SRESET (R91, R254). -/
theorem issue_sameError {d : Word} {s t : State} (hs : s.ERR = true) (h : issue d s = .next t) :
    SameError s t ∨ d = 0xE ∨ d = 0xF := by
  have haccept : (accept d s).ERR = true := hs
  rcases issue_cases d s with ⟨-, hi⟩ | ⟨-, -, hi⟩ | ⟨hrej, i, hd, -⟩
  · obtain rfl := Host.Outcome.next.inj (hi.symm.trans h)
    exact .inl ⟨rfl, rfl, rfl⟩
  · obtain rfl := Host.Outcome.next.inj (hi.symm.trans h)
    rw [errorEntry_of_error haccept]
    exact .inl ⟨rfl, rfl, rfl⟩
  · have hop := ((not_rejects_iff s d).mp hrej).resolve_left (by simp [hs])
    exact .inr (word_of_decode_clears hd hop)

theorem sameError_afterRead (a : BusAddr) (s : State) : SameError s (afterRead a s) := by
  obtain ⟨q, hread, -⟩ := afterRead_eq a s
  rw [hread]
  exact ⟨rfl, rfl, rfl⟩

theorem sameError_poke (a : BusAddr) (d : Word) (s : State) : SameError s (poke a d s) := by
  obtain ⟨_, _, _, _, _, _, hpoke, -⟩ := poke_eq a d s
  rw [hpoke]
  exact ⟨rfl, rfl, rfl⟩

/-- `WAIT` ends the latency, records the last poll, and closes the window (R98, R237). -/
theorem waitIdle_eq (s : State) :
    waitIdle s =
      { s with
        BUSY := false, latLeft := 0, mustPoll := false, reads := (statusAddr, s.setIdle.statusWord) :: s.reads } := by
  simp [waitIdle, State.polled, State.record, State.setIdle]

theorem sameError_waitIdle (s : State) : SameError s (waitIdle s) := by
  rw [waitIdle_eq]
  exact ⟨rfl, rfl, rfl⟩

theorem sameError_tick (s : State) (q : List HostOp) : SameError s (s.tick.setHostq q) :=
  ⟨s.tick_ERR, s.tick_ERRCODE, s.tick_ERR_INFO⟩

theorem SameError.trans {s u t : State} (hsu : SameError s u) (hut : SameError u t) : SameError s t :=
  ⟨hut.1.trans hsu.1, hut.2.1.trans hsu.2.1, hut.2.2.trans hsu.2.2⟩

/-- A step keeps the error record, unless it issues CLRERR or SRESET or releases the reset input. -/
theorem step_sameError {s t : State} (hstep : step s = .next t) (hs : s.ERR = true) :
    SameError s t ∨ ∃ rest, s.hostq = .write 0x200 0xE :: rest ∨ s.hostq = .write 0x200 0xF :: rest ∨
      (s.hostq = .releaseReset :: rest ∧ s.inReset = true) := by
  have htick := sameError_tick s
  cases step_cases hstep
  case inReset q _ => exact .inl ⟨rfl, rfl, rfl⟩
  case released q hr hq => exact .inr ⟨q, .inr (.inr ⟨hq, hr⟩)⟩
  case quiet q _ _ => exact .inl (htick q)
  case asserted q _ _ => exact .inl (htick q)
  case status q _ _ => exact .inl (htick q)
  case read a q _ _ _ => exact .inl ((htick q).trans (sameError_afterRead a _))
  case write a d q _ _ _ _ => exact .inl ((htick q).trans (sameError_poke a d _))
  case command d q _ _ hq hi =>
    rcases issue_sameError ((htick q).1.trans hs) hi with hsame | rfl | rfl
    · exact .inl ((htick q).trans hsame)
    · exact .inr ⟨q, .inl hq⟩
    · exact .inr ⟨q, .inr (.inl hq)⟩
  case wait q _ _ => exact .inl (sameError_waitIdle (s.setHostq q))

/-- Settles O43: a step keeps the record, or is one of the three events. -/
theorem onlyThreeEventsClearAnError : Obligations.OnlyThreeEventsClearAnError := by
  intro s t hstep hs
  refine (step_sameError hstep hs).imp_left fun ⟨herr, hcode, hinfo⟩ => ⟨herr.trans hs, hcode, hinfo⟩

end Sys2Proof.Machine
end

section
/-! The host's side: hazards (R281, R290), single accesses (R78, R82), what a step without a write of `CMD` can do (R295), the latency (R296). -/

open Sys2Proof.Claims

namespace Sys2Proof.Machine

/-! ### Hazards (R281, R290) -/

theorem busRead_of_inWindow {a : BusAddr} {s : State} (ha : a ≠ statusAddr) (h : s.inWindow = true) :
    busRead a s = .fault .busyHazard := by
  rw [busRead, if_neg ha, if_pos h]

theorem busRead_of_not_inWindow {a : BusAddr} {s : State} (ha : a ≠ statusAddr) (h : s.inWindow = false) :
    busRead a s = .next ((afterRead a s).record a (peek a s)) := by
  rw [busRead, if_neg ha, if_neg (by simp [h])]

theorem busRead_status (s : State) : busRead statusAddr s = .next (s.record statusAddr s.statusWord).polled := if_pos rfl

/-- A read of `OUT_DATA` in a `DRAIN`, with the queue the host is left with. -/
theorem drainOnce_eq (s : State) : ∃ q, drainOnce s = busRead outDataAddr (s.setHostq q) := by
  unfold drainOnce
  split
  · exact ⟨_, rfl⟩
  · exact ⟨s.hostq, rfl⟩

theorem outDataAddr_ne_statusAddr : outDataAddr ≠ statusAddr := by decide

/-- Inside the window every access but a read of `STATUS` is a hazard (R290). -/
theorem hostAction_of_forbidden {op : HostOp} {s : State} (hop : op.forbiddenInWindow = true) (h : s.tick.inWindow = true) :
    hostAction op s = .fault .busyHazard := by
  cases op with
  | read a => exact busRead_of_inWindow (by simpa [HostOp.forbiddenInWindow] using hop) h
  | write a d => exact busWrite_of_inWindow h a d
  | drain =>
    obtain ⟨q, hq⟩ := drainOnce_eq s.tick
    exact hq.trans (busRead_of_inWindow outDataAddr_ne_statusAddr h)
  | wait | idle | assertReset | releaseReset => cases hop

theorem safe_busRead {a : BusAddr} {s : State} (h : a = statusAddr ∨ s.inWindow = false) : Safe (busRead a s) := by
  by_cases ha : a = statusAddr
  · subst ha
    exact ⟨_, busRead_status s⟩
  · exact ⟨_, busRead_of_not_inWindow ha (h.resolve_left ha)⟩

theorem safe_busWrite {s : State} (h : s.inWindow = false) (a : BusAddr) (d : Word) : Safe (busWrite a d s) := by
  rw [busWrite, if_neg (by simp [h])]
  split
  · exact issue_next d s
  · exact ⟨_, rfl⟩

/-- An action that R290 allows goes on. -/
theorem safe_hostAction {op : HostOp} {s : State} (h : (op.forbiddenInWindow && s.tick.inWindow) = false) :
    Safe (hostAction op s) := by
  rw [Bool.and_eq_false_iff] at h
  cases op with
  | read a => exact safe_busRead (h.imp_left fun ha => by simpa [HostOp.forbiddenInWindow] using ha)
  | write a d => exact safe_busWrite (h.resolve_left (by simp [HostOp.forbiddenInWindow])) a d
  | drain =>
    obtain ⟨q, hq⟩ := drainOnce_eq s.tick
    rw [hostAction, hq]
    exact safe_busRead (.inr (h.resolve_left (by simp [HostOp.forbiddenInWindow])))
  | wait | idle | assertReset | releaseReset => exact ⟨_, rfl⟩

/-- While the reset input is asserted an access is a hazard, and any other action goes on (R281). -/
theorem resetAction_of_isAccess {op : HostOp} (h : op.isAccess = true) (s : State) :
    resetAction op s = .fault .accessDuringReset := by
  cases op with
  | read a | write a d | wait | drain => rfl
  | idle | assertReset | releaseReset => cases h

theorem safe_resetAction {op : HostOp} (h : op.isAccess = false) (s : State) : Safe (resetAction op s) := by
  cases op with
  | read a | write a d | wait | drain => cases h
  | idle | assertReset | releaseReset => exact ⟨_, rfl⟩

theorem hazard_cons {s : State} {op : HostOp} {rest : List HostOp} (hq : s.hostq = op :: rest) :
    s.hazard = if s.inReset then op.isAccess else op.forbiddenInWindow && s.tick.inWindow := by
  rw [State.hazard, hq]

/-- Settles O51: the host's next action, in reset or not, is a hazard or it goes on. -/
theorem stepStopsExactlyAtHostHazards : Obligations.StepStopsExactlyAtHostHazards := by
  refine ⟨fun s => ?_, exec_next⟩
  cases hq : s.hostq with
  | nil => exact ⟨fun h => by simp [State.hazard, hq] at h, fun _ => ⟨_, step_nil hq⟩⟩
  | cons op rest =>
    have hwindow : (s.setHostq rest).tick.inWindow = s.tick.inWindow := by
      rw [State.tick_setHostq, State.inWindow_setHostq]
    rw [hazard_cons hq]
    cases hr : s.inReset
    · rw [step_running hq hr]
      simp only [Bool.false_eq_true, if_false, ← hwindow]
      refine ⟨fun h => ?_, safe_hostAction⟩
      rw [Bool.and_eq_true] at h
      exact hostAction_of_forbidden h.1 h.2
    · rw [step_inReset hq hr]
      simp only [if_true]
      exact ⟨fun h => resetAction_of_isAccess h _, fun h => safe_resetAction h _⟩

/-! ### Single accesses (R14, R74, R78, R82) -/

theorem afterRead_setHostq (a : BusAddr) (s : State) (q : List HostOp) :
    afterRead a (s.setHostq q) = (afterRead a s).setHostq q := by
  unfold afterRead
  split <;> rfl

theorem poke_setHostq (a : BusAddr) (d : Word) (s : State) (q : List HostOp) :
    poke a d (s.setHostq q) = (poke a d s).setHostq q := by
  unfold poke
  split <;> rfl

theorem peek_setHostq (a : BusAddr) (s : State) (q : List HostOp) : peek a (s.setHostq q) = peek a s := rfl

theorem inWindow_of_idle {s : State} (hp : s.mustPoll = false) (hb : s.BUSY = false) : s.inWindow = false := by
  simp [State.inWindow, hp, hb]

theorem tick_setHostq_of_idle {s : State} (hb : s.BUSY = false) (q : List HostOp) : (s.setHostq q).tick = s.setHostq q :=
  State.tick_of_idle hb

/-- A recorded poll that finds `BUSY` = 0 closes the window; one that finds `BUSY` = 1 leaves it as it was. -/
theorem polled_record_of_idle {s : State} (h : s.BUSY = false) (a : BusAddr) (w : Word) :
    (s.record a w).polled = { s with reads := (a, w) :: s.reads, mustPoll := false } := by
  have hpoll : (s.mustPoll && s.BUSY) = false := by rw [h, Bool.and_false]
  exact congrArg (fun p => ({ s with reads := (a, w) :: s.reads, mustPoll := p } : State)) hpoll

theorem polled_record_of_busy {s : State} (h : s.BUSY = true) (a : BusAddr) (w : Word) :
    (s.record a w).polled = { s with reads := (a, w) :: s.reads } := by
  have hpoll : (s.mustPoll && s.BUSY) = s.mustPoll := by rw [h, Bool.and_true]
  exact congrArg (fun p => ({ s with reads := (a, w) :: s.reads, mustPoll := p } : State)) hpoll

theorem afterRead_status (s : State) : afterRead statusAddr s = s := afterRead_of_ne s (by decide)

theorem afterRead_mustPoll (a : BusAddr) (s : State) : (afterRead a s).mustPoll = s.mustPoll := by
  obtain ⟨q, hread, -⟩ := afterRead_eq a s
  rw [hread]

theorem afterRead_reads (a : BusAddr) (s : State) : (afterRead a s).reads = s.reads := by
  obtain ⟨q, hread, -⟩ := afterRead_eq a s
  rw [hread]

/-- A read on an idle core: it is recorded, has its effect, and leaves the window closed. -/
theorem step_read {s : State} {a : BusAddr} {rest : List HostOp} (hq : s.hostq = .read a :: rest) (hr : s.inReset = false)
    (hb : s.BUSY = false) (hp : s.mustPoll = false ∨ a = statusAddr) :
    step s = .next { afterRead a s with hostq := rest, reads := (a, peek a s) :: s.reads, mustPoll := false } := by
  rw [step_running hq hr, hostAction, tick_setHostq_of_idle hb]
  by_cases ha : a = statusAddr
  · subst ha
    rw [busRead_status, polled_record_of_idle (s := s.setHostq rest) hb, afterRead_status]
    rfl
  · have hp := hp.resolve_right ha
    rw [busRead_of_not_inWindow (s := s.setHostq rest) ha (inWindow_of_idle hp hb), afterRead_setHostq, ← hp,
      ← afterRead_mustPoll a s, ← afterRead_reads a s]
    rfl

theorem step_write {s : State} {a : BusAddr} {d : Word} {rest : List HostOp} (hq : s.hostq = .write a d :: rest)
    (hr : s.inReset = false) (hb : s.BUSY = false) (hp : s.mustPoll = false) (ha : a ≠ cmdAddr) :
    step s = .next { poke a d s with hostq := rest } := by
  rw [step_running hq hr, hostAction, tick_setHostq_of_idle hb, busWrite,
    if_neg (by rw [State.inWindow_setHostq, inWindow_of_idle hp hb]; decide), if_neg ha, poke_setHostq]
  rfl

/-- A poll of `STATUS` with a command in flight: it takes one cycle off the latency, and sees `BUSY` after that cycle. -/
theorem step_poll {s : State} {rest : List HostOp} (hq : s.hostq = .read statusAddr :: rest) (hr : s.inReset = false) :
    step s = .next ((s.tick.setHostq rest).record statusAddr s.tick.statusWord).polled := by
  rw [step_running hq hr, hostAction, State.tick_setHostq, busRead_status]
  rfl

/-- Settles O52: the read and the write on an idle core, and the poll before and in the last cycle of the latency. -/
theorem hostAccessesTakeEffectInOrder : Obligations.HostAccessesTakeEffectInOrder := by
  refine fun s rest hr => ⟨fun hb => ⟨fun a hq hp => step_read hq hr hb hp, fun a d hq ha hp => step_write hq hr hb hp ha⟩,
    fun hb hq => ⟨fun hlat => ?_, fun hlat => ?_⟩⟩
  · have htick : s.tick = { s with latLeft := s.latLeft - 1 } := by
      rw [State.tick_of_busy hb, decide_eq_true hlat, ← hb]
    rw [step_poll hq hr, polled_record_of_busy (s := s.tick.setHostq rest) (by rw [htick]; exact hb), htick]
    rfl
  · have htick : s.tick = { s with BUSY := false, latLeft := 0 } := by
      rw [State.tick_of_busy hb, decide_eq_false (by omega), Nat.sub_eq_zero_of_le hlat]
    rw [step_poll hq hr, polled_record_of_idle (s := s.tick.setHostq rest) (by rw [htick]; rfl), htick]
    rfl

/-! ### The window (R290) and what happens unasked (R295) -/

theorem statusWord_bit0_of_idle {s : State} (h : s.BUSY = false) : s.statusWord.getLsbD 0 = false := by
  rw [statusWord_of_idle h, statusLayout_eq]
  cases s.ERR <;> simp

/-- Issuing a word leaves the window open, and `BUSY` = 1 (R91). -/
theorem issue_mustPoll {d : Word} {s t : State} (h : issue d s = .next t) : t.mustPoll = true := by
  rcases issue_cases d s with ⟨-, hi⟩ | ⟨-, -, hi⟩ | ⟨-, i, -, hi⟩
  · obtain rfl := Host.Outcome.next.inj (hi.symm.trans h)
    rfl
  · obtain rfl := Host.Outcome.next.inj (hi.symm.trans h)
    rw [errorEntry_mustPoll]
    rfl
  · exact (exec_sameHost (hi.symm.trans h)).mustPoll

theorem poke_mustPoll (a : BusAddr) (d : Word) (s : State) : (poke a d s).mustPoll = s.mustPoll := by
  obtain ⟨_, _, _, _, _, _, hpoke, -⟩ := poke_eq a d s
  rw [hpoke]

/-- Settles O55: of the kinds of step, only a read of `STATUS`, `WAIT` among them, and the release of reset close the window. -/
theorem windowClosesOnlyWhenStatusReadsIdle : Obligations.WindowClosesOnlyWhenStatusReadsIdle := by
  intro s t hstep hs ht
  have hopen : s.tick.mustPoll = true := s.tick_mustPoll.trans hs
  cases step_cases hstep
  case inReset q _ => exact absurd (hs.symm.trans ht) (by decide)
  case released q hr hq => exact .inr ⟨q, hq, hr⟩
  case quiet q _ _ => exact absurd (hopen.symm.trans ht) (by decide)
  case asserted q _ _ => exact absurd (hopen.symm.trans ht) (by decide)
  case status q _ _ =>
    have hidle : s.tick.BUSY = false := by
      have ht : (s.tick.mustPoll && s.tick.BUSY) = false := ht
      rwa [hopen, Bool.true_and] at ht
    have hreads : (statusAddr, s.tick.statusWord) :: s.tick.reads = (statusAddr, s.tick.statusWord) :: s.reads := by
      rw [s.tick_reads]
    simp only [State.polled_reads, State.record_reads, State.setHostq_reads, State.polled_BUSY, State.record_BUSY,
      State.setHostq_BUSY]
    exact .inl ⟨s.tick.statusWord, hreads, statusWord_bit0_of_idle hidle, hidle⟩
  case read a q _ hw _ =>
    rw [State.inWindow, hopen, Bool.true_or] at hw
    cases hw
  case write a d q _ hw _ _ =>
    rw [State.inWindow, hopen, Bool.true_or] at hw
    cases hw
  case command d q _ _ _ hi => exact absurd ((issue_mustPoll hi).symm.trans ht) (by decide)
  case wait q _ _ =>
    rw [waitIdle_eq]
    exact .inl ⟨_, rfl, statusWord_bit0_of_idle rfl, rfl⟩

/-- A cycle changes `BUSY` and the cycles left alone. -/
theorem tick_eq (s : State) : s.tick = { s with BUSY := s.tick.BUSY, latLeft := s.tick.latLeft } := by
  cases hb : s.BUSY
  · rw [State.tick_of_idle hb]
  · rw [State.tick_of_busy hb]

theorem step_without_access {s t : State} (hstep : step s = .next t) (h : s.hostq = [] ∨ s.hostq.head? = some .idle) :
    t = { s with hostq := s.hostq.tail, BUSY := t.BUSY, latLeft := t.latLeft } := by
  have hcases : t = s.setHostq s.hostq.tail ∨ t = s.tick.setHostq s.hostq.tail := by
    cases hq : s.hostq with
    | nil =>
      have hs : s.setHostq [] = s := by rw [← hq]; rfl
      have ht := Host.Outcome.next.inj ((step_nil hq).symm.trans hstep)
      rw [List.tail_nil, ← State.tick_setHostq, hs, ← ht]
      cases s.inReset <;> simp
    | cons op rest =>
      obtain rfl : op = .idle := by simpa [hq] using h
      cases hr : s.inReset
      · rw [step_running hq hr, hostAction, State.tick_setHostq] at hstep
        exact .inr (Host.Outcome.next.inj hstep).symm
      · exact .inl (Host.Outcome.next.inj ((step_inReset hq hr).symm.trans hstep)).symm
  rcases hcases with rfl | rfl
  · rfl
  · rw [tick_eq s]
    rfl

/-- Without a write of `CMD`, `BUSY` does not rise and nothing is appended to `OUTQ`. -/
theorem step_without_command {s t : State} (hstep : step s = .next t) (h : ∀ d rest, s.hostq ≠ .write 0x200 d :: rest) :
    (t.BUSY = true → s.BUSY = true) ∧ (t.OUTQ = s.OUTQ ∨ t.OUTQ = s.OUTQ.tail ∨ t.OUTQ = []) := by
  have hbusy : s.tick.BUSY = true → s.BUSY = true := State.tick_BUSY_le
  have houtq := s.tick_OUTQ
  cases step_cases hstep
  case inReset q _ => exact ⟨id, .inl rfl⟩
  case released q _ _ => exact ⟨nofun, .inr (.inr rfl)⟩
  case quiet q _ _ => exact ⟨hbusy, .inl houtq⟩
  case asserted q _ _ => exact ⟨hbusy, .inl houtq⟩
  case status q _ _ =>
    rw [State.polled_BUSY, State.record_BUSY, State.setHostq_BUSY, State.polled_OUTQ, State.record_OUTQ, State.setHostq_OUTQ]
    exact ⟨hbusy, .inl houtq⟩
  case read a q _ _ _ =>
    obtain ⟨l, hread, hl⟩ := afterRead_eq a (s.tick.setHostq q)
    rw [hread]
    rw [State.setHostq_OUTQ, State.tick_OUTQ] at hl
    exact ⟨hbusy, hl.imp_right .inl⟩
  case write a d q _ _ _ _ =>
    obtain ⟨_, _, _, _, _, _, hpoke, -⟩ := poke_eq a d (s.tick.setHostq q)
    rw [hpoke]
    exact ⟨hbusy, .inl houtq⟩
  case command d q _ _ hq _ => exact absurd hq (h d q)
  case wait q _ _ =>
    rw [waitIdle_eq]
    exact ⟨nofun, .inl rfl⟩

/-- Settles O56: a cycle without an access, and every kind of step but the write of `CMD`. -/
theorem coreNeverActsUnasked : Obligations.CoreNeverActsUnasked := fun _ _ hstep =>
  ⟨step_without_access hstep, step_without_command hstep⟩

/-! ### The latency (R296) -/

section
variable {s : State} (hq : s.hostq = []) (hr : s.inReset = false) (hb : s.BUSY = true)
include hq hr hb

/-- A cycle of the latency that is not its last. -/
theorem step_latency (hlat : 1 < s.latLeft) : step s = .next { s with latLeft := s.latLeft - 1 } := by
  rw [step_nil hq, if_neg (by simp [hr]), State.tick_of_busy hb, decide_eq_true hlat, ← hb]

/-- The last cycle of the latency. -/
theorem step_last_cycle (hlat : s.latLeft ≤ 1) : step s = .next { s with BUSY := false, latLeft := 0 } := by
  rw [step_nil hq, if_neg (by simp [hr]), State.tick_of_busy hb, decide_eq_false (by omega), Nat.sub_eq_zero_of_le hlat]

/-- `n` cycles of the latency pass, and more are left. -/
theorem run_latency {n : Nat} (hn : n < s.latLeft) :
    core.run n s = .next ({ s with latLeft := s.latLeft - n } : State) := by
  induction n with
  | zero => rfl
  | succ n ih =>
    have hleft : 1 < s.latLeft - n := by omega
    exact (run_append core (ih (by omega))).trans (step_latency (s := { s with latLeft := s.latLeft - n }) hq hr hb hleft)

end

/-- Settles O57: all the cycles but the last pass with `BUSY` = 1, and in the last one it falls. -/
theorem commandEndsAfterItsLatency : Obligations.CommandEndsAfterItsLatency := by
  intro s n hq hr hb hlat
  refine ⟨run_latency hq hr hb, ?_⟩
  obtain ⟨m, hm⟩ := Nat.exists_eq_add_of_le' hlat
  have hrun := run_append core (run_latency hq hr hb (show m < s.latLeft by omega))
  have hleft : s.latLeft - m ≤ 1 := by omega
  rw [hm]
  exact hrun.trans (step_last_cycle (s := { s with latLeft := s.latLeft - m }) hq hr hb hleft)

end Sys2Proof.Machine
end

section
/-! Host programs: command lines (R98), the boot procedure (R282) and INIT (R99) up to their clean entry (R283), and DRAIN (R76, R99). -/

open Sys2Proof.Claims

namespace Sys2Proof.Machine

/-! ### One command line (R98, R82) -/

/-- The core is idle, out of reset and outside the window, and `q` is what the host does next. -/
structure State.Ready (s : State) (q : List HostOp) : Prop where
  hostq : s.hostq = q
  running : s.inReset = false
  closed : s.mustPoll = false
  idle : s.BUSY = false

/-- The state after a `WAIT`: `STATUS` is recorded, and the window closed. -/
def afterWait (s : State) (rest : List HostOp) : State :=
  { s with
    hostq := rest, BUSY := false, mustPoll := false, latLeft := 0
    reads := (0x201, peek 0x201 { s with BUSY := false }) :: s.reads }

theorem step_wait {s : State} {rest : List HostOp} (hq : s.hostq = .wait :: rest) (hr : s.inReset = false) :
    step s = .next (afterWait s rest) := by
  rw [step_running hq hr, hostAction, waitIdle_eq]
  rfl

/-- The two steps of a command line: the command runs on the accepted state, and `WAIT` ends its latency. -/
theorem run_commandLine {s t : State} {i : Instr} {rest : List HostOp} (hi : WellFormed i = true)
    (hs : s.Ready (commandLine i ++ rest)) (herr : s.ERR = false ∨ i = .clrerr ∨ i = .sreset)
    (ht : exec i (accepted s (encode i) (.wait :: rest)) = .next t) :
    core.run 2 s = .next (afterWait t rest) := by
  have hhost := exec_sameHost ht
  have hop : s.ERR = false ∨ (encode i).extractLsb' 0 8 = 0x0E ∨ (encode i).extractLsb' 0 8 = 0x0F :=
    herr.imp_right fun h => h.imp (fun h => by rw [h]; decide) fun h => by rw [h]; decide
  have hissue : step s = .next t :=
    (step_cmd_of_decode hs.hostq hs.running hs.closed hs.idle hop (decodeReadsBackEveryEncoding i hi)).trans ht
  have hwait := step_wait (rest := rest) hhost.hostq (hhost.inReset.trans hs.running)
  exact (run_succ core 1 hissue).trans (run_succ core 0 hwait)

/-! ### Several command lines of commands that do not fail -/

/-- The registers of `s` beside the host's side of `h` (`SameHost`). -/
def State.withHost (s h : State) : State :=
  { s with
    BUSY := h.BUSY, LASTCMD := h.LASTCMD, inReset := h.inReset, mustPoll := h.mustPoll, heldERR := h.heldERR
    heldERRCODE := h.heldERRCODE, latLeft := h.latLeft, latDraws := h.latDraws, hostq := h.hostq, reads := h.reads }

/-- What the commands of the host's procedures commit (R142, R176, R215, R233, R234); of any other command it says nothing. -/
def setupEffect : Instr → State → State
  | .qtbuild t q, s => s.setTable t (builtTable t q.toNat) q
  | .rstpred, s => s.setPred #v[0, 0, 0]
  | .bwreset, s => s.setWriter 0 0 []
  | .clrerr, s => clearError s
  | .sreset, s => softReset s
  | _, s => s

/-- A well-formed command that always commits `setupEffect`. -/
def Setup (i : Instr) : Prop := WellFormed i = true ∧ ∀ s, exec i s = .next (setupEffect i s)

theorem setup_clrerr : Setup .clrerr := ⟨rfl, fun _ => rfl⟩

theorem setup_sreset : Setup .sreset := ⟨rfl, fun _ => rfl⟩

theorem setup_rstpred : Setup .rstpred := ⟨rfl, fun _ => rfl⟩

theorem setup_bwreset : Setup .bwreset := ⟨rfl, fun _ => rfl⟩

theorem setup_qtbuild (t : TableClass) {q : BitVec 7} (hq : 1 ≤ q.toNat ∧ q.toNat ≤ 100) : Setup (.qtbuild t q) :=
  ⟨rfl, fun s => execQtbuild_ok t s hq⟩

/-- A command's effect does not see the host's side. -/
theorem setupEffect_withHost (i : Instr) (s h : State) : setupEffect i (s.withHost h) = (setupEffect i s).withHost h := by
  cases i <;> rfl

theorem setupEffect_ERR {i : Instr} {s : State} (h : s.ERR = false ∨ i = .clrerr ∨ i = .sreset) :
    (setupEffect i s).ERR = false := by
  rcases h with h | rfl | rfl
  · cases i
    case clrerr => rfl
    case sreset => rfl
    all_goals exact h
  · rfl
  · rfl

/-- The effects of a list of commands, one after another. -/
def setupEffects (l : List Instr) (s : State) : State := l.foldl (fun s i => setupEffect i s) s

theorem setupEffects_withHost (l : List Instr) (s h : State) :
    setupEffects l (s.withHost h) = (setupEffects l s).withHost h := by
  induction l generalizing s with
  | nil => rfl
  | cons i l ih => exact (congrArg (setupEffects l) (setupEffect_withHost i s h)).trans (ih _)

/-- A run in two parts. -/
theorem run_add (M : Host.Core) {s t : M.State} {j : Nat} (k : Nat) (h : M.run j s = .next t) : M.run (j + k) s = M.run k t := by
  induction j generalizing s with
  | zero => rw [Nat.zero_add, Host.Outcome.next.inj h]
  | succ j ih =>
    cases hs : M.step s with
    | next u =>
      rw [run_succ M j hs] at h
      rw [Nat.add_right_comm, run_succ M (j + k) hs, ih h]
    | fault r => simp only [Host.Core.run, hs] at h; cases h
    | refused r => simp only [Host.Core.run, hs] at h; cases h

/-- Command lines that do not fail run to their ends, two steps each, and leave the core ready for the host's next action. -/
theorem run_commandLines {l : List Instr} (hl : ∀ i ∈ l, Setup i) {s : State} {rest : List HostOp}
    (hs : s.Ready (commandLines l ++ rest)) (herr : ∀ i ∈ l.head?, s.ERR = false ∨ i = .clrerr ∨ i = .sreset) :
    ∃ h : State, core.run (2 * l.length) s = .next ((setupEffects l s).withHost h) ∧ h.Ready rest := by
  induction l generalizing s with
  | nil => exact ⟨s, rfl, hs⟩
  | cons i l ih =>
    obtain ⟨hi, hexec⟩ := hl i List.mem_cons_self
    have herr := herr i rfl
    let a := accepted s (encode i) (.wait :: (commandLines l ++ rest))
    let u := afterWait (setupEffect i a) (commandLines l ++ rest)
    have hline : core.run 2 s = .next u :=
      run_commandLine hi (by rwa [commandLines, List.flatMap_cons, List.append_assoc] at hs) herr (hexec a)
    have ha : setupEffect i a = (setupEffect i s).withHost a := setupEffect_withHost i s a
    have hu : u = (setupEffect i s).withHost u := by
      simp only [u, ha]
      rfl
    have huready : u.Ready (commandLines l ++ rest) := by
      rw [hu]
      refine ⟨rfl, ?_, rfl, rfl⟩
      simp only [u, ha]
      exact hs.running
    have huerr : u.ERR = false := by
      rw [hu]
      exact setupEffect_ERR herr
    obtain ⟨h, hrun, hready⟩ := ih (fun j hj => hl j (List.mem_cons_of_mem i hj)) huready fun _ _ => .inl huerr
    refine ⟨h, ?_, hready⟩
    rw [List.length_cons, Nat.mul_add, Nat.add_comm, run_add core _ hline, hrun, hu, setupEffects_withHost]
    rfl

theorem length_commandLines (l : List Instr) : (commandLines l).length = 2 * l.length := by
  induction l with
  | nil => rfl
  | cons i l ih =>
    rw [commandLines, List.flatMap_cons, List.length_append, ← commandLines, ih, List.length_cons]
    simp only [commandLine, List.length_cons, List.length_nil]
    omega

/-! ### The boot procedure (R282) and INIT (R99) -/

/-- The commands of the boot procedure after its first `WAIT`. -/
def bootInstrs (colour : Bool) (q : BitVec 7) : List Instr :=
  [Instr.clrerr, Instr.qtbuild .luma q] ++ (if colour then [Instr.qtbuild .chroma q] else []) ++ [Instr.rstpred, Instr.bwreset]

/-- The commands of INIT. -/
def initInstrs (q : BitVec 7) : List Instr := [.sreset, .qtbuild .luma q, .qtbuild .chroma q]

section
variable {q : BitVec 7} (hq : 1 ≤ q.toNat ∧ q.toNat ≤ 100)
include hq

theorem setup_bootInstrs (colour : Bool) : ∀ i ∈ bootInstrs colour q, Setup i := by
  cases colour <;>
    simp [bootInstrs, setup_clrerr, setup_qtbuild _ hq, setup_rstpred, setup_bwreset]

theorem setup_initInstrs : ∀ i ∈ initInstrs q, Setup i := by
  simp [initInstrs, setup_sreset, setup_qtbuild _ hq]

end

theorem setupEffects_init (s : State) (q : BitVec 7) :
    setupEffects (initInstrs q) s =
      ((softReset s).setTable .luma (builtTable .luma q.toNat) q).setTable .chroma (builtTable .chroma q.toNat) q := rfl

theorem setupEffects_boot_grey (s : State) (q : BitVec 7) :
    setupEffects (bootInstrs false q) s =
      (((clearError s).setTable .luma (builtTable .luma q.toNat) q).setPred #v[0, 0, 0]).setWriter 0 0 [] := rfl

theorem setupEffects_boot_colour (s : State) (q : BitVec 7) :
    setupEffects (bootInstrs true q) s =
      ((((clearError s).setTable .luma (builtTable .luma q.toNat) q).setTable .chroma (builtTable .chroma q.toNat) q).setPred
        #v[0, 0, 0]).setWriter 0 0 [] := rfl

/-- Both tables, after QTBUILD has written the luma one and then the chroma one. -/
theorem tables_built (s : State) (q : BitVec 7) (t : TableClass) :
    ((s.setTable .luma (builtTable .luma q.toNat) q).setTable .chroma (builtTable .chroma q.toNat) q).qtOf t =
        builtTable t q.toNat ∧
      ((s.setTable .luma (builtTable .luma q.toNat) q).setTable .chroma (builtTable .chroma q.toNat) q).qualOf t = q := by
  cases t with
  | luma => rw [qtOf_setTable_ne _ _ _ (by decide), qualOf_setTable_ne _ _ _ (by decide)]; simp
  | chroma => simp

/-- A clean entry is one of the registers, and of `BUSY` (R283). -/
theorem cleanEntry_withHost {s h : State} {tables : List (TableClass × BitVec 7)} (hidle : h.BUSY = false)
    (herr : s.ERR = false ∧ s.ERRCODE = 0) (hwriter : s.OUTQ = [] ∧ s.NBITS = 0 ∧ s.ACC = 0) (hpred : s.PRED = #v[0, 0, 0])
    (hbuilt : ∀ b ∈ tables, s.qtOf b.1 = builtTable b.1 b.2.toNat ∧ s.qualOf b.1 = b.2) : (s.withHost h).CleanEntry tables :=
  ⟨hidle, herr, hwriter.1, hwriter.2, hpred, hbuilt⟩

section
variable (s : State) {h : State} (q : BitVec 7) (hidle : h.BUSY = false)
include hidle

/-- The registers that the boot procedure leaves are those of a clean entry. -/
theorem cleanEntry_boot (colour : Bool) :
    ((setupEffects (bootInstrs colour q) s).withHost h).CleanEntry ((.luma, q) :: if colour then [(.chroma, q)] else []) := by
  cases colour
  · rw [setupEffects_boot_grey]
    refine cleanEntry_withHost hidle ⟨rfl, rfl⟩ ⟨rfl, rfl, rfl⟩ rfl fun b hb => ?_
    obtain rfl : b = (.luma, q) := List.mem_singleton.mp hb
    exact ⟨qtOf_setTable_same (clearError s) .luma (builtTable .luma q.toNat) q,
      qualOf_setTable_same (clearError s) .luma (builtTable .luma q.toNat) q⟩
  · rw [setupEffects_boot_colour]
    refine cleanEntry_withHost hidle ⟨rfl, rfl⟩ ⟨rfl, rfl, rfl⟩ rfl fun b hb => ?_
    have hb : b = (.luma, q) ∨ b = (.chroma, q) := by simpa using hb
    rcases hb with rfl | rfl <;> exact tables_built (clearError s) q _

/-- The registers that INIT leaves are those of a clean entry. -/
theorem cleanEntry_init : ((setupEffects (initInstrs q) s).withHost h).CleanEntry [(.luma, q), (.chroma, q)] := by
  rw [setupEffects_init]
  refine cleanEntry_withHost hidle (by simp [State.reset]) (by simp [State.reset]) (by simp [State.reset]) fun b hb => ?_
  have hb : b = (.luma, q) ∨ b = (.chroma, q) := by simpa using hb
  rcases hb with rfl | rfl <;> exact tables_built (softReset s) q _

end

/-- Settles O53: one line, then the two procedures as lists of lines, the boot procedure after its first `WAIT`. -/
theorem commandLineRunsToItsEnd : Obligations.CommandLineRunsToItsEnd := by
  refine ⟨fun s t i rest hi hq hr hp hb herr ht => ?_, fun s rest q hlo hhi hr => ⟨fun colour hq => ?_, fun hq hp hb => ?_⟩⟩
  · have hreads : t.reads = s.reads := (exec_sameHost ht).reads
    refine ⟨_, (run_commandLine hi ⟨hq, hr, hp, hb⟩ herr ht).trans ?_, rfl⟩
    rw [← hreads]
    rfl
  · have hwait := step_wait (rest := commandLines (bootInstrs colour q) ++ rest) hq hr
    obtain ⟨h, hrun, hready⟩ := run_commandLines (setup_bootInstrs ⟨hlo, hhi⟩ colour) (rest := rest)
      (s := afterWait s (commandLines (bootInstrs colour q) ++ rest)) ⟨rfl, hr, rfl, rfl⟩ fun i hi => .inr (.inl (Option.some.inj hi).symm)
    rw [← length_commandLines] at hrun
    exact ⟨_, (run_succ core _ hwait).trans hrun, hready.hostq, hready.closed, cleanEntry_boot _ q hready.idle colour⟩
  · obtain ⟨h, hrun, hready⟩ := run_commandLines (setup_initInstrs ⟨hlo, hhi⟩) (s := s) ⟨hq, hr, hp, hb⟩
      fun i hi => .inr (.inr (Option.some.inj hi).symm)
    rw [← length_commandLines] at hrun
    exact ⟨_, hrun, hready.hostq, hready.closed, cleanEntry_init s q hready.idle⟩

/-! ### DRAIN (R76, R99) -/

theorem validByte_outDataWord (b : Byte) (rest : List Byte) : validByte (outDataWord (b :: rest)) = true := by
  have hb := b.isLt
  rw [validByte, outDataWord, BitVec.toNat_ofNat, beq_iff_eq]
  omega

theorem setWidth_outDataWord (b : Byte) (rest : List Byte) : (outDataWord (b :: rest)).setWidth 8 = b := by
  have hb := b.isLt
  apply BitVec.eq_of_toNat_eq
  rw [outDataWord, BitVec.toNat_setWidth, BitVec.toNat_ofNat]
  omega

/-- The record of one read more extends the output by the byte read, if it is one (R237). -/
theorem runOutput_outDataWord (s : State) (l : List Byte) :
    ({ s with reads := (outDataAddr, outDataWord l) :: s.reads } : State).runOutput = s.runOutput ++ l.head?.toList := by
  have hvalid : ((outDataWord l).toNat / 2 ^ 8 % 2 == 1) = l.head?.isSome := by
    cases l with
    | nil => rfl
    | cons b l => exact validByte_outDataWord b l
  cases l with
  | nil =>
    simp only [List.head?_nil, Option.isSome_none] at hvalid
    simp only [State.runOutput, List.reverse_cons, List.filter_append, List.map_append, List.filter_cons, hvalid, Bool.and_false,
      Bool.false_eq_true, if_false, List.filter_nil, List.map_nil, List.head?_nil, Option.toList_none]
  | cons b l =>
    simp only [List.head?_cons, Option.isSome_some] at hvalid
    simp only [State.runOutput, List.reverse_cons, List.filter_append, List.map_append, List.filter_cons, hvalid, beq_self_eq_true,
      Bool.and_true, if_true, List.filter_nil, List.map_cons, List.map_nil, setWidth_outDataWord, List.head?_cons,
      Option.toList_some]

/-- A read of a `DRAIN` on an idle core takes the oldest byte; the `DRAIN` goes on until a read has found none. -/
theorem step_drain {s : State} {rest : List HostOp} (hs : s.Ready (.drain :: rest)) :
    step s = .next
      { s with
        hostq := if validByte (outDataWord s.OUTQ) then .drain :: rest else rest, OUTQ := s.OUTQ.tail
        reads := (outDataAddr, outDataWord s.OUTQ) :: s.reads } := by
  have hwindow : ∀ q, (s.setHostq q).inWindow = false := fun _ => inWindow_of_idle hs.closed hs.idle
  rw [step_running hs.hostq hs.running, hostAction, tick_setHostq_of_idle hs.idle, drainOnce,
    show peek outDataAddr (s.setHostq rest) = outDataWord s.OUTQ from rfl]
  split
  · rw [busRead_of_not_inWindow (s := (s.setHostq rest).setHostq (.drain :: (s.setHostq rest).hostq)) outDataAddr_ne_statusAddr
      (hwindow _)]
    rfl
  · rw [busRead_of_not_inWindow outDataAddr_ne_statusAddr (hwindow rest)]
    rfl

/-- A `DRAIN` reads one byte a step, and once more to find the queue empty. -/
theorem run_drain {l : List Byte} {s : State} {rest : List HostOp} (hs : s.Ready (.drain :: rest)) (hl : s.OUTQ = l) :
    ∃ t : State, core.run (l.length + 1) s = .next t ∧ t = { s with OUTQ := [], hostq := rest, reads := t.reads } ∧
      t.runOutput = s.runOutput ++ l := by
  have hstep := step_drain hs
  rw [hl] at hstep
  induction l generalizing s with
  | nil => exact ⟨_, run_succ core 0 hstep, rfl, runOutput_outDataWord s []⟩
  | cons b l ih =>
    rw [validByte_outDataWord, if_pos rfl] at hstep
    have hnext : State.Ready
        { s with
          hostq := .drain :: rest, OUTQ := l, reads := (outDataAddr, outDataWord (b :: l)) :: s.reads } (.drain :: rest) :=
      ⟨rfl, hs.running, hs.closed, hs.idle⟩
    obtain ⟨t, hrun, ht, houtput⟩ := ih hnext rfl (step_drain hnext)
    refine ⟨t, (run_succ core _ hstep).trans hrun, ht, ?_⟩
    rw [houtput]
    exact (congrArg (· ++ l) (runOutput_outDataWord s (b :: l))).trans (List.append_assoc _ _ _)

/-- Settles O54: the run of a `DRAIN`, whatever the queue holds. -/
theorem drainReadsEveryByteInOrder : Obligations.DrainReadsEveryByteInOrder := fun _ _ hq hr hp hb =>
  run_drain ⟨hq, hr, hp, hb⟩ rfl

end Sys2Proof.Machine
end

section
/-! The symbolizer obligations: amplitude bits (R171), the symbol-word format (R28, R172), SYMB (R173, R174) and its injectivity. -/

open Sys2Proof.Claims

namespace Sys2Proof.Machine

/-! ### Amplitude bits (R171) -/

theorem amp_cast (v : ℤ) (len : Nat) : (amp v len : ℤ) = (if 0 ≤ v then v else v + 2 ^ len - 1) % 2 ^ len :=
  Int.toNat_of_nonneg (Int.emod_nonneg _ (by positivity))

theorem amp_of_nonneg {v : ℤ} (h : 0 ≤ v) (len : Nat) : (amp v len : ℤ) = v % 2 ^ len := by
  rw [amp_cast, if_pos h]

theorem amp_of_neg {v : ℤ} (h : v < 0) (len : Nat) : (amp v len : ℤ) = (v - 1) % 2 ^ len := by
  rw [amp_cast, if_neg (not_le.mpr h), add_sub_right_comm, Int.add_emod_right]

/-- The bounds of a nonzero value by its category. -/
theorem abs_bounds_of_category {v : ℤ} (h : v ≠ 0) : ∃ n, category v = n + 1 ∧ 2 ^ n ≤ |v| ∧ |v| < 2 ^ (n + 1) := by
  obtain ⟨n, hn⟩ := Nat.exists_eq_succ_of_ne_zero (mt (category_eq_zero v).mp h)
  exact ⟨n, hn, (category_eq_succ_iff v n).mp hn⟩

theorem amp_category_of_pos {v : ℤ} (h : 0 < v) : (amp v (category v) : ℤ) = v := by
  have hlt := (category_le_iff_abs v _).mp le_rfl
  rw [abs_of_pos h] at hlt
  rw [amp_of_nonneg h.le, Int.emod_eq_of_lt h.le hlt]

theorem amp_category_of_neg {v : ℤ} (h : v < 0) : (amp v (category v) : ℤ) = 2 ^ category v - 1 - |v| := by
  have hlt := (category_le_iff_abs v _).mp le_rfl
  rw [abs_of_neg h] at hlt ⊢
  rw [amp_cast, if_neg (not_le.mpr h), Int.emod_eq_of_lt (by omega) (by omega)]
  ring

/-- The first bit of an item is its most significant one. -/
theorem head_itemBits_succ (n v : Nat) : (itemBits ⟨n + 1, v⟩).head? = some (v.testBit n) := by
  simp [itemBits, List.range_succ]

theorem testBit_top_of_le {n v : Nat} (hlo : 2 ^ n ≤ v) (hhi : v < 2 ^ (n + 1)) : v.testBit n = true := by
  have hdiv : v / 2 ^ n = 1 := Nat.div_eq_of_lt_le (by omega) (by omega)
  rw [Nat.testBit_eq_decide_div_mod_eq, hdiv]
  rfl

/-- In its own category a positive value begins with 1 (R171). -/
theorem head_amp_of_pos {v : ℤ} (h : 0 < v) : (itemBits ⟨category v, amp v (category v)⟩).head? = some true := by
  obtain ⟨n, hn, hlo, hhi⟩ := abs_bounds_of_category h.ne'
  have hamp := amp_category_of_pos h
  rw [abs_of_pos h] at hlo hhi
  rw [hn] at hamp ⊢
  rw [head_itemBits_succ, testBit_top_of_le]
  · zify; omega
  · zify; omega

/-- In its own category a negative value begins with 0 (R171). -/
theorem head_amp_of_neg {v : ℤ} (h : v < 0) : (itemBits ⟨category v, amp v (category v)⟩).head? = some false := by
  obtain ⟨n, hn, hlo, hhi⟩ := abs_bounds_of_category h.ne
  have hamp := amp_category_of_neg h
  rw [hn] at hamp ⊢
  rw [head_itemBits_succ, Nat.testBit_lt_two_pow]
  zify
  rw [pow_succ] at hamp hhi
  omega

/-- Category and amplitude bits determine the value (R171). -/
theorem eq_of_amp_eq {v w : ℤ} (hcat : category v = category w) (hamp : amp v (category v) = amp w (category w)) : v = w := by
  have hhead : (itemBits ⟨category v, amp v (category v)⟩).head? = (itemBits ⟨category w, amp w (category w)⟩).head? := by
    rw [hamp, hcat]
  have hcast : (amp v (category v) : ℤ) = amp w (category w) := by rw [hamp]
  rcases lt_trichotomy v 0 with hv | rfl | hv
  · rcases lt_trichotomy w 0 with hw | rfl | hw
    · rw [amp_category_of_neg hv, amp_category_of_neg hw, hcat, abs_of_neg hv, abs_of_neg hw] at hcast
      omega
    · exact (category_eq_zero v).mp hcat
    · rw [head_amp_of_neg hv, head_amp_of_pos hw] at hhead
      cases hhead
  · exact ((category_eq_zero w).mp hcat.symm).symm
  · rcases lt_trichotomy w 0 with hw | rfl | hw
    · rw [head_amp_of_pos hv, head_amp_of_neg hw] at hhead
      cases hhead
    · exact (category_eq_zero v).mp hcat
    · rw [amp_category_of_pos hv, amp_category_of_pos hw] at hcast
      exact hcast

/-- Settles O23: by the sign of the value; in other sizes by the definition. -/
theorem amplitudeBitsDetermineTheValue : Obligations.AmplitudeBitsDetermineTheValue :=
  ⟨fun _ h => ⟨amp_category_of_pos h, head_amp_of_pos h⟩, fun _ h => ⟨amp_category_of_neg h, head_amp_of_neg h⟩,
    fun _ _ => eq_of_amp_eq, fun _ len => ⟨fun h => amp_of_nonneg h len, fun h => amp_of_neg h len⟩, by decide⟩

/-! ### The symbol-word format (R28, R172) -/

/-- The bits between the fields of a symbol word are 0. -/
theorem symword_reserved {kind : SymKind} {run len : Nat} {v : ℤ} (hr : run < 16) (hl : len < 32) :
    (symword kind run len v).extractLsb' 37 3 = 0 ∧ (symword kind run len v).extractLsb' 44 4 = 0 ∧
      (symword kind run len v).extractLsb' 50 14 = 0 := by
  have hv : (v % 2 ^ 32).toNat < 2 ^ 32 := by omega
  have hk : kindCode kind ≤ 3 := by cases kind <;> decide
  simp only [extractLsb'_eq_iff_field, field, symword_toNat hr hl, BitVec.reduceToNat]
  omega

/-- Settles O24: the fields are disjoint and fill their places. -/
theorem symbolWordHoldsItsFields : Obligations.SymbolWordHoldsItsFields := fun _ _ _ _ hr hl hlo hhi =>
  ⟨symKind_symword hr hl, symRun_symword hr hl, symSize_symword hr hl, symValue_symword hr hl hlo hhi, symword_reserved hr hl⟩

/-! ### The list of R173 by positions of nonzero coefficients -/

/-- After position `i`, the words of the nonzero coefficients `ps` and the zeros before each, and an EOB unless the last is 63. -/
theorem acSymbols_coefsBetween {z : Block Half} {i : Fin 64} {ps : List (Fin 64)} (hsorted : ps.Pairwise (· < ·))
    (hps : ∀ k : Fin 64, k ∈ ps ↔ i < k ∧ z[k] ≠ 0) :
    acSymbols 0 (coefsBetween z i 64) =
      ((i :: ps).zip ps).flatMap (fun ij => acWordsBetween z ij.1 ij.2) ++
        (if (i :: ps).getLast? = some 63 then [] else [eobWord]) := by
  induction ps generalizing i with
  | nil =>
    have hzero : ∀ k : Fin 64, i.val < k → k.val < 64 → z[k] = 0 := fun k hk _ => by
      by_contra hz
      exact List.not_mem_nil ((hps k).mpr ⟨hk, hz⟩)
    have hend : 64 - i.val - 1 = 0 ↔ i = 63 := by omega
    rw [coefsBetween_eq_replicate le_rfl hzero, acSymbols_replicate_zero]
    simp [hend]
  | cons j ps ih =>
    obtain ⟨hij, hzj⟩ := (hps j).mp List.mem_cons_self
    obtain ⟨hlater, hsorted⟩ := List.pairwise_cons.mp hsorted
    have hzero : ∀ k : Fin 64, i.val < k → k < j.val → z[k] = 0 := fun k hk hkj => by
      by_contra hz
      rcases List.mem_cons.mp ((hps k).mpr ⟨hk, hz⟩) with rfl | hmem
      · exact lt_irrefl _ hkj
      · exact lt_asymm hkj (hlater k hmem)
    have hrest : ∀ k : Fin 64, k ∈ ps ↔ j < k ∧ z[k] ≠ 0 := fun k => by
      refine ⟨fun hmem => ⟨hlater k hmem, ((hps k).mp (List.mem_cons_of_mem j hmem)).2⟩, fun ⟨hjk, hz⟩ => ?_⟩
      exact (List.mem_cons.mp ((hps k).mpr ⟨hij.trans hjk, hz⟩)).resolve_left hjk.ne'
    rw [coefsBetween_split z hij, coefsBetween_eq_replicate j.isLt.le hzero, acSymbols_zero_run _ hzj, ih hsorted hrest,
      List.zip_cons_cons, List.flatMap_cons, List.getLast?_cons_cons, acWordsBetween, ← zrlWord_eq, acWord]
    simp only [List.append_assoc, List.cons_append, List.nil_append]

/-- R173 as a whole: the DC word, the words of the nonzero AC coefficients, and an EOB unless the last stands at 63. -/
theorem symbolize_eq_words {z : Block Half} {ps : List (Fin 64)} (hsorted : ps.Pairwise (· < ·))
    (hps : ∀ k : Fin 64, k ∈ ps ↔ k ≠ 0 ∧ z[k] ≠ 0) (p : Half) :
    symbolize z p =
      dcWord (z[0].toInt - p.toInt) :: ((0 :: ps).zip ps).flatMap (fun ij => acWordsBetween z ij.1 ij.2) ++
        (if ps.getLast? = some 63 then [] else [eobWord]) := by
  have hlast : (0 :: ps).getLast? = some 63 ↔ ps.getLast? = some 63 := by cases ps <;> simp
  have hps : ∀ k : Fin 64, k ∈ ps ↔ 0 < k ∧ z[k] ≠ 0 := fun k => by rw [hps, Fin.pos_iff_ne_zero]
  have hac := acSymbols_coefsBetween hsorted hps
  simp only [hlast] at hac
  rw [symbolize_eq, List.cons_append, ← hac]
  rfl

/-! ### SYMB (R174) -/

theorem exec_symb (c : Component) (s : State) :
    exec (.symb c) s = .next (s.setSymbols (symbolize s.ZB (s.predOf c)) c s.ZB[0]) := rfl

theorem predOf_setSymbols_same (s : State) (l : List Word) (c : Component) (p : Half) :
    (s.setSymbols l c p).predOf c = p := by
  simp [State.predOf]

/-- Settles O25: the commit of the symbols, and the list of R173 by positions. -/
theorem symbWritesTheSymbols : Obligations.SymbWritesTheSymbols := by
  intro c s
  have hlen := (symbolize_length s.ZB (s.predOf c)).2
  have hsymbols := symbols_setSymbols s (symbolize s.ZB (s.predOf c)) c s.ZB[0] hlen
  have hcnt : (s.setSymbols (symbolize s.ZB (s.predOf c)) c s.ZB[0]).SYMCNT.toNat = (symbolize s.ZB (s.predOf c)).length := by
    rw [State.setSymbols_SYMCNT, BitVec.toNat_ofNat]
    omega
  refine ⟨_, exec_symb c s, rfl, hsymbols, hcnt, fun i hi => ?_, predOf_setSymbols_same s _ c _,
    fun c' hne => predOf_setSymbols_ne hne s _ _, fun ps hsorted hps => ?_⟩
  · exact getElem_overlay_ge _ _ i (hcnt ▸ hi)
  · rw [hsymbols, symbolize_eq_words hsorted hps, eobWord_eq, dcWord]

/-! ### The symbols determine the block (R173) -/

/-- The `n` coefficients that the words after a DC symbol stand for: the reading of R28 and R172 backwards. -/
def expand : Nat → List Word → List Half
  | n, [] => List.replicate n 0
  | n, w :: ws =>
    match symKind w with
    | .zrl => List.replicate 16 0 ++ expand (n - 16) ws
    | .ac => List.replicate (symRun w) 0 ++ BitVec.ofInt 16 (symValue w) :: expand (n - (symRun w + 1)) ws
    | .dc | .eob => List.replicate n 0

theorem expand_eobWord (n : Nat) (ws : List Word) : expand n (eobWord :: ws) = List.replicate n 0 := by
  simp [expand]

theorem expand_replicate_zrlWord (k n : Nat) (ws : List Word) :
    expand (16 * k + n) (List.replicate k zrlWord ++ ws) = List.replicate (16 * k) 0 ++ expand n ws := by
  induction k with
  | zero => simp
  | succ k ih =>
    have hn : 16 * (k + 1) + n - 16 = 16 * k + n := by omega
    rw [List.replicate_succ, List.cons_append, expand, symKind_zrlWord, hn, ih, ← List.append_assoc, List.replicate_append_replicate,
      Nat.mul_succ, Nat.add_comm 16]

section
variable {run : Nat} (hrun : run < 16) (z : Half)
include hrun

theorem symRun_acWord : symRun (acWord run z.toInt) = run := symRun_symword hrun ((category_half z).trans_lt (by decide))

theorem symValue_acWord : symValue (acWord run z.toInt) = z.toInt := by
  have hlo := z.le_toInt
  have hhi := z.toInt_lt
  exact symValue_symword hrun ((category_half z).trans_lt (by decide)) (by omega) (by omega)

theorem expand_acWord (n : Nat) (ws : List Word) :
    expand (run + 1 + n) (acWord run z.toInt :: ws) = List.replicate run 0 ++ z :: expand n ws := by
  rw [expand, symKind_acWord hrun, symRun_acWord hrun, symValue_acWord hrun, BitVec.ofInt_toInt, Nat.add_sub_cancel_left]

end

/-- The words that the loop emits stand for the coefficients it was given, the zeros already counted included. -/
theorem expand_acSymbols (run : Nat) (l : List Half) :
    expand (run + l.length) (acSymbols run l) = List.replicate run 0 ++ l := by
  fun_induction acSymbols run l with
  | case1 run h => rw [expand_eobWord, List.append_nil]; rfl
  | case2 run h => rw [expand, List.append_nil]; rfl
  | case3 run zs ih =>
    rw [List.length_cons, Nat.add_comm zs.length, ← Nat.add_assoc, ih, List.replicate_succ', List.append_assoc]
    rfl
  | case4 run z zs hz ih =>
    have hmod : run % 16 < 16 := Nat.mod_lt run (by decide)
    have hlen : run + (z :: zs).length = 16 * (run / 16) + (run % 16 + 1 + zs.length) := by
      rw [List.length_cons]
      omega
    rw [Nat.zero_add] at ih
    rw [hlen, expand_replicate_zrlWord, expand_acWord hmod, ih, ← List.append_assoc, List.replicate_append_replicate,
      Nat.div_add_mod]
    rfl

/-- A block from its DC coefficient and the rest. -/
theorem block_eq_of_head_tail {z z' : Block Half} (hhead : z[0] = z'[0]) (htail : z.toList.tail = z'.toList.tail) : z = z' := by
  have hcons : ∀ y : Block Half, y.toList = y[0] :: y.toList.tail := fun y => by
    have hat : y.toList.drop 0 = y.toList[0] :: y.toList.drop 1 := List.drop_eq_getElem_cons (by simp)
    simpa using hat
  rw [← Vector.toList_inj, hcons z, hcons z', hhead, htail]

/-- The DC word of a difference determines the coefficient, given the predictor. -/
theorem eq_of_dcWord_eq {x y p : Half} (h : dcWord (x.toInt - p.toInt) = dcWord (y.toInt - p.toInt)) : x = y := by
  have hvalue := congrArg symValue h
  rw [symValue_dcWord_diff, symValue_dcWord_diff] at hvalue
  exact BitVec.eq_of_toInt_eq (by omega)

/-- Settles O29: the DC word gives the first coefficient, and `expand` the others. -/
theorem symbolsDetermineTheBlock : Obligations.SymbolsDetermineTheBlock := by
  intro z z' p h
  obtain ⟨hdc, hac⟩ := List.cons_eq_cons.mp h
  have htail := (expand_acSymbols 0 z.toList.tail).symm.trans
    ((congrArg _ hac).trans (by simpa using expand_acSymbols 0 z'.toList.tail))
  exact block_eq_of_head_tail (eq_of_dcWord_eq hdc) htail

end Sys2Proof.Machine
end

section
/-! The appending commands: what `appendItems` leaves when it fits (R211, R213, R218), WRBITS (R213), FLUSH (R214), all or nothing (R216) and
the stream over many packs (R218, R219). -/

open Sys2Proof.Claims

namespace Sys2Proof.Machine

/-! ### An append that fits -/

section
variable {s : State} {items : List CodeItem}

/-- Items whose bytes fit are appended. -/
theorem appendItems_of_room (hroom : s.OUTQ.length + (pack s.ACC.toNat s.NBITS.toNat items).bytes.length ≤ Config.outCap) :
    appendItems items s = .ok (s.setWriter (pack s.ACC.toNat s.NBITS.toNat items).acc
      (pack s.ACC.toNat s.NBITS.toNat items).nbits (s.OUTQ ++ (pack s.ACC.toNat s.NBITS.toNat items).bytes)) := by
  rcases appendItems_cases items s with ⟨-, hok⟩ | ⟨hfull, -⟩
  · exact hok
  · omega

/-- Items that do not fit are refused with the number of their bytes. -/
theorem appendItems_of_full (hfull : Config.outCap < s.OUTQ.length + (pack s.ACC.toNat s.NBITS.toNat items).bytes.length) :
    appendItems items s = .error (.outFull (pack s.ACC.toNat s.NBITS.toNat items).bytes.length) := by
  rcases appendItems_cases items s with ⟨hroom, -⟩ | ⟨-, herror⟩
  · omega
  · exact herror

/-- Items whose bytes fit are packed onto the stream. -/
theorem exists_packs (hpend : s.ACC.toNat < 2 ^ s.NBITS.toNat)
    (hroom : s.OUTQ.length + (pack s.ACC.toNat s.NBITS.toNat items).bytes.length ≤ Config.outCap) :
    ∃ t, appendItems items s = .ok t ∧ Packs s t items := by
  obtain ⟨hnb, hacc⟩ := pack_pending hpend items
  exact ⟨_, appendItems_of_room hroom, rfl, setWriter_fits s _ hnb hacc⟩

end

/-- The bits of packed items follow the pending bits in the stream (R218). -/
theorem appended_of_packs {items : List CodeItem} {s t : State} (hpend : s.ACC.toNat < 2 ^ s.NBITS.toNat)
    (h : Packs s t items) : Appended s t (items.flatMap itemBits) := by
  obtain ⟨ht, hACC, hNBITS⟩ := h
  refine ⟨_, ht, packBits_stuffed _ _ _, ?_, ?_⟩
  · rw [hACC, hNBITS]
    exact (pack_pending hpend items).2
  · rw [hACC, hNBITS]
    exact pack_bits hpend items

/-- The bytes of items, by their bits: eight bits complete a byte, and stuffing at most doubles it (R200). -/
theorem length_pack_bytes_le (s : State) (items : List CodeItem) :
    (pack s.ACC.toNat s.NBITS.toNat items).bytes.length ≤ 2 * ((s.NBITS.toNat + (items.flatMap itemBits).length) / 8) :=
  packBits_length (nbits_le_seven s) _

/-- The bytes of the symbols of a buffer or a block (R217). -/
theorem length_pack_code_le (s : State) {k : TableClass} {l : List Word} (hl : l.length ≤ 64) {items : List CodeItem}
    (hcode : codeFrom k 0 l = .ok items) : (pack s.ACC.toNat s.NBITS.toNat items).bytes.length ≤ 416 := by
  have hbits := codeFrom_bits k hcode
  have hpending := nbits_le_seven s
  have hbytes := length_pack_bytes_le s items
  omega

/-! ### WRBITS (R213) -/

theorem exec_wrbits (n : BitVec 5) (v : BitVec 16) (s : State) :
    exec (.wrbits n v) s = conclude s (appendItems [⟨n.toNat, v.toNat % 2 ^ n.toNat⟩] s) := rfl

/-- The low `n` bits of a number are the bits of its residue. -/
theorem itemBits_mod_two_pow (n v : Nat) : itemBits ⟨n, v % 2 ^ n⟩ = (List.range n).reverse.map v.testBit := by
  refine List.map_congr_left fun j hj => ?_
  have hlt : j < n := List.mem_range.mp (List.mem_reverse.mp hj)
  rw [Nat.testBit_mod_two_pow, decide_eq_true hlt, Bool.true_and]

/-- No bits, no change. -/
theorem appendItems_of_no_bits {items : List CodeItem} {s : State} (h : items.flatMap itemBits = [])
    (hcap : s.OUTQ.length ≤ Config.outCap) : appendItems items s = .ok s := by
  have hpack : pack s.ACC.toNat s.NBITS.toNat items = ⟨s.ACC.toNat, s.NBITS.toNat, []⟩ := by rw [pack, h]; rfl
  rw [appendItems_of_room (by rw [hpack]; exact hcap), hpack, List.append_nil, setWriter_self]

/-- Settles O36: four bytes hold the pending bits and sixteen more, all of them stuffed. -/
theorem wrbitsAppendsTheLowBits : Obligations.WrbitsAppendsTheLowBits := by
  intro n v s hwf hn hroom
  have hbits : ([⟨n.toNat, v.toNat % 2 ^ n.toNat⟩] : List CodeItem).flatMap itemBits =
      (List.range n.toNat).reverse.map fun j => v.getLsbD j := by
    rw [List.flatMap_singleton, itemBits_mod_two_pow]
    rfl
  have hbytes := length_pack_bytes_le s [⟨n.toNat, v.toNat % 2 ^ n.toNat⟩]
  have hpending := nbits_le_seven s
  rw [hbits, List.length_map, List.length_reverse, List.length_range] at hbytes
  obtain ⟨t, ht, hpacks⟩ := exists_packs (items := [⟨n.toNat, v.toNat % 2 ^ n.toNat⟩]) hwf.pending (by omega)
  refine ⟨t, by rw [exec_wrbits, ht, conclude_ok], hbits ▸ appended_of_packs hwf.pending hpacks, ?_⟩
  rintro rfl
  exact Except.ok.inj (ht.symm.trans (appendItems_of_no_bits (by simp) hwf.capacity))

/-! ### FLUSH (R214) -/

theorem exec_flush (s : State) : exec .flush s = conclude s (appendItems (padding s.NBITS.toNat) s) := rfl

theorem itemBits_ones (k : Nat) : itemBits ⟨k, 2 ^ k - 1⟩ = List.replicate k true := by
  refine List.eq_replicate_iff.mpr ⟨length_itemBits _, fun b hb => ?_⟩
  obtain ⟨j, hj, rfl⟩ := List.mem_map.mp hb
  have hlt : j < k := List.mem_range.mp (List.mem_reverse.mp hj)
  rw [Nat.testBit_two_pow_sub_one, decide_eq_true hlt]

/-- `k` one-bits that complete a byte: the pending bits, then ones. -/
theorem packBits_ones {k : Nat} (hk : k ≤ 7) (a : Nat) :
    packBits a (7 - k) (List.replicate (k + 1) true) = ⟨0, 0, emit (BitVec.ofNat 8 ((a + 1) * 2 ^ (k + 1) - 1))⟩ := by
  induction k generalizing a with
  | zero =>
    have hbyte : 2 * a + bitOf true = (a + 1) * 2 ^ (0 + 1) - 1 := by rw [bitOf, if_pos rfl]; omega
    rw [List.replicate_succ, packBits_cons_seven, hbyte, List.replicate_zero, packBits, List.append_nil]
  | succ k ih =>
    have hbyte : (2 * a + bitOf true + 1) * 2 ^ (k + 1) - 1 = (a + 1) * 2 ^ (k + 1 + 1) - 1 := by
      rw [bitOf, if_pos rfl, pow_succ 2 (k + 1)]
      ring_nf
    rw [List.replicate_succ, packBits_cons_lt _ _ (by omega), show 7 - (k + 1) + 1 = 7 - k by omega, ih (by omega), hbyte]

/-- The one byte that FLUSH completes. -/
theorem pack_padding {s : State} (h : s.NBITS ≠ 0) :
    pack s.ACC.toNat s.NBITS.toNat (padding s.NBITS.toNat) =
      ⟨0, 0, emit (BitVec.ofNat 8 ((s.ACC.toNat + 1) * 2 ^ (8 - s.NBITS.toNat) - 1))⟩ := by
  have hne : s.NBITS.toNat ≠ 0 := fun h0 => h (BitVec.eq_of_toNat_eq h0)
  have hle := nbits_le_seven s
  obtain ⟨k, hk⟩ : ∃ k, s.NBITS.toNat = 7 - k ∧ k ≤ 7 := ⟨7 - s.NBITS.toNat, by omega⟩
  have hlen : 8 - s.NBITS.toNat = k + 1 := by omega
  rw [padding, if_neg hne, pack, List.flatMap_singleton, itemBits_ones, hlen, hk.1, packBits_ones hk.2]

/-- Settles O37: no padding on an aligned stream, else one byte. -/
theorem flushPadsWithOnes : Obligations.FlushPadsWithOnes := by
  refine fun s hwf => ⟨fun h0 => ?_, fun hne => ?_⟩
  · rw [exec_flush, h0, appendItems_of_no_bits (by simp [padding]) hwf.capacity, conclude_ok]
  · intro b hroom
    have hpack : pack s.ACC.toNat s.NBITS.toNat (padding s.NBITS.toNat) = ⟨0, 0, emit b⟩ := pack_padding hne
    have hlen : (emit b).length = if b = 0xFF then 2 else 1 := by rw [emit, apply_ite List.length]; rfl
    rw [exec_flush, appendItems_of_room (by rw [hpack, hlen]; exact hroom), hpack]
    rfl

/-! ### ENCBLK as SYMB and HUFF (R198) -/

/-- An append does not see the registers that SYMB writes. -/
theorem appendItems_setSymbols (items : List CodeItem) (s : State) (l : List Word) (c : Component) (p : Half) :
    appendItems items (s.setSymbols l c p) = (appendItems items s).map fun s' => s'.setSymbols l c p := by
  rcases le_or_gt (s.OUTQ.length + (pack s.ACC.toNat s.NBITS.toNat items).bytes.length) Config.outCap with hroom | hfull
  · rw [appendItems_of_room (s := s.setSymbols l c p) hroom, appendItems_of_room hroom]
    rfl
  · rw [appendItems_of_full (s := s.setSymbols l c p) hfull, appendItems_of_full hfull]
    rfl

/-- HUFF of the symbols that SYMB has written: the commit of ENCBLK, or its error (R197, R198). -/
theorem exec_huff_setSymbols (c : Component) (k : TableClass) (s : State) :
    exec (.huff k) (s.setSymbols (symbolize s.ZB (s.predOf c)) c s.ZB[0]) =
      conclude (s.setSymbols (symbolize s.ZB (s.predOf c)) c s.ZB[0])
        (((codeFrom k 0 (symbolize s.ZB (s.predOf c))).bind fun items => appendItems items s).map fun s' =>
          s'.setSymbols (symbolize s.ZB (s.predOf c)) c s.ZB[0]) := by
  have hsymbols := symbols_setSymbols s (symbolize s.ZB (s.predOf c)) c s.ZB[0] (symbolize_length _ _).2
  refine congrArg (conclude _) ?_
  rw [hsymbols]
  cases codeFrom k 0 (symbolize s.ZB (s.predOf c)) with
  | error e => rfl
  | ok items => exact appendItems_setSymbols items s _ c _

/-! ### All or nothing (R216) -/

section
variable {s : State} {items : List CodeItem}

theorem exec_huff_of_code {k : TableClass} (h : codeFrom k 0 s.symbols = .ok items) :
    exec (.huff k) s = conclude s (appendItems items s) := by
  refine congrArg (conclude s) ?_
  rw [h]
  rfl

theorem exec_encblk_of_code {c : Component} {k : TableClass} (h : codeFrom k 0 (symbolize s.ZB (s.predOf c)) = .ok items) :
    exec (.encblk c k) s = conclude s
      ((appendItems items s).map fun s' => s'.setSymbols (symbolize s.ZB (s.predOf c)) c s.ZB[0]) := by
  refine congrArg (conclude s) ?_
  rw [h]
  rfl

theorem exec_flush_of_pending (h : s.NBITS ≠ 0) (hitems : items = [⟨8 - s.NBITS.toNat, 2 ^ (8 - s.NBITS.toNat) - 1⟩]) :
    exec .flush s = conclude s (appendItems items s) := by
  have hne : s.NBITS.toNat ≠ 0 := fun h0 => h (BitVec.eq_of_toNat_eq h0)
  rw [exec_flush, padding, if_neg hne, hitems]

/-- The error of an append that does not fit, its detail within its field. -/
theorem errorEntry_outFull (herr : s.ERR = false) {n : Nat} (hbytes : n < 2 ^ 16) :
    errorEntry (.outFull n) s = withError s 0x05 n := errorEntry_eq_withError (e := .outFull n) herr hbytes

end

/-- A full queue: each appending command records `E_OUT_FULL` and changes nothing else. -/
theorem exec_of_full {s : State} {items : List CodeItem} (herr : s.ERR = false)
    (hfull : Config.outCap < s.OUTQ.length + (pack s.ACC.toNat s.NBITS.toNat items).bytes.length) :
    let m := (pack s.ACC.toNat s.NBITS.toNat items).bytes.length
    (∀ n v, items = [⟨n.toNat, v.toNat % 2 ^ n.toNat⟩] → exec (.wrbits n v) s = .next (withError s 0x05 m)) ∧
      (s.NBITS ≠ 0 → items = [⟨8 - s.NBITS.toNat, 2 ^ (8 - s.NBITS.toNat) - 1⟩] →
        exec .flush s = .next (withError s 0x05 m)) ∧
      (∀ k, codeFrom k 0 s.symbols = .ok items → exec (.huff k) s = .next (withError s 0x05 m)) ∧
      ∀ c k, codeFrom k 0 (symbolize s.ZB (s.predOf c)) = .ok items → exec (.encblk c k) s = .next (withError s 0x05 m) := by
  intro m
  have happend := appendItems_of_full hfull
  have hentry : ∀ r, r = Except.error (.outFull m) → m < 2 ^ 16 → conclude s r = .next (withError s 0x05 m) := by
    rintro r rfl hm
    rw [conclude_error, errorEntry_outFull herr hm]
  have hbytes : m ≤ 2 * ((s.NBITS.toNat + (items.flatMap itemBits).length) / 8) := length_pack_bytes_le s items
  have hpending := nbits_le_seven s
  refine ⟨fun n v hitems => ?_, fun hne hitems => ?_, fun k hcode => ?_, fun c k hcode => ?_⟩
  · have hn := n.isLt
    have hbits : (items.flatMap itemBits).length = n.toNat := by rw [hitems, List.flatMap_singleton, length_itemBits]
    rw [exec_wrbits, ← hitems]
    exact hentry _ happend (by omega)
  · have hbits : (items.flatMap itemBits).length = 8 - s.NBITS.toNat := by
      rw [hitems, List.flatMap_singleton, length_itemBits]
    rw [exec_flush_of_pending hne hitems]
    exact hentry _ happend (by omega)
  · rw [exec_huff_of_code hcode]
    exact hentry _ happend ((length_pack_code_le s (symbols_length_le s) hcode).trans_lt (by decide))
  · rw [exec_encblk_of_code hcode, happend]
    exact hentry _ rfl ((length_pack_code_le s (symbolize_length _ _).2 hcode).trans_lt (by decide))

/-- Room for the bytes, exactly too: each appending command packs its items, ENCBLK onto what SYMB leaves. -/
theorem exec_of_room {s : State} {items : List CodeItem} (hpend : s.ACC.toNat < 2 ^ s.NBITS.toNat)
    (hroom : s.OUTQ.length + (pack s.ACC.toNat s.NBITS.toNat items).bytes.length ≤ Config.outCap) :
    (∀ n v, items = [⟨n.toNat, v.toNat % 2 ^ n.toNat⟩] → ∃ t : State, exec (.wrbits n v) s = .next t ∧ Packs s t items) ∧
      (s.NBITS ≠ 0 → items = [⟨8 - s.NBITS.toNat, 2 ^ (8 - s.NBITS.toNat) - 1⟩] →
        ∃ t : State, exec .flush s = .next t ∧ Packs s t items) ∧
      (∀ k, codeFrom k 0 s.symbols = .ok items → ∃ t : State, exec (.huff k) s = .next t ∧ Packs s t items) ∧
      ∀ c k, codeFrom k 0 (symbolize s.ZB (s.predOf c)) = .ok items →
        ∃ u t : State, exec (.symb c) s = .next u ∧ exec (.encblk c k) s = .next t ∧ Packs u t items := by
  obtain ⟨t, ht, hpacks⟩ := exists_packs hpend hroom
  refine ⟨fun n v hitems => ⟨t, ?_, hpacks⟩, fun hne hitems => ⟨t, ?_, hpacks⟩, fun k hcode => ⟨t, ?_, hpacks⟩, fun c k hcode => ?_⟩
  · rw [exec_wrbits, ← hitems, ht, conclude_ok]
  · rw [exec_flush_of_pending hne hitems, ht, conclude_ok]
  · rw [exec_huff_of_code hcode, ht, conclude_ok]
  · refine ⟨_, t.setSymbols (symbolize s.ZB (s.predOf c)) c s.ZB[0], exec_symb c s, ?_, ?_⟩
    · rw [exec_encblk_of_code hcode, ht]
      rfl
    · obtain ⟨heq, hACC, hNBITS⟩ := hpacks
      refine ⟨?_, hACC, hNBITS⟩
      conv_lhs => rw [heq]
      rfl

/-! ### The queue never passes its capacity (R216) -/

theorem append_capacity {items : List CodeItem} {s u : State} (h : appendItems items s = .ok u) : u.OUTQ.length ≤ Config.outCap := by
  rcases appendItems_cases items s with ⟨hroom, hok⟩ | ⟨-, herror⟩
  · rw [← Except.ok.inj (hok.symm.trans h), State.setWriter_OUTQ, List.length_append]
    exact hroom
  · rw [herror] at h
    cases h

theorem errorEntry_capacity {s : State} (e : ErrorEvent) (hs : s.OUTQ.length ≤ Config.outCap) :
    (errorEntry e s).OUTQ.length ≤ Config.outCap := by
  rwa [errorEntry_OUTQ]

theorem conclude_append_capacity {items : List CodeItem} {s t : State} (hs : s.OUTQ.length ≤ Config.outCap)
    (h : conclude s (appendItems items s) = .next t) : t.OUTQ.length ≤ Config.outCap := by
  rcases conclude_cases h with hok | ⟨e, -, rfl⟩
  · exact append_capacity hok
  · exact errorEntry_capacity e hs

theorem exec_capacity {i : Instr} {s t : State} (hs : s.OUTQ.length ≤ Config.outCap) (h : exec i s = .next t) :
    t.OUTQ.length ≤ Config.outCap := by
  cases i
  case qtbuild c q =>
    by_cases hq : 1 ≤ q.toNat ∧ q.toNat ≤ 100
    · obtain rfl := Host.Outcome.next.inj ((execQtbuild_ok c s hq).symm.trans h)
      exact hs
    · obtain rfl := Host.Outcome.next.inj ((execQtbuild_error c s hq).symm.trans h)
      exact errorEntry_capacity _ hs
  case quant c =>
    rcases execQuant_cases h with ⟨k, rfl⟩ | ⟨b, rfl⟩
    · exact errorEntry_capacity _ hs
    · exact hs
  case huff k =>
    rcases execHuff_cases h with ⟨j, -, rfl⟩ | ⟨items, -, happend⟩
    · exact errorEntry_capacity _ hs
    · exact conclude_append_capacity hs happend
  case encblk c k =>
    rcases execEncblk_cases h with ⟨j, -, rfl⟩ | ⟨items, -, ⟨u, happend, rfl⟩ | ⟨e, -, rfl⟩⟩
    · exact errorEntry_capacity _ hs
    · rw [State.setSymbols_OUTQ]
      exact append_capacity happend
    · exact errorEntry_capacity _ hs
  case wrbits n v => exact conclude_append_capacity hs h
  case flush => exact conclude_append_capacity hs h
  case bwreset =>
    obtain rfl := Host.Outcome.next.inj h
    exact Nat.zero_le _
  case sreset =>
    obtain rfl := Host.Outcome.next.inj h
    exact Nat.zero_le _
  all_goals
    obtain rfl := Host.Outcome.next.inj h
    exact hs

/-- Settles O39: the full queue, the room, and the bound, command by command. -/
theorem capacityIsAllOrNothing : Obligations.CapacityIsAllOrNothing := fun _ _ =>
  ⟨exec_of_full, fun hwf => exec_of_room hwf.pending, fun _ _ => exec_capacity⟩

/-! ### The stream over many packs (R218, R219) -/

/-- Packing lists one after another is packing all their bits at once. -/
theorem packAll_eq (l : List (List CodeItem)) : packAll l = packBits 0 0 (l.flatMap fun items => items.flatMap itemBits) := by
  induction l using List.reverseRecOn with
  | nil => rfl
  | append_singleton l items ih =>
    rw [List.flatMap_append, List.flatMap_singleton, packBits_append, ← ih, packAll, List.foldl_append]
    rfl

/-- Settles O41: the bit-writer's three facts, for all the bits at once. -/
theorem streamHoldsExactlyTheBitsWritten : Obligations.StreamHoldsExactlyTheBitsWritten := by
  intro cmds r
  have hr : r = packBits 0 0 (cmds.flatMap fun items => items.flatMap itemBits) := packAll_eq cmds
  have hpending := packBits_pending (show 0 ≤ 7 by decide) (show 0 < 2 ^ 0 by decide)
  have hbits := packBits_bits (show 0 ≤ 7 by decide) (show 0 < 2 ^ 0 by decide)
  rw [hr]
  exact ⟨hbits _, packBits_stuffed _ _ _, hpending _⟩

end Sys2Proof.Machine
end

section
/-! The code tables (R194, R201) and the coder: HUFF (R195, R197), ENCBLK (R198) and the unique decoding of a coded block (R201); and the
scan of R160. -/

open Sys2Proof.Claims

namespace Sys2Proof.Machine

/-! ### The scan (R160) -/

/-- Settles O18: the tables are closed data. -/
theorem zigzagTableIsTheAntiDiagonalScan : Obligations.ZigzagTableIsTheAntiDiagonalScan :=
  ⟨rfl, rfl, fun i => ⟨zi_zz i, zz_zi i⟩, by decide +kernel⟩

/-! ### Prefixes of bit strings -/

theorem itemBits_add (m d v : Nat) : itemBits ⟨m + d, v⟩ = itemBits ⟨m, v / 2 ^ d⟩ ++ itemBits ⟨d, v⟩ := by
  have hhigh : ∀ j, v.testBit (d + j) = (v / 2 ^ d).testBit j := fun j => by rw [Nat.testBit_div_two_pow, Nat.add_comm]
  simp only [itemBits, Nat.add_comm m d, List.range_add, List.reverse_append, List.map_append, ← List.map_reverse, List.map_map,
    Function.comp_def, hhigh]

/-- Bits of one number of bits determine the number. -/
theorem eq_of_itemBits_eq {n v w : Nat} (hv : v < 2 ^ n) (hw : w < 2 ^ n) (h : itemBits ⟨n, v⟩ = itemBits ⟨n, w⟩) : v = w := by
  refine Nat.eq_of_testBit_eq fun j => ?_
  rcases lt_or_ge j n with hj | hj
  · exact List.map_inj_left.mp h j (List.mem_reverse.mpr (List.mem_range.mpr hj))
  · have hpow : 2 ^ n ≤ 2 ^ j := Nat.pow_le_pow_right two_pos hj
    rw [Nat.testBit_lt_two_pow (hv.trans_le hpow), Nat.testBit_lt_two_pow (hw.trans_le hpow)]

/-- Leading bits hold the leading part of the number. -/
theorem div_eq_of_itemBits_prefix {m d v w : Nat} (hv : v < 2 ^ m) (hw : w < 2 ^ (m + d))
    (h : itemBits ⟨m, v⟩ <+: itemBits ⟨m + d, w⟩) : w / 2 ^ d = v := by
  have hlt : w / 2 ^ d < 2 ^ m := Nat.div_lt_of_lt_mul (by rwa [← pow_add, Nat.add_comm])
  have hlead : itemBits ⟨m, w / 2 ^ d⟩ <+: itemBits ⟨m + d, w⟩ := itemBits_add m d w ▸ List.prefix_append _ _
  have hbits : itemBits ⟨m, v⟩ = itemBits ⟨m, w / 2 ^ d⟩ :=
    (List.prefix_of_prefix_length_le h hlead (by simp)).eq_of_length (by simp)
  exact (eq_of_itemBits_eq hv hlt hbits).symm

/-! ### No code begins another (R194, R201) -/

/-- The first of the 16-bit strings that begin with a row's code, as a number. -/
def CodeRow.lo (r : CodeRow) : Nat := r.code * 2 ^ (16 - r.len)

/-- One more than the last of them. -/
def CodeRow.hi (r : CodeRow) : Nat := (r.code + 1) * 2 ^ (16 - r.len)

/-- The 16-bit strings of `r` all stand below those of `r'`. -/
def CodeRow.Below (r r' : CodeRow) : Prop := r.hi ≤ r'.lo

theorem CodeRow.lo_lt_hi (r : CodeRow) : r.lo < r.hi := by
  rw [lo, hi, Nat.add_mul, Nat.one_mul]
  exact Nat.lt_add_of_pos_right (by positivity)

theorem CodeRow.below_trans {r r' r'' : CodeRow} (h : r.Below r') (h' : r'.Below r'') : r.Below r'' :=
  h.trans (r'.lo_lt_hi.le.trans h')

/-- One stands below the other. -/
def CodeRow.Apart (r r' : CodeRow) : Prop := r.Below r' ∨ r'.Below r

theorem CodeRow.apart_symm {r r' : CodeRow} (h : r.Apart r') : r'.Apart r := Or.symm h

/-- A row that fits: its code has `len` bits, at most 16 of them. -/
def CodeRow.Fits (r : CodeRow) : Prop := r.len ≤ 16 ∧ r.code < 2 ^ r.len

/-- A code that begins another begins its 16-bit strings. -/
theorem CodeRow.lo_mem_of_prefix {r r' : CodeRow} (hr : r.Fits) (hr' : r'.Fits)
    (h : itemBits ⟨r.len, r.code⟩ <+: itemBits ⟨r'.len, r'.code⟩) : r.lo ≤ r'.lo ∧ r'.lo < r.hi := by
  obtain ⟨d, hd⟩ : ∃ d, r'.len = r.len + d := Nat.exists_eq_add_of_le (by simpa using h.length_le)
  obtain ⟨hlen, hcode⟩ := hr'
  rw [hd] at h hlen hcode
  have hlead := div_eq_of_itemBits_prefix hr.2 hcode h
  have hpow : 2 ^ (16 - r.len) = 2 ^ d * 2 ^ (16 - (r.len + d)) := by rw [← pow_add]; congr 1; omega
  have hlow : r.code * 2 ^ d ≤ r'.code := hlead ▸ Nat.div_mul_le_self _ _
  have hhigh : r'.code < (r.code + 1) * 2 ^ d := hlead ▸ Nat.lt_mul_of_div_lt (Nat.lt_succ_self _) (by positivity)
  rw [lo, hi, lo, hd, hpow, ← mul_assoc, ← mul_assoc]
  exact ⟨Nat.mul_le_mul_right _ hlow, Nat.mul_lt_mul_of_pos_right hhigh (by positivity)⟩

/-- No code of the rows begins another (R201). -/
def PrefixFree (rows : List CodeRow) : Prop :=
  ∀ r ∈ rows, ∀ r' ∈ rows, itemBits ⟨r.len, r.code⟩ <+: itemBits ⟨r'.len, r'.code⟩ → r = r'

/-- Of rows whose 16-bit strings stand in order no code begins another. -/
theorem prefixFree_of_chain {rows : List CodeRow} (hfits : ∀ r ∈ rows, r.Fits) (hchain : rows.IsChain CodeRow.Below) :
    PrefixFree rows := by
  intro r hr r' hr' h
  have : Trans CodeRow.Below CodeRow.Below CodeRow.Below := ⟨CodeRow.below_trans⟩
  have : Std.Symm CodeRow.Apart := ⟨fun _ _ => CodeRow.apart_symm⟩
  have hpairs : rows.Pairwise CodeRow.Apart := (List.isChain_iff_pairwise.mp hchain).imp Or.inl
  obtain ⟨hlo, hhi⟩ := CodeRow.lo_mem_of_prefix (hfits r hr) (hfits r' hr') h
  by_contra hne
  rcases hpairs.forall hr hr' hne with hbelow | hbelow
  · exact absurd hbelow (not_le.mpr hhi)
  · exact absurd hbelow (not_le.mpr (hlo.trans_lt r'.lo_lt_hi))

/-- What is checked of the rows that R194 makes, in its order. -/
def InOrder (rows : List CodeRow) : Prop :=
  (∀ r ∈ rows, r.len ≤ 16 ∧ r.code < 2 ^ r.len) ∧ rows.IsChain fun r r' => r.hi ≤ r'.lo

theorem inOrder_dc :
    InOrder (canonicalRows 1 0 bitsDcLuma huffvalDcLuma) ∧ InOrder (canonicalRows 1 0 bitsDcChroma huffvalDcChroma) := by
  unfold InOrder
  decide +kernel

theorem inOrder_ac :
    InOrder (canonicalRows 1 0 bitsAcLuma huffvalAcLuma) ∧ InOrder (canonicalRows 1 0 bitsAcChroma huffvalAcChroma) := by
  unfold InOrder
  decide +kernel

/-- The lists of R194 make the tables: in the printed order for DC, in another for AC. -/
theorem rows_canonical :
    dcRows .luma = canonicalRows 1 0 bitsDcLuma huffvalDcLuma ∧
      dcRows .chroma = canonicalRows 1 0 bitsDcChroma huffvalDcChroma ∧
      (acRows .luma).Perm (canonicalRows 1 0 bitsAcLuma huffvalAcLuma) ∧
      (acRows .chroma).Perm (canonicalRows 1 0 bitsAcChroma huffvalAcChroma) := by
  decide +kernel

theorem prefixFree_of_perm {rows canonical : List CodeRow} (hperm : rows.Perm canonical) (h : InOrder canonical) :
    PrefixFree rows := fun r hr r' hr' =>
  prefixFree_of_chain h.1 h.2 r (hperm.subset hr) r' (hperm.subset hr')

theorem dcRows_prefixFree (t : TableClass) : PrefixFree (dcRows t) := by
  obtain ⟨hluma, hchroma, -⟩ := rows_canonical
  cases t
  · exact prefixFree_of_perm (.of_eq hluma) inOrder_dc.1
  · exact prefixFree_of_perm (.of_eq hchroma) inOrder_dc.2

theorem acRows_prefixFree (t : TableClass) : PrefixFree (acRows t) := by
  obtain ⟨-, -, hluma, hchroma⟩ := rows_canonical
  cases t
  · exact prefixFree_of_perm hluma inOrder_ac.1
  · exact prefixFree_of_perm hchroma inOrder_ac.2

theorem rows_not_all_ones (t : TableClass) : ∀ rows ∈ [dcRows t, acRows t], ∀ r ∈ rows, false ∈ itemBits ⟨r.len, r.code⟩ := by
  cases t <;> decide +kernel

/-- Settles O31: the closed data of R194, and the order of the codes for the prefixes. -/
theorem codeTablesAreCanonicalAndPrefixFree : Obligations.CodeTablesAreCanonicalAndPrefixFree := by
  refine ⟨rows_canonical, fun t rows hrows => ⟨rows_not_all_ones t rows hrows, ?_⟩⟩
  obtain rfl | rfl : rows = dcRows t ∨ rows = acRows t := by simpa using hrows
  · exact dcRows_prefixFree t
  · exact acRows_prefixFree t

/-! ### The bits of coded symbols (R195) -/

/-- The table that the code of a word stands in. -/
def codeRows (t : TableClass) (w : Word) : List CodeRow :=
  match symKind w with
  | .dc => dcRows t
  | .ac | .zrl | .eob => acRows t

/-- Its key there. -/
def codeKey (w : Word) : Nat :=
  match symKind w with
  | .dc => symSize w
  | .ac => 16 * symRun w + symSize w
  | .zrl => 0xF0
  | .eob => 0x00

/-- The bits that follow the code. -/
def amplitudeBits (w : Word) : List Bool :=
  match symKind w with
  | .dc | .ac => itemBits ⟨symSize w, amp (symValue w) (symSize w)⟩
  | .zrl | .eob => []

/-- A codable word is coded as its code and its amplitude bits, in the model and in `symbolBits`. -/
theorem exists_code (t : TableClass) {w : Word} (h : Codable w) :
    ∃ c, lookupCode (codeRows t w) (codeKey w) = some c ∧ symbolBits t w = itemBits c ++ amplitudeBits w ∧
      ∃ items, codeSymbol t w = some items ∧ items.flatMap itemBits = itemBits c ++ amplitudeBits w := by
  obtain ⟨hdc, hac⟩ := h
  unfold codeRows codeKey symbolBits amplitudeBits codeSymbol
  cases hk : symKind w with
  | dc =>
    have hsize := hdc hk
    obtain ⟨c, hc⟩ := Option.isSome_iff_exists.mp (dctab_isSome t hsize)
    refine ⟨c, hc, by rw [hc]; rfl, _, by rw [if_neg (not_lt.mpr hsize), hc]; rfl, ?_⟩
    rcases Nat.eq_zero_or_pos (symSize w) with hzero | hpos
    · simp [hzero]
    · simp [hpos]
  | ac =>
    have hsize := hac hk
    obtain ⟨c, hc⟩ := Option.isSome_iff_exists.mp (actab_isSome t (symRun_lt w) hsize.1 hsize.2)
    have hin : ¬ (symSize w = 0 ∨ symSize w > 10) := by omega
    exact ⟨c, hc, by rw [hc]; rfl, _, by rw [if_neg hin, hc]; rfl, by simp⟩
  | zrl =>
    obtain ⟨c, hc⟩ : ∃ c, actab t 0xF0 = some c := Option.isSome_iff_exists.mp (by cases t <;> decide)
    exact ⟨c, hc, by simp [hc], _, by rw [hc]; rfl, by simp⟩
  | eob =>
    obtain ⟨c, hc⟩ : ∃ c, actab t 0x00 = some c := Option.isSome_iff_exists.mp (by cases t <;> decide)
    exact ⟨c, hc, by simp [hc], _, by rw [hc]; rfl, by simp⟩

/-- The items of codable words are their bits. -/
theorem exists_codeFrom (t : TableClass) {l : List Word} (h : ∀ w ∈ l, Codable w) :
    ∃ items, codeFrom t 0 l = .ok items ∧ items.flatMap itemBits = streamBits t l := by
  refine ⟨_, codeFrom_ok fun w hw => (codeSymbol_isSome t w).mpr (h w hw), ?_⟩
  rw [List.flatMap_assoc, streamBits]
  refine List.flatMap_congr fun w hw => ?_
  obtain ⟨c, -, hbits, items, hitems, hflat⟩ := exists_code t (h w hw)
  rw [hitems, Option.getD_some, hflat, hbits]

/-- Room for 416 bytes is room for the symbols of a buffer or a block (R217). -/
theorem room_of_code {s : State} {t : TableClass} {l : List Word} {items : List CodeItem} (hl : l.length ≤ 64)
    (hcode : codeFrom t 0 l = .ok items) (hroom : s.OUTQ.length + 416 ≤ Config.outCap) :
    s.OUTQ.length + (pack s.ACC.toNat s.NBITS.toNat items).bytes.length ≤ Config.outCap :=
  (Nat.add_le_add_left (length_pack_code_le s hl hcode) _).trans hroom

/-! ### HUFF (R195, R197) -/

/-- Settles O32: the items of codable symbols fit, and are appended. -/
theorem huffAppendsTheCodes : Obligations.HuffAppendsTheCodes := by
  intro c s hwf hcodable hroom
  obtain ⟨items, hcode, hbits⟩ := exists_codeFrom c hcodable
  obtain ⟨t, ht, hpacks⟩ := exists_packs hwf.pending (room_of_code (symbols_length_le s) hcode hroom)
  exact ⟨t, by rw [exec_huff_of_code hcode, ht, conclude_ok], hbits ▸ appended_of_packs hwf.pending hpacks⟩

/-- `code` stops at the first word without a code. -/
theorem codeFrom_of_first_miss {t : TableClass} {l : List Word} {i : Nat} {w : Word} (hw : l[i]? = some w)
    (hmiss : ¬ Codable w) (hbefore : ∀ w' ∈ l.take i, Codable w') (k : Nat) : codeFrom t k l = .error (.category (k + i)) := by
  induction l generalizing i k with
  | nil => simp at hw
  | cons v l ih =>
    cases i with
    | zero =>
      obtain rfl : v = w := by simpa using hw
      have hnone : codeSymbol t v = none := by rwa [← Option.not_isSome_iff_eq_none, codeSymbol_isSome]
      simp [codeFrom, hnone]
    | succ i =>
      rw [List.take_succ_cons, List.forall_mem_cons] at hbefore
      obtain ⟨items, hitems⟩ := Option.isSome_iff_exists.mp ((codeSymbol_isSome t v).mpr hbefore.1)
      have hrest := ih (by simpa using hw) hbefore.2 (k + 1)
      simp [codeFrom, hitems, hrest, Except.map, Nat.add_assoc, Nat.add_comm 1]

/-- Settles O33: the first miss stops `code` before anything is packed. -/
theorem huffRaisesCategoryAtTheLowestIndex : Obligations.HuffRaisesCategoryAtTheLowestIndex := by
  intro c s i w herr hw hmiss hbefore
  have hcode : codeFrom c 0 s.symbols = .error (.category i) := by
    rw [codeFrom_of_first_miss hw hmiss hbefore, Nat.zero_add]
  have hi : i < 2 ^ 16 :=
    ((List.getElem?_eq_some_iff.mp hw).1.trans_le (symbols_length_le s)).trans_le (by decide)
  have hexec : exec (.huff c) s = conclude s (.error (.category i)) := by
    refine congrArg (conclude s) ?_
    rw [hcode]
    rfl
  rw [hexec, conclude_error, errorEntry_eq_withError herr (e := .category i) hi]
  rfl

/-! ### ENCBLK (R198) -/

/-- The state that SYMB leads to. -/
def symbolized (c : Component) (s : State) : State := s.setSymbols (symbolize s.ZB (s.predOf c)) c s.ZB[0]

/-- What ENCBLK commits, or its error. -/
def encodedBlock (c : Component) (k : TableClass) (s : State) : Except ErrorEvent State :=
  ((codeFrom k 0 (symbolize s.ZB (s.predOf c))).bind fun items => appendItems items s).map fun s' =>
    s'.setSymbols (symbolize s.ZB (s.predOf c)) c s.ZB[0]

theorem exec_encblk (c : Component) (k : TableClass) (s : State) : exec (.encblk c k) s = conclude s (encodedBlock c k s) := rfl

/-- HUFF after SYMB commits what ENCBLK commits, or has its error. -/
theorem exec_huff_symbolized (c : Component) (k : TableClass) (s : State) :
    exec (.huff k) (symbolized c s) = conclude (symbolized c s) (encodedBlock c k s) := exec_huff_setSymbols c k s

theorem encodedBlock_ERR {c : Component} {k : TableClass} {s t : State} (h : encodedBlock c k s = .ok t) : t.ERR = s.ERR := by
  unfold encodedBlock at h
  cases hcode : codeFrom k 0 (symbolize s.ZB (s.predOf c)) with
  | error e =>
    rw [hcode] at h
    cases h
  | ok items =>
    rw [hcode, Except.bind] at h
    cases happend : appendItems items s with
    | error e =>
      rw [happend] at h
      cases h
    | ok u =>
      rw [happend] at h
      rw [← Except.ok.inj h, State.setSymbols_ERR]
      exact append_ERR happend

/-- With room for its symbols ENCBLK appends their bits to the state that SYMB leads to. -/
theorem exists_encodedBlock {c : Component} {k : TableClass} {s : State} (hwf : s.Wf)
    (hcodable : ∀ w ∈ symbolize s.ZB (s.predOf c), Codable w) (hroom : s.OUTQ.length + 416 ≤ Config.outCap) :
    ∃ t, encodedBlock c k s = .ok t ∧ Appended (symbolized c s) t (streamBits k (symbolize s.ZB (s.predOf c))) := by
  obtain ⟨items, hcode, hbits⟩ := exists_codeFrom k hcodable
  have hroom' := room_of_code (symbolize_length _ _).2 hcode hroom
  obtain ⟨t, ht, hpacks⟩ := exists_packs (s := symbolized c s) (items := items) hwf.pending hroom'
  refine ⟨t, ?_, hbits ▸ appended_of_packs hwf.pending hpacks⟩
  rw [encodedBlock, hcode, ← ht]
  exact (appendItems_setSymbols items s _ c _).symm

/-- Settles O34: the two commands and the one end in one commit, from two states that differ in SYMB's registers. -/
theorem encblkIsSymbThenHuffInOneCommit : Obligations.EncblkIsSymbThenHuffInOneCommit := by
  refine fun c k s => ⟨fun hwf hcodable hroom => ?_, fun m t herr hsymb hhuff ht => ?_, fun m t herr hsymb hhuff ht => ?_⟩
  · obtain ⟨t, hblock, happended⟩ := exists_encodedBlock (k := k) hwf hcodable hroom
    refine ⟨_, t, exec_symb c s, ?_, ?_, encodedBlock_ERR hblock, happended⟩
    · rw [exec_encblk, hblock, conclude_ok]
    · rw [← symbolized, exec_huff_symbolized, hblock, conclude_ok]
  all_goals
    obtain rfl : symbolized c s = m := Host.Outcome.next.inj hsymb
    have herr' : (symbolized c s).ERR = false := herr
    rw [exec_huff_symbolized] at hhuff
    rw [exec_encblk]
  · rcases conclude_cases hhuff with hblock | ⟨e, -, rfl⟩
    · rw [hblock, conclude_ok]
    · rw [errorEntry_of_no_error herr'] at ht
      cases ht
  · rcases conclude_cases hhuff with hblock | ⟨e, hblock, rfl⟩
    · rw [encodedBlock_ERR hblock, herr] at ht
      cases ht
    · rw [hblock, conclude_error, errorEntry_of_no_error herr, errorEntry_of_no_error herr']
      rfl

/-! ### Unique decoding (R201) -/

theorem lookupCode_eq_some {rows : List CodeRow} {key : Nat} {c : CodeItem} (h : lookupCode rows key = some c) :
    ∃ r ∈ rows, r.key = key ∧ c = ⟨r.len, r.code⟩ := by
  obtain ⟨r, hfind, rfl⟩ := Option.map_eq_some_iff.mp h
  exact ⟨r, List.mem_of_find?_eq_some hfind, by simpa using List.find?_some hfind, rfl⟩

/-- In a table where no code begins another the bits say which key was coded, and what follows its code. -/
theorem eq_of_code_append_eq {rows : List CodeRow} (hrows : PrefixFree rows) {k k' : Nat} {c c' : CodeItem}
    (hc : lookupCode rows k = some c) (hc' : lookupCode rows k' = some c') {x x' : List Bool}
    (h : itemBits c ++ x = itemBits c' ++ x') : k = k' ∧ x = x' := by
  obtain ⟨r, hr, rfl, rfl⟩ := lookupCode_eq_some hc
  obtain ⟨r', hr', rfl, rfl⟩ := lookupCode_eq_some hc'
  obtain rfl : r = r' := by
    rcases List.prefix_or_prefix_of_prefix (List.prefix_append _ x) (h ▸ List.prefix_append _ x') with hpre | hpre
    · exact hrows r hr r' hr' hpre
    · exact (hrows r' hr' r hr hpre).symm
  exact ⟨rfl, List.append_cancel_left h⟩

/-- In one table, the bits of codable words say their keys, and what follows their codes. -/
theorem eq_of_symbolBits_append_eq {k : TableClass} {w w' : Word} (hcod : Codable w) (hcod' : Codable w')
    (hrows : codeRows k w = codeRows k w') (hfree : PrefixFree (codeRows k w)) {x x' : List Bool}
    (h : symbolBits k w ++ x = symbolBits k w' ++ x') : codeKey w = codeKey w' ∧ amplitudeBits w ++ x = amplitudeBits w' ++ x' := by
  obtain ⟨c, hc, hbits, -⟩ := exists_code k hcod
  obtain ⟨c', hc', hbits', -⟩ := exists_code k hcod'
  rw [hbits, hbits', List.append_assoc, List.append_assoc] at h
  exact eq_of_code_append_eq hfree hc (hrows ▸ hc') h

/-- The amplitude bits of one size, whatever follows, determine the value. -/
theorem eq_of_amplitude_append_eq {v v' : ℤ} (hcat : category v = category v') {x x' : List Bool}
    (h : itemBits ⟨category v, amp v (category v)⟩ ++ x = itemBits ⟨category v', amp v' (category v')⟩ ++ x') : v = v' ∧ x = x' := by
  obtain ⟨hbits, hrest⟩ := List.append_inj h (by simp [hcat])
  have hlt : ∀ y : ℤ, amp y (category y) < 2 ^ category y := fun y => by
    have hmod := Int.emod_lt_of_pos (if 0 ≤ y then y else y + 2 ^ category y - 1) (show (0 : ℤ) < 2 ^ category y by positivity)
    rw [← amp_cast] at hmod
    exact_mod_cast hmod
  rw [← hcat] at hbits
  exact ⟨eq_of_amp_eq hcat (hcat ▸ eq_of_itemBits_eq (hlt v) (by rw [hcat]; exact hlt v') hbits), hrest⟩

/-- What the coder reads of a codable word from the loop of `symbolize`: a key that is no multiple of 16 for an AC word, and for no other. -/
theorem codeKey_acSymbols {run : Nat} {l : List Half} {w : Word} (hw : w ∈ acSymbols run l) (hcod : Codable w) :
    (w = zrlWord ∨ w = eobWord) ∧ codeKey w % 16 = 0 ∧ amplitudeBits w = [] ∨
    ∃ r, ∃ z : Half, w = acWord r z.toInt ∧ codeKey w = 16 * r + category z.toInt ∧ 1 ≤ category z.toInt ∧ category z.toInt ≤ 10 ∧
      amplitudeBits w = itemBits ⟨category z.toInt, amp z.toInt (category z.toInt)⟩ := by
  rcases mem_acSymbols hw with rfl | rfl | ⟨r, z, hr, -, rfl⟩
  · exact .inl ⟨.inl rfl, by decide, rfl⟩
  · exact .inl ⟨.inr rfl, by decide, rfl⟩
  · have hsize := hcod.2 (symKind_acWord hr z)
    rw [symSize_acWord hr] at hsize
    refine .inr ⟨r, z, rfl, ?_, hsize.1, hsize.2, ?_⟩
    · rw [codeKey, symKind_acWord hr, symRun_acWord hr, symSize_acWord hr]
    · rw [amplitudeBits, symKind_acWord hr, symSize_acWord hr, symValue_acWord hr]

theorem codeRows_acSymbols (k : TableClass) {run : Nat} {l : List Half} {w : Word} (hw : w ∈ acSymbols run l) :
    codeRows k w = acRows k := by
  have hkind := (symFields_of_mem_acSymbols hw).1
  unfold codeRows
  cases hk : symKind w
  case dc => exact absurd hk hkind
  all_goals rfl

/-- The bits of a codable word that the loop of `symbolize` emits determine it, whatever follows. -/
theorem acWord_eq_of_bits {k : TableClass} {run run' : Nat} {l l' : List Half} {w w' : Word} (hw : w ∈ acSymbols run l)
    (hw' : w' ∈ acSymbols run' l') (hcod : Codable w) (hcod' : Codable w') {x x' : List Bool}
    (h : symbolBits k w ++ x = symbolBits k w' ++ x') : w = w' ∧ x = x' := by
  have hrows := codeRows_acSymbols k hw
  obtain ⟨hkey, hrest⟩ := eq_of_symbolBits_append_eq hcod hcod' (hrows.trans (codeRows_acSymbols k hw').symm)
    (hrows ▸ acRows_prefixFree k) h
  rcases codeKey_acSymbols hw hcod with ⟨hescape, hmod, hamp⟩ | ⟨r, z, rfl, hkz, hlo, hhi, hamp⟩ <;>
    rcases codeKey_acSymbols hw' hcod' with ⟨hescape', hmod', hamp'⟩ | ⟨r', z', rfl, hkz', hlo', hhi', hamp'⟩
  · rw [hamp, hamp'] at hrest
    have hne : codeKey zrlWord ≠ codeKey eobWord := by decide
    rcases hescape with rfl | rfl <;> rcases hescape' with rfl | rfl
    · exact ⟨rfl, hrest⟩
    · exact absurd hkey hne
    · exact absurd hkey.symm hne
    · exact ⟨rfl, hrest⟩
  · omega
  · omega
  · rw [hamp, hamp'] at hrest
    obtain ⟨hz, hx⟩ := eq_of_amplitude_append_eq (by omega) hrest
    have hcat := congrArg category hz
    obtain rfl : r = r' := by omega
    exact ⟨by rw [hz], hx⟩

/-- The words stand for `n` coefficients, and end there: by the last coefficient, or by an EOB. -/
def Completes : Nat → List Word → Prop
  | n, [] => n = 0
  | n, w :: ws =>
    n ≠ 0 ∧
      match symKind w with
      | .zrl => Completes (n - 16) ws
      | .ac => Completes (n - (symRun w + 1)) ws
      | .dc | .eob => ws = []

theorem completes_eobWord {n : Nat} (hn : n ≠ 0) : Completes n [eobWord] := by
  rw [Completes, symKind_eobWord]
  exact ⟨hn, rfl⟩

theorem completes_acWord {r : Nat} (hr : r < 16) (z : Half) {n : Nat} {ws : List Word} (h : Completes n ws) :
    Completes (r + 1 + n) (acWord r z.toInt :: ws) := by
  rw [Completes, symKind_acWord hr, symRun_acWord hr, Nat.add_sub_cancel_left]
  exact ⟨by omega, h⟩

theorem completes_replicate_zrlWord (k : Nat) {n : Nat} {ws : List Word} (h : Completes n ws) :
    Completes (16 * k + n) (List.replicate k zrlWord ++ ws) := by
  induction k with
  | zero => rwa [Nat.mul_zero, Nat.zero_add]
  | succ k ih =>
    have hstep : 16 * (k + 1) + n - 16 = 16 * k + n := by omega
    rw [List.replicate_succ, List.cons_append, Completes, symKind_zrlWord, hstep]
    exact ⟨by omega, ih⟩

theorem completes_acSymbols (run : Nat) (l : List Half) : Completes (run + l.length) (acSymbols run l) := by
  fun_induction acSymbols run l with
  | case1 run h => exact completes_eobWord h.ne'
  | case2 run h => exact Nat.eq_zero_of_not_pos h
  | case3 run zs ih => rwa [List.length_cons, Nat.add_comm zs.length, ← Nat.add_assoc]
  | case4 run z zs hz ih =>
    have hmod : run % 16 < 16 := Nat.mod_lt run (by decide)
    have hlen : run + (z :: zs).length = 16 * (run / 16) + (run % 16 + 1 + zs.length) := by
      rw [List.length_cons]
      omega
    rw [Nat.zero_add] at ih
    rw [hlen]
    exact completes_replicate_zrlWord _ (completes_acWord hmod z ih)

/-- Word lists that stand for equally many coefficients are equal when their bits begin one stream. -/
theorem eq_of_streamBits_append_eq {k : TableClass} {run run' : Nat} {l l' : List Half} {n : Nat} {ws ws' : List Word} {x x' : List Bool}
    (hmem : ∀ w ∈ ws, w ∈ acSymbols run l ∧ Codable w) (hmem' : ∀ w ∈ ws', w ∈ acSymbols run' l' ∧ Codable w)
    (hn : Completes n ws) (hn' : Completes n ws') (h : streamBits k ws ++ x = streamBits k ws' ++ x') : ws = ws' := by
  induction ws generalizing n ws' with
  | nil =>
    cases ws' with
    | nil => rfl
    | cons w' ws' => exact absurd hn hn'.1
  | cons w ws ih =>
    cases ws' with
    | nil => exact absurd hn' hn.1
    | cons w' ws' =>
      obtain ⟨⟨hw, hcod⟩, hws⟩ := List.forall_mem_cons.mp hmem
      obtain ⟨⟨hw', hcod'⟩, hws'⟩ := List.forall_mem_cons.mp hmem'
      rw [streamBits, streamBits, List.flatMap_cons, List.flatMap_cons, List.append_assoc, List.append_assoc] at h
      obtain ⟨rfl, hrest⟩ := acWord_eq_of_bits hw hw' hcod hcod' h
      rw [Completes] at hn hn'
      obtain ⟨-, hn⟩ := hn
      obtain ⟨-, hn'⟩ := hn'
      cases hk : symKind w <;> simp only [hk] at hn hn'
      case zrl => rw [ih hws hws' hn hn' hrest]
      case ac => rw [ih hws hws' hn hn' hrest]
      all_goals rw [hn, hn']

theorem codeKey_dcWord (y p : Half) : codeKey (dcWord (y.toInt - p.toInt)) = category (y.toInt - p.toInt) := by
  rw [codeKey, symKind_dcWord_diff, symSize_dcWord_diff]

theorem amplitudeBits_dcWord (y p : Half) :
    amplitudeBits (dcWord (y.toInt - p.toInt)) =
      itemBits ⟨category (y.toInt - p.toInt), amp (y.toInt - p.toInt) (category (y.toInt - p.toInt))⟩ := by
  rw [amplitudeBits, symKind_dcWord_diff, symSize_dcWord_diff, symValue_dcWord_diff]

/-- The bits of two codable DC words against one predictor, whatever follows, determine the coefficient. -/
theorem dc_eq_of_bits {k : TableClass} {y y' p : Half} (hcod : Codable (dcWord (y.toInt - p.toInt)))
    (hcod' : Codable (dcWord (y'.toInt - p.toInt))) {x x' : List Bool}
    (h : symbolBits k (dcWord (y.toInt - p.toInt)) ++ x = symbolBits k (dcWord (y'.toInt - p.toInt)) ++ x') : y = y' ∧ x = x' := by
  have hrows : ∀ z : Half, codeRows k (dcWord (z.toInt - p.toInt)) = dcRows k := fun z => by rw [codeRows, symKind_dcWord_diff]
  have hfree : PrefixFree (codeRows k (dcWord (y.toInt - p.toInt))) := by
    rw [hrows]
    exact dcRows_prefixFree k
  obtain ⟨hkey, hrest⟩ := eq_of_symbolBits_append_eq hcod hcod' ((hrows y).trans (hrows y').symm) hfree h
  rw [codeKey_dcWord, codeKey_dcWord] at hkey
  rw [amplitudeBits_dcWord, amplitudeBits_dcWord] at hrest
  obtain ⟨hdiff, hx⟩ := eq_of_amplitude_append_eq hkey hrest
  exact ⟨BitVec.eq_of_toInt_eq (by omega), hx⟩

/-- Settles O35: the stream gives the DC coefficient, then word after word of the rest, which determine the block. -/
theorem codedBlockIsUniquelyDecodable : Obligations.CodedBlockIsUniquelyDecodable := by
  intro k p z z' r r' hcod hcod' h
  rw [symbolize, List.forall_mem_cons] at hcod hcod'
  obtain ⟨hdc, hac⟩ := hcod
  obtain ⟨hdc', hac'⟩ := hcod'
  rw [symbolize, symbolize, streamBits, streamBits, List.flatMap_cons, List.flatMap_cons, List.append_assoc, List.append_assoc] at h
  obtain ⟨hhead, hrest⟩ := dc_eq_of_bits hdc hdc' h
  have hlen : z'.toList.tail.length = z.toList.tail.length := by simp
  have hcompl := completes_acSymbols 0 z'.toList.tail
  rw [hlen] at hcompl
  have hwords := eq_of_streamBits_append_eq (fun w hw => ⟨hw, hac w hw⟩) (fun w hw => ⟨hw, hac' w hw⟩)
    (completes_acSymbols 0 _) hcompl hrest
  exact symbolsDetermineTheBlock z z' p (by rw [symbolize, symbolize, hhead, hwords])

end Sys2Proof.Machine
end

section
/-! The transforms, `DCT_ARITH = REFERENCE`: FDCT (R122), IDCT (R124). -/

open Sys2Proof.Claims

namespace Sys2Proof.Machine

/-! ### FDCT and IDCT (R122, R124) -/

/-- Two nested loops of eight are one loop over 64 terms. -/
theorem foldl_range_eight {α β : Type} (op : α → β → α) (term : Nat → Nat → β) (a : α) :
    (List.range 8).foldl (fun acc i => (List.range 8).foldl (fun acc j => op acc (term i j)) acc) a =
      (List.range 64).foldl (fun acc n => op acc (term (n / 8) (n % 8))) a := rfl

theorem sum64_eq_sumInOrder (term : Nat → Nat → F64) : sum64 term = sumInOrder term := foldl_range_eight fadd term fzero

theorem fdctElem_eq (b : Block Word) (u v : Nat) :
    fdctElem b u v = fmul (fmul (fmul scF (alphaF u)) (alphaF v))
      (sumInOrder fun x y => fmul (fmul (elemF b y x) (cosF x u)) (cosF y v)) := by
  rw [fdctElem, sum64_eq_sumInOrder]

theorem idctElem_eq (b : Block Word) (x y : Nat) :
    idctElem b x y = fmul scF
      (sumInOrder fun u v => fmul (fmul (fmul (fmul (alphaF u) (alphaF v)) (elemF b v u)) (cosF x u)) (cosF y v)) := by
  rw [idctElem, sum64_eq_sumInOrder]

theorem exec_fdct (s : State) :
    exec .fdct s = .next ((s.setC (packBlock s.nanDraws (fdctElem s.S))).drawNaNs 64) := rfl

theorem exec_idct (s : State) :
    exec .idct s = .next ((s.setS (packBlock s.nanDraws (idctElem s.C))).drawNaNs 64) := rfl

theorem getElem_packBlock (n : Nat) (f : Nat → Nat → F64) (k : Nat) (hk : k < 64) :
    (packBlock n f)[k] = f64Pack (Config.freeNaN (n + k)) (f (k % 8) (k / 8)) := by
  rw [packBlock, getElem_tabulate]

/-- The element in row `i`, column `j` of a packed block. -/
theorem exists_getElem_packBlock (n : Nat) (f : Nat → Nat → F64) (i j : Fin 8) :
    ∃ free, (packBlock n f)[8 * i.val + j.val] = f64Pack free (f j i) := by
  have hcol : (8 * i.val + j.val) % 8 = j := by omega
  have hrow : (8 * i.val + j.val) / 8 = i := by omega
  exact ⟨_, by rw [getElem_packBlock, hcol, hrow]⟩

/-- Settles O10: the commit, element by element. -/
theorem fdctComputesTheForwardTransform : Obligations.FdctComputesTheForwardTransform := by
  refine fun s => ⟨_, exec_fdct s, rfl, fun u v => ?_⟩
  obtain ⟨free, hC⟩ := exists_getElem_packBlock s.nanDraws (fdctElem s.S) v u
  exact ⟨free, hC.trans (congrArg _ (fdctElem_eq s.S u v))⟩

/-- Settles O11: the commit, element by element. -/
theorem idctComputesTheInverseTransform : Obligations.IdctComputesTheInverseTransform := by
  refine fun s => ⟨_, exec_idct s, rfl, fun x y => ?_⟩
  obtain ⟨free, hS⟩ := exists_getElem_packBlock s.nanDraws (idctElem s.C) y x
  exact ⟨free, hS.trans (congrArg _ (idctElem_eq s.C x y))⟩

end Sys2Proof.Machine
end

section
/-! Patterns and data: packing and unpacking every pattern, and rounding half away from zero on the exact value (R13, R63, R126). -/

open Sys2Proof.Claims

namespace Sys2Proof.Machine

/-! ### Patterns (R63) -/

/-- A pattern is its three fields. -/
theorem toNat_eq_fields (w : Word) :
    w.toNat = signWeight (decide (w.toNat / 2 ^ 63 % 2 = 1)) + w.toNat / 2 ^ 52 % 2 ^ 11 * 2 ^ 52 + w.toNat % 2 ^ 52 := by
  have hw := w.isLt
  by_cases hsign : w.toNat / 2 ^ 63 % 2 = 1
  · rw [decide_eq_true hsign, signWeight, if_pos rfl]
    omega
  · rw [decide_eq_false hsign, signWeight, if_neg Bool.false_ne_true]
    omega

/-- Every pattern is a NaN, an infinity or a canonical finite datum, and its fields are those of the datum. -/
theorem f64Unpack_cases (w : Word) :
    f64Unpack w = .nan ∨
    (∃ neg, f64Unpack w = .inf neg ∧ w.toNat = signWeight neg + 2047 * 2 ^ 52) ∨
    ∃ neg m e, f64Unpack w = .num neg m e ∧ Canonical m e ∧ w.toNat = signWeight neg + e * 2 ^ 52 + m := by
  have hfields := toNat_eq_fields w
  unfold f64Unpack
  generalize decide (w.toNat / 2 ^ 63 % 2 = 1) = neg at *
  have hexpo : w.toNat / 2 ^ 52 % 2 ^ 11 < 2 ^ 11 := Nat.mod_lt _ (by decide)
  have hfrac : w.toNat % 2 ^ 52 < 2 ^ 52 := Nat.mod_lt _ (by decide)
  generalize w.toNat / 2 ^ 52 % 2 ^ 11 = expo at *
  generalize w.toNat % 2 ^ 52 = frac at *
  by_cases hspecial : expo = 2047
  · by_cases hinf : frac = 0
    · exact .inr (.inl ⟨neg, by simp [hspecial, hinf], by omega⟩)
    · exact .inl (by simp [hspecial, hinf])
  · refine .inr (.inr ?_)
    by_cases hsub : expo = 0
    · refine ⟨neg, frac, 0, by rw [if_neg hspecial, if_pos hsub], ⟨hfrac.trans (by decide), by decide, .inr rfl⟩, ?_⟩
      rw [hfields, hsub]
    · obtain ⟨e, rfl⟩ := Nat.exists_eq_succ_of_ne_zero hsub
      have he : e ≤ 2045 := by omega
      refine ⟨neg, 2 ^ 52 + frac, e, by rw [if_neg hspecial, if_neg hsub, Nat.succ_sub_one],
        ⟨Nat.add_lt_add_left hfrac _, he, .inl (Nat.le_add_right _ _)⟩, ?_⟩
      rw [hfields, Nat.succ_mul, Nat.add_assoc, Nat.add_assoc, Nat.add_assoc]

theorem canonical_of_f64Unpack {w : Word} {neg : Bool} {m e : Nat} (h : f64Unpack w = .num neg m e) : Canonical m e := by
  rcases f64Unpack_cases w with hnan | ⟨s, hinf, -⟩ | ⟨s, n, f, hnum, hcanon, -⟩
  · cases hnan.symm.trans h
  · cases hinf.symm.trans h
  · obtain ⟨-, rfl, rfl⟩ := F64.num.inj (hnum.symm.trans h)
    exact hcanon

/-- Packing undoes unpacking, but for a NaN. -/
theorem f64Pack_f64Unpack {w : Word} (free : BitVec 53) (h : f64Unpack w ≠ .nan) : f64Pack free (f64Unpack w) = w := by
  refine BitVec.eq_of_toNat_eq ?_
  rcases f64Unpack_cases w with hnan | ⟨s, hinf, hw⟩ | ⟨s, n, f, hnum, ⟨hn, hf, -⟩, hw⟩
  · exact absurd hnan h
  · rw [hinf, hw, f64Pack, BitVec.toNat_ofNat, ← hw, Nat.mod_eq_of_lt w.isLt]
  · rw [hnum, hw, f64Pack_num_toNat hn hf]

theorem f64Unpack_f64Pack_inf (free : BitVec 53) (neg : Bool) : f64Unpack (f64Pack free (.inf neg)) = .inf neg := by
  rw [f64Pack]
  cases neg <;> decide

/-- Every NaN encoding unpacks to a NaN (R126). -/
theorem f64Unpack_f64Pack_nan (free : BitVec 53) : f64Unpack (f64Pack free .nan) = .nan := by
  obtain ⟨frac, hpos, hlt, hpattern⟩ : ∃ frac, 0 < frac ∧ frac < 2 ^ 52 ∧
      nanPattern free = BitVec.ofNat 64 (signWeight (free.getLsbD 52) + 2047 * 2 ^ 52 + frac) := by
    refine ⟨_, ?_, ?_, rfl⟩ <;> split <;> omega
  have hsign : signWeight (free.getLsbD 52) = 0 ∨ signWeight (free.getLsbD 52) = 2 ^ 63 := by
    cases free.getLsbD 52
    · exact .inl rfl
    · exact .inr rfl
  have hnat : (nanPattern free).toNat = signWeight (free.getLsbD 52) + 2047 * 2 ^ 52 + frac := by
    rw [hpattern, BitVec.toNat_ofNat]
    omega
  have hexpo : (nanPattern free).toNat / 2 ^ 52 % 2 ^ 11 = 2047 := by omega
  have hfrac : (nanPattern free).toNat % 2 ^ 52 ≠ 0 := by omega
  rw [f64Pack, f64Unpack]
  simp only [hexpo, if_true, if_neg hfrac]

/-! ### Rounding half away from zero (R13) -/

theorem magnitude_of_le {m e : Nat} (h : 1074 ≤ e) : magnitude m e = ((m <<< (e - 1074) : ℕ) : ℚ) := by
  have hexp : (e : ℤ) - 1074 = ((e - 1074 : ℕ) : ℤ) := by omega
  rw [magnitude, hexp, zpow_natCast, Nat.shiftLeft_eq]
  push_cast
  rfl

theorem magnitude_of_ge {m e : Nat} (h : e ≤ 1074) : magnitude m e = (m : ℚ) / 2 ^ (1074 - e) := by
  have hexp : (e : ℤ) - 1074 = -((1074 - e : ℕ) : ℤ) := by omega
  rw [magnitude, hexp, zpow_neg, zpow_natCast, div_eq_mul_inv]

theorem floor_div_add_half (m k : Nat) :
    ⌊(m : ℚ) / 2 ^ k + 1 / 2⌋ = (((2 * m + 2 ^ k) / 2 ^ (k + 1) : ℕ) : ℤ) := by
  have hsum : (m : ℚ) / 2 ^ k + 1 / 2 = ((2 * m + 2 ^ k : ℕ) : ℚ) / ((2 ^ (k + 1) : ℕ) : ℚ) := by
    push_cast
    rw [pow_succ]
    field_simp
  rw [hsum, Rat.floor_natCast_div_natCast]
  rfl

theorem rha_num (neg : Bool) (m e : Nat) :
    rha (.num neg m e) = some ((if neg then -1 else 1) * ⌊magnitude m e + 1 / 2⌋) := by
  have hsign : ∀ r : ℤ, (if neg then -r else r) = (if neg then -1 else 1) * r := fun r => by cases neg <;> simp
  rw [rha, hsign]
  by_cases he : 1074 ≤ e
  · have hfloor : ⌊magnitude m e + 1 / 2⌋ = ((m <<< (e - 1074) : ℕ) : ℤ) := by
      have hhalf : ⌊(1 / 2 : ℚ)⌋ = 0 := by norm_num
      rw [magnitude_of_le he, Int.floor_natCast_add, hhalf, add_zero]
    rw [if_pos he, hfloor]
  · have hk : 1075 - e = 1074 - e + 1 := by omega
    rw [if_neg he, magnitude_of_ge (by omega), floor_div_add_half, hk]

/-- Settles O14: the fields of a pattern, the exact `i2f`, and the floor of the exact value. -/
theorem conversionsAreExact : Obligations.ConversionsAreExact :=
  ⟨fun _ free h => f64Pack_f64Unpack free h, fun _ _ _ _ h => canonical_of_f64Unpack h, f64Unpack_f64Pack_nan, i2f_exact,
    fun neg m e _ => rha_num neg m e, rfl, fun _ => rfl⟩

end Sys2Proof.Machine
end

section
/-! Binary64 arithmetic: `f64Round` is round to nearest, ties to even, of the exact value; `fmul`, `fadd` and `fdiv` (R13, R126, R127). -/

open Sys2Proof.Claims

namespace Sys2Proof.Machine

/-! ### Units in the last place and signs -/

/-- The unit of a datum of exponent `e`. -/
def ulp (e : Nat) : ℚ := (2 : ℚ) ^ ((e : ℤ) - 1074)

theorem ulp_pos (e : Nat) : 0 < ulp e := by
  unfold ulp
  positivity

theorem magnitude_eq (m e : Nat) : magnitude m e = m * ulp e := rfl

theorem ulp_add (e k : Nat) : ulp (e + k) = 2 ^ k * ulp e := by
  rw [ulp, ulp, ← zpow_natCast, ← zpow_add₀ two_ne_zero]
  congr 1
  push_cast
  ring

/-- The factor of a sign bit. -/
def signOf (neg : Bool) : ℚ := if neg then -1 else 1

theorem value_eq (neg : Bool) (m e : Nat) : value neg m e = signOf neg * magnitude m e := by
  cases neg <;> simp [value, signOf]

theorem signOf_mul_signOf (s t : Bool) : signOf s * signOf t = signOf (s != t) := by
  cases s <;> cases t <;> simp [signOf]

theorem signOf_mul_self (s : Bool) : signOf s * signOf s = 1 := by
  cases s <;> simp [signOf]

theorem abs_signOf (s : Bool) : |signOf s| = 1 := by
  cases s <;> simp [signOf]

theorem abs_signOf_mul_sub (s : Bool) (y v : ℚ) : |signOf s * y - v| = |y - signOf s * v| := by
  have hfactor : signOf s * y - v = signOf s * (y - signOf s * v) := by
    rw [mul_sub, ← mul_assoc, signOf_mul_self, one_mul]
  rw [hfactor, abs_mul, abs_signOf, one_mul]

theorem magnitude_nonneg (m e : Nat) : 0 ≤ magnitude m e := by
  rw [magnitude_eq]
  have := ulp_pos e
  positivity

theorem abs_value (neg : Bool) (m e : Nat) : |value neg m e| = magnitude m e := by
  rw [value_eq, abs_mul, abs_signOf, one_mul, abs_of_nonneg (magnitude_nonneg m e)]

/-! ### The nearest integer of units is the nearest datum (R13) -/

/-- `r` is the integer nearest to `z`, the even one of two. -/
def NearestEven (z : ℚ) (r : Nat) : Prop := |z - r| ≤ 1 / 2 ∧ (|z - r| = 1 / 2 → r % 2 = 0)

/-- `z` units of exponent `q` lie where the data of that exponent do. -/
def InBinade (z : ℚ) (q : Nat) : Prop := 0 < z ∧ z < 2 ^ 53 ∧ (q = 0 ∨ 2 ^ 52 ≤ z)

/-- The datum of `r` units of exponent `q`, with the carry out of 53 bits and the overflow (R13). -/
def datumOf (neg : Bool) (r q : Nat) : F64 :=
  let r' := if r = 2 ^ 53 then 2 ^ 52 else r
  let q' := if r = 2 ^ 53 then q + 1 else q
  if q' > 2045 then .inf neg else .num neg r' q'

section
variable {z : ℚ} {q r : Nat}

/-- A datum that is not `r` units is half a unit or more away. -/
theorem half_ulp_le (hr : NearestEven z r) (hz : InBinade z q) {m e : Nat} (hm : Canonical m e) {w : ℚ} (hw : |w| = magnitude m e)
    (hne : w ≠ r * ulp q) : 1 / 2 * ulp q ≤ |z * ulp q - w| := by
  have hu := ulp_pos q
  rcases le_or_gt q e with hqe | hqe
  · obtain ⟨k, rfl⟩ := Nat.exists_eq_add_of_le hqe
    obtain ⟨j, hj⟩ : ∃ j : ℤ, w = j * ulp q := by
      rw [magnitude_eq, ulp_add] at hw
      rcases abs_cases w with ⟨habs, -⟩ | ⟨habs, -⟩
      · exact ⟨m * 2 ^ k, by push_cast; linarith⟩
      · exact ⟨-(m * 2 ^ k), by push_cast; linarith⟩
    have hjr : j ≠ r := by
      rintro rfl
      exact hne (by exact_mod_cast hj)
    have hapart : (1 : ℚ) ≤ |(j : ℚ) - r| := by
      have hint : 1 ≤ |j - r| := Int.one_le_abs (sub_ne_zero.mpr hjr)
      exact_mod_cast hint
    have htri : |(j : ℚ) - r| ≤ |z - j| + |z - r| := by
      rw [abs_sub_comm z j]
      exact abs_sub_le _ _ _
    rw [hj, ← sub_mul, abs_mul, abs_of_pos hu]
    exact mul_le_mul_of_nonneg_right (by linarith [hr.1]) hu.le
  · have hlow : 2 ^ 52 ≤ z := hz.2.2.resolve_left (by omega)
    have hhalf : ulp e ≤ 1 / 2 * ulp q := by
      obtain ⟨k, rfl⟩ := Nat.exists_eq_add_of_lt hqe
      rw [Nat.add_assoc, ulp_add, pow_succ]
      have hpow : (1 : ℚ) ≤ 2 ^ k := one_le_pow₀ one_le_two
      nlinarith [ulp_pos e]
    have hmax : (m : ℚ) ≤ 2 ^ 53 - 1 := by
      have hle : (m : ℚ) + 1 ≤ 2 ^ 53 := by exact_mod_cast hm.1
      linarith
    have hbound : w ≤ (2 ^ 52 - 1 / 2) * ulp q := by
      calc w ≤ m * ulp e := (le_abs_self w).trans_eq hw
        _ ≤ (2 ^ 53 - 1) * (1 / 2 * ulp q) := mul_le_mul hmax hhalf (ulp_pos e).le (by norm_num)
        _ = (2 ^ 52 - 1 / 2) * ulp q := by ring
    calc 1 / 2 * ulp q = 2 ^ 52 * ulp q - (2 ^ 52 - 1 / 2) * ulp q := by ring
      _ ≤ z * ulp q - w := sub_le_sub (mul_le_mul_of_nonneg_right hlow hu.le) hbound
      _ ≤ |z * ulp q - w| := le_abs_self _

/-- The carry out of 53 bits leaves the magnitude as it is. -/
theorem carry_magnitude (r q : Nat) :
    magnitude (if r = 2 ^ 53 then 2 ^ 52 else r) (if r = 2 ^ 53 then q + 1 else q) = r * ulp q := by
  by_cases hr : r = 2 ^ 53
  · rw [if_pos hr, if_pos hr, magnitude_eq, ulp_add, hr]
    push_cast
    ring
  · rw [if_neg hr, if_neg hr, magnitude_eq]

theorem le_two_pow_of_nearest (hr : NearestEven z r) (hz : InBinade z q) : r ≤ 2 ^ 53 := by
  by_contra hgt
  have hge : (2 : ℚ) ^ 53 + 1 ≤ r := by exact_mod_cast not_le.mp hgt
  linarith [(abs_le.mp hr.1).1, hz.2.1]

theorem two_pow_le_of_nearest (hr : NearestEven z r) (hlow : 2 ^ 52 ≤ z) : 2 ^ 52 ≤ r := by
  by_contra hlt
  have hle : (r : ℚ) + 1 ≤ 2 ^ 52 := by exact_mod_cast not_le.mp hlt
  linarith [(abs_le.mp hr.1).2]

/-- The datum is canonical unless it overflows. -/
theorem carry_canonical (hr : NearestEven z r) (hz : InBinade z q) (hq : ¬ (if r = 2 ^ 53 then q + 1 else q) > 2045) :
    Canonical (if r = 2 ^ 53 then 2 ^ 52 else r) (if r = 2 ^ 53 then q + 1 else q) := by
  have hle := le_two_pow_of_nearest hr hz
  refine ⟨?_, not_lt.mp hq, ?_⟩
  · split <;> omega
  · rcases hz.2.2 with h0 | hlow
    · split
      · exact .inl le_rfl
      · exact .inr h0
    · have hge := two_pow_le_of_nearest hr hlow
      split
      · exact .inl le_rfl
      · exact .inl hge

theorem overflowBound_eq : overflowBound = (2 ^ 53 - 1 / 2) * ulp 2045 := by
  have hulp : ulp 2045 = 2 * 2 ^ 970 := by
    rw [← pow_succ']
    norm_num [ulp]
  rw [overflowBound, hulp]
  generalize (2 : ℚ) ^ 970 = p
  ring

theorem ulp_mono {e f : Nat} (h : e ≤ f) : ulp e ≤ ulp f := by
  unfold ulp
  gcongr
  norm_num

/-- Below the overflow the value is below its bound: the midpoint itself would round up to the even 2^53. -/
theorem lt_overflowBound (hr : NearestEven z r) (hz : InBinade z q) (hq : ¬ (if r = 2 ^ 53 then q + 1 else q) > 2045) :
    z * ulp q < overflowBound := by
  have hu := ulp_pos q
  have hle := le_two_pow_of_nearest hr hz
  rw [overflowBound_eq]
  rcases lt_or_ge q 2045 with hlt | hge
  · calc z * ulp q < 2 ^ 53 * ulp q := mul_lt_mul_of_pos_right hz.2.1 hu
      _ ≤ (2 ^ 53 - 1 / 2) * (2 * ulp q) := by linarith
      _ = (2 ^ 53 - 1 / 2) * ulp (q + 1) := by rw [ulp_add, pow_one]
      _ ≤ (2 ^ 53 - 1 / 2) * ulp 2045 := mul_le_mul_of_nonneg_left (ulp_mono hlt) (by norm_num)
  · have hne : r ≠ 2 ^ 53 := fun h => hq (by rw [if_pos h]; omega)
    obtain rfl : q = 2045 := by
      rw [if_neg hne] at hq
      omega
    have hr1 : (r : ℚ) ≤ 2 ^ 53 - 1 := by
      have hlt : (r : ℚ) + 1 ≤ 2 ^ 53 := by exact_mod_cast lt_of_le_of_ne hle hne
      linarith
    have hup := (abs_le.mp hr.1).2
    refine mul_lt_mul_of_pos_right (lt_of_le_of_ne (by linarith) fun heq => ?_) hu
    have hr2 : (r : ℚ) = 2 ^ 53 - 1 := by linarith
    have hodd : r = 2 ^ 53 - 1 := by
      have hsucc : (r : ℚ) + 1 = 2 ^ 53 := by linarith
      have : r + 1 = 2 ^ 53 := by exact_mod_cast hsucc
      omega
    have heven := hr.2 (by rw [heq, hr2]; norm_num)
    omega

/-- Past the overflow the value is at its bound or above. -/
theorem overflowBound_le (hr : NearestEven z r) (hz : InBinade z q) (hq : (if r = 2 ^ 53 then q + 1 else q) > 2045) :
    overflowBound ≤ z * ulp q := by
  rw [overflowBound_eq]
  have hu := ulp_pos q
  rcases lt_or_ge 2045 q with hgt | hle
  · have hlow : 2 ^ 52 ≤ z := hz.2.2.resolve_left (by omega)
    calc (2 ^ 53 - 1 / 2) * ulp 2045 ≤ 2 ^ 52 * (2 * ulp 2045) := by linarith [ulp_pos 2045]
      _ = 2 ^ 52 * ulp (2045 + 1) := by rw [ulp_add, pow_one]
      _ ≤ 2 ^ 52 * ulp q := mul_le_mul_of_nonneg_left (ulp_mono hgt) (by norm_num)
      _ ≤ z * ulp q := mul_le_mul_of_nonneg_right hlow hu.le
  · have hr53 : r = 2 ^ 53 := by
      by_contra hne
      rw [if_neg hne] at hq
      omega
    obtain rfl : q = 2045 := by
      rw [if_pos hr53] at hq
      omega
    have hlow := (abs_le.mp hr.1).1
    rw [hr53] at hlow
    push_cast at hlow
    exact mul_le_mul_of_nonneg_right (by linarith) hu.le

theorem signOf_mul_neg_iff (neg : Bool) {y : ℚ} (hy : 0 < y) : neg = true ↔ signOf neg * y < 0 := by
  cases neg
  · simp [signOf, hy.le]
  · simp [signOf, hy]

/-- The nearest integer of units is the correctly rounded datum, of either sign. -/
theorem isRN_datumOf (neg : Bool) (hr : NearestEven z r) (hz : InBinade z q) :
    IsRN (signOf neg * (z * ulp q)) (datumOf neg r q) := by
  have hu := ulp_pos q
  have hpos : 0 < z * ulp q := mul_pos hz.1 hu
  have habs : |signOf neg * (z * ulp q)| = z * ulp q := by rw [abs_mul, abs_signOf, one_mul, abs_of_pos hpos]
  have hsign := signOf_mul_neg_iff neg hpos
  unfold datumOf
  by_cases hq : (if r = 2 ^ 53 then q + 1 else q) > 2045
  · rw [if_pos hq, IsRN, habs]
    exact ⟨overflowBound_le hr hz hq, hsign⟩
  · rw [if_neg hq, IsRN, habs]
    refine ⟨carry_canonical hr hz hq, lt_overflowBound hr hz hq, fun _ => hsign, fun neg' m' e' hm' => ?_⟩
    have hself : |signOf neg * (z * ulp q) - value neg (if r = 2 ^ 53 then 2 ^ 52 else r) (if r = 2 ^ 53 then q + 1 else q)| =
        |z - r| * ulp q := by
      rw [abs_signOf_mul_sub, value_eq, ← mul_assoc, signOf_mul_self, one_mul, carry_magnitude, ← sub_mul, abs_mul, abs_of_pos hu]
    have hw : |signOf neg * value neg' m' e'| = magnitude m' e' := by rw [abs_mul, abs_signOf, one_mul, abs_value]
    rw [hself, abs_signOf_mul_sub neg _ (value neg' m' e')]
    by_cases hsame : signOf neg * value neg' m' e' = r * ulp q
    · have hvalue : value neg (if r = 2 ^ 53 then 2 ^ 52 else r) (if r = 2 ^ 53 then q + 1 else q) = value neg' m' e' := by
        rw [value_eq, carry_magnitude, ← hsame, ← mul_assoc, signOf_mul_self, one_mul]
      rw [hsame, ← sub_mul, abs_mul, abs_of_pos hu]
      exact ⟨le_rfl, fun _ hne => absurd hvalue hne⟩
    · have hfar := half_ulp_le hr hz hm' hw hsame
      have hnear := mul_le_mul_of_nonneg_right hr.1 hu.le
      refine ⟨hnear.trans hfar, fun heq _ => ?_⟩
      have htie : |z - r| = 1 / 2 := le_antisymm hr.1 (le_of_mul_le_mul_right (heq ▸ hfar) hu)
      have heven := hr.2 htie
      split
      · rfl
      · exact heven

end

/-! ### `f64Round` (R13) -/

/-- `m` stands for the exact `ρ` when `k` bits are shifted out: they compare alike with every multiple of half a unit. -/
def SameOrder (k m : Nat) (ρ : ℚ) : Prop := ∀ c : Nat, 2 ^ (k - 1) ∣ c → (ρ < c ↔ m < c) ∧ ((c : ℚ) < ρ ↔ c < m)

theorem sameOrder_self (k m : Nat) : SameOrder k m m := fun _ _ => ⟨Nat.cast_lt, Nat.cast_lt⟩

/-- An odd `m` stands for all that lies strictly between its even neighbours: the sticky bit. -/
theorem sameOrder_of_odd {k m : Nat} {ρ : ℚ} (hk : 2 ≤ k) (hodd : m % 2 = 1) (hlo : (m : ℚ) - 1 < ρ) (hhi : ρ < m + 1) :
    SameOrder k m ρ := by
  intro c hc
  have heven : 2 ∣ c := (dvd_pow_self 2 (by omega)).trans hc
  refine ⟨⟨fun h => ?_, fun h => ?_⟩, ⟨fun h => ?_, fun h => ?_⟩⟩
  · have hlt : (m : ℚ) < c + 1 := by linarith
    have : m < c + 1 := by exact_mod_cast hlt
    omega
  · exact hhi.trans_le (by exact_mod_cast h)
  · have hlt : (c : ℚ) < m + 1 := by linarith
    have : c < m + 1 := by exact_mod_cast hlt
    omega
  · have hle : (c : ℚ) + 1 ≤ m := by exact_mod_cast h
    linarith

/-- Comparison with halves of a unit of `2^(j + 1)`. -/
theorem SameOrder.halves {j m : Nat} {ρ : ℚ} (h : SameOrder (j + 1) m ρ) (a : Nat) :
    (ρ / 2 ^ (j + 1) < a / 2 ↔ m < a * 2 ^ j) ∧ ((a : ℚ) / 2 < ρ / 2 ^ (j + 1) ↔ a * 2 ^ j < m) := by
  obtain ⟨hlt, hgt⟩ := h (a * 2 ^ j) (Nat.dvd_mul_left _ _)
  have hpos : (0 : ℚ) < 2 ^ (j + 1) := by positivity
  have hhalf : (a : ℚ) / 2 = ((a * 2 ^ j : ℕ) : ℚ) / 2 ^ (j + 1) := by
    push_cast
    rw [pow_succ]
    field_simp
  rw [hhalf, div_lt_div_iff_of_pos_right hpos, div_lt_div_iff_of_pos_right hpos]
  exact ⟨hlt, hgt⟩

/-- Between `t` and `t + 1`, on the side of the midpoint that the integer part of `2 z` tells, or on it. -/
theorem nearestEven_of_halves {z : ℚ} {t : Nat} :
    ((t : ℚ) ≤ z → z < t + 1 / 2 → NearestEven z t) ∧ ((t : ℚ) + 1 / 2 < z → z < t + 1 → NearestEven z (t + 1)) ∧
      (z = t + 1 / 2 → t % 2 = 0 → NearestEven z t) ∧ (z = t + 1 / 2 → t % 2 = 1 → NearestEven z (t + 1)) := by
  unfold NearestEven
  push_cast
  refine ⟨fun hlo hhi => ?_, fun hlo hhi => ?_, fun hz heven => ?_, fun hz hodd => ?_⟩
  · have habs : |z - t| < 1 / 2 := abs_lt.mpr ⟨by linarith, by linarith⟩
    exact ⟨habs.le, fun h => absurd h habs.ne⟩
  · have habs : |z - (t + 1)| < 1 / 2 := abs_lt.mpr ⟨by linarith, by linarith⟩
    exact ⟨habs.le, fun h => absurd h habs.ne⟩
  · exact ⟨abs_le.mpr ⟨by linarith, by linarith⟩, fun _ => heven⟩
  · exact ⟨abs_le.mpr ⟨by linarith, by linarith⟩, fun _ => by omega⟩

/-- Shifting out bits with ties to even gives the nearest integer of the exact value. -/
theorem nearestEven_roundShift {j m : Nat} {ρ : ℚ} (h : SameOrder (j + 1) m ρ) :
    NearestEven (ρ / 2 ^ (j + 1)) (roundShift m (j + 1)) := by
  have hm := Nat.div_add_mod' m (2 ^ (j + 1))
  have hf := Nat.mod_lt m (show 0 < 2 ^ (j + 1) by positivity)
  have hpow := pow_succ 2 j
  unfold roundShift
  rw [Nat.shiftRight_eq_div_pow]
  generalize m / 2 ^ (j + 1) = t at *
  generalize m % 2 ^ (j + 1) = f at *
  obtain ⟨hbelow, habove⟩ := h.halves (2 * t + 1)
  obtain ⟨hlow, -⟩ := h.halves (2 * t)
  obtain ⟨hhigh, -⟩ := h.halves (2 * t + 2)
  obtain ⟨hdown, hup, heven, hodd⟩ := nearestEven_of_halves (z := ρ / 2 ^ (j + 1)) (t := t)
  generalize ρ / 2 ^ (j + 1) = z at *
  have hmid : (2 * t + 1) * 2 ^ j = t * 2 ^ (j + 1) + 2 ^ j := by rw [hpow]; ring
  have hfloor : 2 * t * 2 ^ j = t * 2 ^ (j + 1) := by rw [hpow]; ring
  have hceil : (2 * t + 2) * 2 ^ j = t * 2 ^ (j + 1) + 2 ^ (j + 1) := by rw [hpow]; ring
  rw [hmid] at hbelow habove
  rw [hfloor] at hlow
  rw [hceil] at hhigh
  have htz : (t : ℚ) ≤ z := by
    have hle := not_lt.mp (mt hlow.mp (by omega))
    push_cast at hle
    linarith
  have hzt : z < t + 1 := by
    have hlt := hhigh.mpr (by omega)
    push_cast at hlt
    linarith
  push_cast at hbelow habove
  rcases lt_trichotomy f (2 ^ j) with hless | heq | hmore
  · rw [if_neg (by omega)]
    exact hdown htz (by linarith [hbelow.mpr (by omega)])
  · have hz : z = t + 1 / 2 := by
      have hge := not_lt.mp (mt hbelow.mp (by omega))
      have hle := not_lt.mp (mt habove.mp (by omega))
      linarith
    rcases Nat.mod_two_eq_zero_or_one t with ht | ht
    · rw [if_neg (by omega)]
      exact heven hz ht
    · rw [if_pos (by omega)]
      exact hodd hz ht
  · rw [if_pos (by omega)]
    exact hup (by linarith [habove.mpr (by omega)]) hzt

/-- The exponent of the last place of the result: that of 53 bits, or of the subnormals. -/
def exponentOf (m : Nat) (x : Int) : Nat := (Nat.log2 m + x - 52).toNat

theorem f64Round_zero (neg : Bool) (x : Int) : f64Round neg 0 x = .num neg 0 0 := rfl

/-- `f64Round` as the datum of a count of units. -/
theorem f64Round_eq (neg : Bool) {m : Nat} (hm : m ≠ 0) (x : Int) :
    f64Round neg m x = datumOf neg
      (if (exponentOf m x : Int) ≤ x then m <<< (x - exponentOf m x).toNat else roundShift m (exponentOf m x - x).toNat)
      (exponentOf m x) := by
  rw [f64Round, if_neg hm]
  rfl

theorem f64Round_of_le {m d : Nat} {x : Int} (neg : Bool) (hm : m ≠ 0) (hx : x = exponentOf m x + d) :
    f64Round neg m x = datumOf neg (m <<< d) (exponentOf m x) := by
  have hd : (x - exponentOf m x).toNat = d := by omega
  rw [f64Round_eq neg hm, if_pos (by omega), hd]

theorem f64Round_of_gt {m k : Nat} {x : Int} (neg : Bool) (hm : m ≠ 0) (hk : 0 < k) (hx : exponentOf m x = x + k) :
    f64Round neg m x = datumOf neg (roundShift m k) (exponentOf m x) := by
  have hd : (exponentOf m x - x).toNat = k := by omega
  rw [f64Round_eq neg hm, if_neg (by omega), hd]

/-- The leading bit's place after a shift to the left. -/
theorem inBinade_shiftLeft {m d : Nat} {x : Int} (hm : m ≠ 0) (hx : x = exponentOf m x + d) :
    InBinade ((m <<< d : ℕ) : ℚ) (exponentOf m x) := by
  have hlog : Nat.log2 m + d ≤ 52 ∧ (exponentOf m x = 0 ∨ Nat.log2 m + d = 52) := by
    unfold exponentOf at *
    omega
  have hlt : m <<< d < 2 ^ 53 := by
    rw [Nat.shiftLeft_eq]
    calc m * 2 ^ d < 2 ^ (Nat.log2 m + 1) * 2 ^ d := Nat.mul_lt_mul_of_pos_right Nat.lt_log2_self (by positivity)
      _ = 2 ^ (Nat.log2 m + 1 + d) := (pow_add _ _ _).symm
      _ ≤ 2 ^ 53 := Nat.pow_le_pow_right two_pos (by omega)
  have hpos : 0 < m <<< d := by
    rw [Nat.shiftLeft_eq]
    have := Nat.pos_of_ne_zero hm
    positivity
  refine ⟨by exact_mod_cast hpos, by exact_mod_cast hlt, hlog.2.imp_right fun h52 => ?_⟩
  have hge : 2 ^ 52 ≤ m <<< d := by
    rw [Nat.shiftLeft_eq, ← h52, pow_add]
    exact Nat.mul_le_mul_right _ (Nat.log2_self_le hm)
  exact_mod_cast hge

/-- The leading bit's place after a shift to the right. -/
theorem inBinade_div {m j : Nat} {x : Int} {ρ : ℚ} (hm : m ≠ 0) (hx : exponentOf m x = x + (j + 1 : ℕ)) (h : SameOrder (j + 1) m ρ) :
    InBinade (ρ / 2 ^ (j + 1)) (exponentOf m x) := by
  have hlog : Nat.log2 m ≤ 53 + j ∧ (exponentOf m x = 0 ∨ Nat.log2 m = 53 + j) := by
    unfold exponentOf at *
    omega
  have hlt : m < 2 ^ 54 * 2 ^ j := by
    rw [← pow_add]
    exact Nat.lt_log2_self.trans_le (Nat.pow_le_pow_right two_pos (by omega))
  have hzero := (h.halves 0).2.mpr (by rw [Nat.zero_mul]; exact Nat.pos_of_ne_zero hm)
  have hhigh := (h.halves (2 ^ 54)).1.mpr hlt
  push_cast at hzero hhigh
  refine ⟨by linarith, by linarith, hlog.2.imp_right fun h53 => ?_⟩
  have hge : 2 ^ 53 * 2 ^ j ≤ m := by
    rw [← pow_add, ← h53]
    exact Nat.log2_self_le hm
  have hlow := not_lt.mp (mt (h.halves (2 ^ 53)).1.mp (not_lt.mpr hge))
  push_cast at hlow
  linarith

/-- `f64Round` rounds the exact value that `m` stands for (R13). -/
theorem isRN_f64Round (neg : Bool) {m : Nat} {x : Int} {ρ : ℚ} (hm : m ≠ 0) (h : SameOrder (exponentOf m x - x).toNat m ρ) :
    IsRN (signOf neg * (ρ * 2 ^ (x - 1074))) (f64Round neg m x) := by
  rcases le_or_gt (exponentOf m x : Int) x with hle | hgt
  · obtain ⟨d, hd⟩ : ∃ d : Nat, x = exponentOf m x + d := ⟨(x - exponentOf m x).toNat, by omega⟩
    have hρ : ρ = m := by
      obtain ⟨hlt, hgt⟩ := h m (by rw [show (exponentOf m x - x).toNat - 1 = 0 by omega, pow_zero]; exact one_dvd m)
      exact le_antisymm (not_lt.mp (mt hgt.mp (lt_irrefl m))) (not_lt.mp (mt hlt.mp (lt_irrefl m)))
    have hz : ρ * 2 ^ (x - 1074) = ((m <<< d : ℕ) : ℚ) * ulp (exponentOf m x) := by
      have hulp : (2 : ℚ) ^ (x - 1074) = ulp (exponentOf m x + d) := by
        rw [ulp]
        congr 1
        push_cast
        omega
      rw [hρ, hulp, ulp_add, Nat.shiftLeft_eq]
      push_cast
      ring
    rw [hz, f64Round_of_le neg hm hd]
    exact isRN_datumOf neg ⟨by simp, by simp⟩ (inBinade_shiftLeft hm hd)
  · obtain ⟨j, hj⟩ : ∃ j : Nat, (exponentOf m x : Int) = x + (j + 1 : ℕ) := ⟨(exponentOf m x - x).toNat - 1, by omega⟩
    rw [show (exponentOf m x - x).toNat = j + 1 by omega] at h
    have hz : ρ * 2 ^ (x - 1074) = ρ / 2 ^ (j + 1) * ulp (exponentOf m x) := by
      have hulp : ulp (exponentOf m x) = 2 ^ (j + 1) * 2 ^ (x - 1074) := by
        rw [ulp, hj, ← zpow_natCast, ← zpow_add₀ two_ne_zero]
        congr 1
        ring
      rw [hulp]
      field_simp
    rw [hz, f64Round_of_gt neg hm j.succ_pos hj]
    exact isRN_datumOf neg (nearestEven_roundShift h) (inBinade_div hm hj h)

theorem isRN_zero (neg : Bool) : IsRN 0 (.num neg 0 0) := by
  have hvalue : value neg 0 0 = 0 := by simp [value, magnitude]
  refine ⟨⟨by decide, by decide, .inr rfl⟩, ?_, fun h => absurd rfl h, fun neg' m' e' _ => ⟨?_, fun _ _ => rfl⟩⟩
  · rw [abs_zero, overflowBound_eq]
    exact mul_pos (by norm_num) (ulp_pos _)
  · rw [hvalue, sub_zero, abs_zero]
    exact abs_nonneg _

/-- `f64Round` of an exact integer of units. -/
theorem isRN_f64Round_exact (neg : Bool) (m : Nat) (x : Int) :
    IsRN (signOf neg * (m * 2 ^ (x - 1074))) (f64Round neg m x) := by
  rcases eq_or_ne m 0 with rfl | hm
  · rw [Nat.cast_zero, zero_mul, mul_zero]
    exact isRN_zero neg
  · exact isRN_f64Round neg hm (sameOrder_self _ m)

theorem sign_of_datumOf {neg r : Bool} {k q m' e' : Nat} (h : datumOf neg k q = .num r m' e') : r = neg := by
  unfold datumOf at h
  generalize (if k = 2 ^ 53 then q + 1 else q) = q' at h
  by_cases hq : q' > 2045
  · rw [if_pos hq] at h
    cases h
  · rw [if_neg hq] at h
    exact (F64.num.inj h).1.symm

/-- A finite result has the sign that was asked for. -/
theorem sign_of_f64Round {neg r : Bool} {m m' e' : Nat} {x : Int} (h : f64Round neg m x = .num r m' e') : r = neg := by
  rcases eq_or_ne m 0 with rfl | hm
  · exact (F64.num.inj h).1.symm
  · rw [f64Round_eq neg hm] at h
    exact sign_of_datumOf h

/-! ### The operations on finite data (R13) -/

section
variable (s t : Bool) (m e n f : Nat)

theorem fmul_num : fmul (.num s m e) (.num t n f) = f64Round (s != t) (m * n) ((e : Int) + f - 1074) := rfl

theorem isRN_fmul : IsRN (value s m e * value t n f) (fmul (.num s m e) (.num t n f)) := by
  have hexact : value s m e * value t n f =
      signOf (s != t) * (((m * n : ℕ) : ℚ) * 2 ^ ((e : Int) + f - 1074 - 1074)) := by
    have hpow : (2 : ℚ) ^ ((e : Int) + f - 1074 - 1074) = ulp e * ulp f := by
      rw [ulp, ulp, ← zpow_add₀ two_ne_zero]
      congr 1
      ring
    rw [value_eq, value_eq, ← signOf_mul_signOf, hpow, magnitude_eq, magnitude_eq]
    push_cast
    ring
  rw [hexact, fmul_num]
  exact isRN_f64Round_exact _ _ _

/-- A magnitude in units of a lower exponent. -/
theorem magnitude_eq_shiftLeft {g : Nat} (hg : g ≤ e) : magnitude m e = ((m <<< (e - g) : ℕ) : ℚ) * ulp g := by
  obtain ⟨k, rfl⟩ := Nat.exists_eq_add_of_le hg
  rw [Nat.add_sub_cancel_left, magnitude_eq, ulp_add, Nat.shiftLeft_eq]
  push_cast
  ring

/-- The two magnitudes of a sum in the units of the lower exponent. -/
theorem exists_common_units : ∃ a b : Nat, magnitude m e = a * ulp (min e f) ∧ magnitude n f = b * ulp (min e f) ∧
    fadd (.num s m e) (.num t n f) =
      if s = t then f64Round s (a + b) (min e f : ℕ)
      else if b < a then f64Round s (a - b) (min e f : ℕ)
      else if a < b then f64Round t (b - a) (min e f : ℕ)
      else fzero :=
  ⟨_, _, magnitude_eq_shiftLeft m e (min_le_left e f), magnitude_eq_shiftLeft n f (min_le_right e f), rfl⟩

theorem isRN_fadd : IsRN (value s m e + value t n f) (fadd (.num s m e) (.num t n f)) := by
  obtain ⟨a, b, ha, hb, hsum⟩ := exists_common_units s t m e n f
  rw [hsum, value_eq, value_eq, ha, hb]
  have hsub : ∀ {i j : Nat}, i < j → ((j - i : ℕ) : ℚ) = j - i := fun h => Nat.cast_sub h.le
  have hexact : ∀ (neg : Bool) (c : Nat), IsRN (signOf neg * (c * ulp (min e f))) (f64Round neg c (min e f : ℕ)) :=
    fun neg c => isRN_f64Round_exact neg c _
  by_cases hst : s = t
  · subst hst
    have hval : signOf s * (a * ulp (min e f)) + signOf s * (b * ulp (min e f)) =
        signOf s * (((a + b : ℕ) : ℚ) * ulp (min e f)) := by
      push_cast
      ring
    rw [if_pos rfl, hval]
    exact hexact s (a + b)
  · have hneg : signOf t = -signOf s := by revert hst; cases s <;> cases t <;> simp [signOf]
    rw [if_neg hst]
    rcases lt_trichotomy a b with hab | rfl | hba
    · have hval : signOf s * (a * ulp (min e f)) + signOf t * (b * ulp (min e f)) =
          signOf t * (((b - a : ℕ) : ℚ) * ulp (min e f)) := by
        rw [hsub hab, hneg]
        ring
      rw [if_neg hab.not_gt, if_pos hab, hval]
      exact hexact t (b - a)
    · have hval : signOf s * (a * ulp (min e f)) + signOf t * (a * ulp (min e f)) = 0 := by
        rw [hneg]
        ring
      rw [if_neg (lt_irrefl a), if_neg (lt_irrefl a), hval]
      exact isRN_zero false
    · have hval : signOf s * (a * ulp (min e f)) + signOf t * (b * ulp (min e f)) =
          signOf s * (((a - b : ℕ) : ℚ) * ulp (min e f)) := by
        rw [hsub hba, hneg]
        ring
      rw [if_pos hba, hval]
      exact hexact s (a - b)

/-- An exact sum of 0 is +0.0 but for two zeros of the sign minus (R127). -/
theorem fadd_eq_zero (h : value s m e + value t n f = 0) : fadd (.num s m e) (.num t n f) = .num (s && t) 0 0 := by
  obtain ⟨a, b, ha, hb, hsum⟩ := exists_common_units s t m e n f
  have hu := ulp_pos (min e f)
  rw [value_eq, value_eq, ha, hb] at h
  rw [hsum]
  by_cases hst : s = t
  · subst hst
    have hzero : signOf s * ((a + b : ℕ) * ulp (min e f)) = 0 := by
      push_cast
      linarith
    have hne : signOf s ≠ 0 := fun h0 => by simpa [h0] using signOf_mul_self s
    have hab : a + b = 0 := by
      exact_mod_cast (mul_eq_zero.mp ((mul_eq_zero.mp hzero).resolve_left hne)).resolve_right hu.ne'
    rw [if_pos rfl, hab, f64Round_zero, Bool.and_self]
  · have hneg : signOf t = -signOf s := by revert hst; cases s <;> cases t <;> simp [signOf]
    have hne : signOf s ≠ 0 := fun h0 => by simpa [h0] using signOf_mul_self s
    have hzero : signOf s * (((a : ℚ) - b) * ulp (min e f)) = 0 := by
      rw [hneg] at h
      linarith
    have hab := (mul_eq_zero.mp ((mul_eq_zero.mp hzero).resolve_left hne)).resolve_right hu.ne'
    obtain rfl : a = b := by exact_mod_cast sub_eq_zero.mp hab
    have hand : (s && t) = false := by revert hst; cases s <;> cases t <;> simp
    rw [if_neg hst, if_neg (lt_irrefl a), if_neg (lt_irrefl a), hand, fzero]

end

/-! ### Division (R13) -/

/-- The scaled quotient with its sticky bit. -/
def stickyQuotient (m n : Nat) : Nat := 2 * (m <<< divScale / n) + if m <<< divScale % n = 0 then 0 else 1

theorem fdiv_num (s t : Bool) {n : Nat} (hn : n ≠ 0) (m e f : Nat) :
    fdiv (.num s m e) (.num t n f) = f64Round (s != t) (stickyQuotient m n) ((e : Int) - f - divScale - 1 + 1074) := by
  rw [fdiv, if_neg hn]
  rfl

/-- The quotient stands for the exact one, half a unit of which is never in doubt. -/
theorem sameOrder_stickyQuotient {m n k : Nat} (hn : n ≠ 0) (hk : 2 ≤ k) :
    SameOrder k (stickyQuotient m n) (2 * ((m <<< divScale : ℕ) : ℚ) / n) := by
  have hpos : (0 : ℚ) < n := by exact_mod_cast Nat.pos_of_ne_zero hn
  have hdiv : ((m <<< divScale : ℕ) : ℚ) = n * ((m <<< divScale / n : ℕ) : ℚ) + ((m <<< divScale % n : ℕ) : ℚ) := by
    exact_mod_cast (Nat.div_add_mod (m <<< divScale) n).symm
  have hmod : ((m <<< divScale % n : ℕ) : ℚ) < n := by exact_mod_cast Nat.mod_lt _ (Nat.pos_of_ne_zero hn)
  unfold stickyQuotient
  rw [hdiv]
  generalize m <<< divScale / n = q at *
  generalize m <<< divScale % n = r at *
  by_cases hr : r = 0
  · have hexact : 2 * ((n : ℚ) * q + (r : ℕ)) / n = ((2 * q + if r = 0 then 0 else 1 : ℕ) : ℚ) := by
      rw [if_pos hr, hr]
      push_cast
      field_simp
      ring
    rw [hexact]
    exact sameOrder_self _ _
  · have hr0 : (0 : ℚ) < r := by exact_mod_cast Nat.pos_of_ne_zero hr
    rw [if_neg hr]
    refine sameOrder_of_odd hk (by omega) ?_ ?_
    · rw [lt_div_iff₀ hpos]
      push_cast
      linarith
    · rw [div_lt_iff₀ hpos]
      push_cast
      linarith

theorem inv_signOf (s : Bool) : (signOf s)⁻¹ = signOf s := by
  cases s <;> simp [signOf]

/-- The exact quotient in the units of the scaled one. -/
theorem value_div_value (s t : Bool) (m e n f : Nat) :
    value s m e / value t n f =
      signOf (s != t) * (2 * ((m <<< divScale : ℕ) : ℚ) / n * 2 ^ ((e : Int) - f - divScale - 1 + 1074 - 1074)) := by
  have hpow : (2 : ℚ) ^ ((e : Int) - f - divScale - 1 + 1074 - 1074) * 2 ^ (divScale + 1) = ulp e / ulp f := by
    rw [ulp, ulp, ← zpow_sub₀ two_ne_zero, ← zpow_natCast, ← zpow_add₀ two_ne_zero]
    congr 1
    push_cast
    ring
  have hscale : ((m <<< divScale : ℕ) : ℚ) * 2 = m * 2 ^ (divScale + 1) := by
    rw [Nat.shiftLeft_eq, pow_succ]
    push_cast
    ring
  calc value s m e / value t n f = signOf s * signOf t * (m / n * (ulp e / ulp f)) := by
        rw [value_eq, value_eq, magnitude_eq, magnitude_eq, mul_div_mul_comm, div_eq_mul_inv (signOf s), inv_signOf, mul_div_mul_comm]
    _ = signOf (s != t) * (m * 2 ^ (divScale + 1) / n * 2 ^ ((e : Int) - f - divScale - 1 + 1074 - 1074)) := by
        rw [signOf_mul_signOf, ← hpow]
        ring
    _ = _ := by rw [← hscale, mul_comm ((m <<< divScale : ℕ) : ℚ) 2]

/-- A canonical divisor leaves the quotient of a nonzero dividend more than 54 bits. -/
theorem le_log2_stickyQuotient {m n : Nat} (hm : m ≠ 0) (hn : n ≠ 0) (hlt : n < 2 ^ 53) : 54 ≤ Nat.log2 (stickyQuotient m n) := by
  have hquot : 2 ^ 53 ≤ m <<< divScale / n := by
    rw [Nat.le_div_iff_mul_le (Nat.pos_of_ne_zero hn), Nat.shiftLeft_eq]
    calc 2 ^ 53 * n ≤ 2 ^ 53 * 2 ^ 53 := Nat.mul_le_mul_left _ hlt.le
      _ ≤ 1 * 2 ^ divScale := by decide
      _ ≤ m * 2 ^ divScale := Nat.mul_le_mul_right _ (Nat.one_le_iff_ne_zero.mpr hm)
  have hge : 2 ^ 54 ≤ stickyQuotient m n := by
    unfold stickyQuotient
    omega
  exact (Nat.le_log2 (by omega)).mpr hge

theorem two_le_shift {m : Nat} (h : 54 ≤ Nat.log2 m) (x : Int) : 2 ≤ (exponentOf m x - x).toNat := by
  unfold exponentOf
  omega

theorem isRN_fdiv (s t : Bool) (m e : Nat) {n f : Nat} (hn : n ≠ 0) (hlt : n < 2 ^ 53) :
    IsRN (value s m e / value t n f) (fdiv (.num s m e) (.num t n f)) := by
  rcases eq_or_ne m 0 with rfl | hm
  · rw [fdiv_zero_num s t e f hn, value_eq, magnitude_eq, Nat.cast_zero, zero_mul, mul_zero, zero_div]
    exact isRN_zero _
  · have hlog := le_log2_stickyQuotient hm hn hlt
    rw [value_div_value, fdiv_num s t hn]
    generalize (e : Int) - f - divScale - 1 + 1074 = x
    have horder := sameOrder_stickyQuotient (m := m) hn (two_le_shift hlog x)
    generalize stickyQuotient m n = q at *
    have hne : q ≠ 0 := by
      rintro rfl
      exact absurd hlog (by decide)
    exact isRN_f64Round (s != t) hne horder

/-- A finite quotient has the exclusive or of the signs. -/
theorem sign_of_fdiv {s t r : Bool} {m e n f m' e' : Nat} (h : fdiv (.num s m e) (.num t n f) = .num r m' e') : r = (s != t) := by
  rcases eq_or_ne n 0 with rfl | hn
  · rw [fdiv, if_pos rfl] at h
    split at h <;> cases h
  · rw [fdiv_num s t hn] at h
    exact sign_of_f64Round h

/-! ### Special operands (R126, IEEE 754) -/

theorem fadd_nan_left (a : F64) : fadd .nan a = .nan := rfl

theorem fadd_nan_right (a : F64) : fadd a .nan = .nan := by cases a <;> rfl

theorem operations_nan (a : F64) :
    fmul .nan a = .nan ∧ fmul a .nan = .nan ∧ fadd .nan a = .nan ∧ fadd a .nan = .nan ∧ fdiv .nan a = .nan ∧ fdiv a .nan = .nan := by
  cases a <;> exact ⟨rfl, rfl, rfl, rfl, rfl, rfl⟩

/-- Settles O13: each operation is `f64Round` of the exact value; the special operands are the definitions' cases. -/
theorem arithmeticRoundsToNearestEven : Obligations.ArithmeticRoundsToNearestEven := by
  refine ⟨fun s t m e n f _ hn => ⟨isRN_fmul s t m e n f, isRN_fadd s t m e n f, fun h0 => isRN_fdiv s t m e h0 hn.1,
    fun r m' e' h => sign_of_f64Round h, fadd_eq_zero s t m e n f, fun r m' e' h => sign_of_fdiv h⟩, operations_nan,
    fun s t m e => ⟨rfl, fun hm => ⟨if_neg hm, ?_⟩, rfl, rfl, if_pos rfl, ?_, rfl, rfl, rfl, rfl, rfl, fun hm => ?_, ?_⟩⟩
  · rw [fmul, if_neg hm, bne_comm]
  · exact if_neg (by cases s <;> decide)
  · rw [fdiv, if_pos rfl, if_neg hm]
  · rw [fdiv, if_pos rfl, if_pos rfl]

end Sys2Proof.Machine
end

section
/-! The transforms of blocks with NaN, infinite and zero elements, by the IEEE rules of the operations (R122, R124, R126, R127). -/

open Sys2Proof.Claims

namespace Sys2Proof.Machine

/-! ### Nonzero factors -/

/-- A finite nonzero datum of sign `neg`. -/
def isRegular (neg : Bool) : F64 → Bool
  | .num s m _ => s == neg && m != 0
  | .nan | .inf _ => false

theorem isRegular_iff {neg : Bool} {a : F64} : isRegular neg a = true ↔ ∃ m e, m ≠ 0 ∧ a = .num neg m e := by
  cases a with
  | num s m e =>
    simp only [isRegular, Bool.and_eq_true, beq_iff_eq, bne_iff_ne, F64.num.injEq]
    exact ⟨fun ⟨hs, hm⟩ => ⟨m, e, hm, hs, rfl, rfl⟩, fun ⟨_, _, hm, hs, hm', _⟩ => ⟨hs, hm' ▸ hm⟩⟩
  | nan => simp [isRegular]
  | inf s => simp [isRegular]

/-- `f` maps NaN to NaN, and infinities and zeros to infinities and zeros whose sign `sg` gives. -/
structure Scales (sg : Bool → Bool) (f : F64 → F64) : Prop where
  nan : f .nan = .nan
  inf (s : Bool) : f (.inf s) = .inf (sg s)
  zero (s : Bool) : f (.num s 0 0) = .num (sg s) 0 0

theorem scales_comp {sg sg' : Bool → Bool} {f g : F64 → F64} (hf : Scales sg f) (hg : Scales sg' g) :
    Scales (fun s => sg' (sg s)) fun a => g (f a) :=
  ⟨by rw [hf.nan, hg.nan], fun s => by rw [hf.inf, hg.inf], fun s => by rw [hf.zero, hg.zero]⟩

theorem scales_fmul_right {neg : Bool} {c : F64} (h : isRegular neg c = true) : Scales (fun s => s != neg) fun a => fmul a c := by
  obtain ⟨m, e, hm, rfl⟩ := isRegular_iff.mp h
  refine ⟨rfl, fun s => if_neg hm, fun s => ?_⟩
  rw [fmul_num, Nat.zero_mul, f64Round_zero]

theorem scales_fmul_left {c : F64} (h : isRegular false c = true) : Scales (fun s => s) (fmul c) := by
  obtain ⟨m, e, hm, rfl⟩ := isRegular_iff.mp h
  refine ⟨rfl, fun s => ?_, fun s => ?_⟩
  · rw [fmul, if_neg hm, Bool.false_bne]
  · rw [fmul_num, Nat.mul_zero, f64Round_zero, Bool.false_bne]

theorem Scales.isfinite_eq_false {sg : Bool → Bool} {f : F64 → F64} (hf : Scales sg f) {a : F64} (ha : isfinite a = false) :
    isfinite (f a) = false := by
  cases a with
  | nan => rw [hf.nan, isfinite]
  | inf s => rw [hf.inf, isfinite]
  | num s m e => cases ha

/-! ### Sums (R126, R127) -/

theorem foldl_fadd_nan {l : List F64} {acc : F64} (h : .nan ∈ acc :: l) : l.foldl fadd acc = .nan := by
  induction l generalizing acc with
  | nil => exact (List.mem_singleton.mp h).symm
  | cons a l ih =>
    refine ih ?_
    rcases List.mem_cons.mp h with rfl | h
    · rw [fadd_nan_left]
      exact List.mem_cons_self
    · rcases List.mem_cons.mp h with rfl | h
      · rw [fadd_nan_right]
        exact List.mem_cons_self
      · exact List.mem_cons_of_mem _ h

theorem fadd_isfinite {a b : F64} (h : isfinite a = false ∨ isfinite b = false) : isfinite (fadd a b) = false := by
  cases a with
  | nan => rfl
  | inf s =>
    cases b with
    | nan => rfl
    | inf t =>
      rw [fadd]
      split <;> rfl
    | num t n f => rfl
  | num s m e =>
    cases b with
    | nan => rfl
    | inf t => rfl
    | num t n f => rcases h with h | h <;> cases h

theorem foldl_fadd_isfinite {l : List F64} {acc a : F64} (ha : a ∈ acc :: l) (h : isfinite a = false) :
    isfinite (l.foldl fadd acc) = false := by
  induction l generalizing acc a with
  | nil => rwa [← List.mem_singleton.mp ha]
  | cons b l ih =>
    rcases List.mem_cons.mp ha with rfl | ha
    · exact ih List.mem_cons_self (fadd_isfinite (.inl h))
    · rcases List.mem_cons.mp ha with rfl | ha
      · exact ih List.mem_cons_self (fadd_isfinite (.inr h))
      · exact ih (List.mem_cons_of_mem _ ha) h

/-- +0.0 stays +0.0 when zeros are added. -/
theorem foldl_fadd_zeros {l : List F64} (h : ∀ a ∈ l, ∃ s, a = .num s 0 0) : l.foldl fadd fzero = fzero := by
  induction l with
  | nil => rfl
  | cons a l ih =>
    obtain ⟨⟨s, rfl⟩, hl⟩ := List.forall_mem_cons.mp h
    have hadd : fadd fzero (.num s 0 0) = fzero := by cases s <;> rfl
    rw [List.foldl_cons, hadd, ih hl]

/-- Zero of either sign, or infinite. -/
def Extreme (a : F64) : Prop := (∃ s, a = .num s 0 0) ∨ ∃ s, a = .inf s

/-- Two infinities of different signs make a NaN; otherwise the infinities among the operands are those of the sum. -/
theorem fadd_extreme {a b : F64} (ha : Extreme a) (hb : Extreme b) :
    (fadd a b = .nan ∧ ∃ s, a = .inf s ∧ b = .inf !s) ∨
    Extreme (fadd a b) ∧ ∀ s, .inf s = fadd a b ↔ .inf s = a ∨ .inf s = b := by
  rcases ha with ⟨s, rfl⟩ | ⟨s, rfl⟩ <;> rcases hb with ⟨t, rfl⟩ | ⟨t, rfl⟩
  · have hzero : fadd (.num s 0 0) (.num t 0 0) = .num (s && t) 0 0 := fadd_eq_zero s t 0 0 0 0 (by simp [value, magnitude])
    exact .inr ⟨.inl ⟨_, hzero⟩, fun r => by simp [hzero]⟩
  · exact .inr ⟨.inr ⟨t, rfl⟩, fun r => by simp [fadd]⟩
  · exact .inr ⟨.inr ⟨s, rfl⟩, fun r => by simp [fadd]⟩
  · by_cases hst : s = t
    · have hsum : fadd (.inf s) (.inf t) = .inf s := if_pos hst
      exact .inr ⟨.inr ⟨s, hsum⟩, fun r => by rw [hsum, hst, or_self]⟩
    · exact .inl ⟨if_neg hst, s, rfl, by rw [Bool.eq_not_of_ne (Ne.symm hst)]⟩

/-- A sum of zeros and infinities: the infinity of the one sign there is, or a NaN. -/
theorem foldl_fadd_extreme {l : List F64} {acc : F64} (h : ∀ a ∈ acc :: l, Extreme a) (out : Bool) :
    (.inf out ∈ acc :: l → .inf (!out) ∉ acc :: l → l.foldl fadd acc = .inf out) ∧
    (.inf out ∈ acc :: l → .inf (!out) ∈ acc :: l → l.foldl fadd acc = .nan) := by
  induction l generalizing acc with
  | nil =>
    refine ⟨fun hout _ => (List.mem_singleton.mp hout).symm, fun hout hnot => ?_⟩
    have hinj := F64.inf.inj ((List.mem_singleton.mp hout).trans (List.mem_singleton.mp hnot).symm)
    cases out <;> cases hinj
  | cons a l ih =>
    obtain ⟨hacc, ha, hl⟩ : Extreme acc ∧ Extreme a ∧ ∀ b ∈ l, Extreme b := by simpa using h
    rw [List.foldl_cons]
    rcases fadd_extreme hacc ha with ⟨hnan, s, rfl, rfl⟩ | ⟨hsum, hmem⟩
    · refine ⟨fun _ hnot => ?_, fun _ _ => foldl_fadd_nan (hnan ▸ List.mem_cons_self)⟩
      exact absurd (by cases s <;> cases out <;> simp) hnot
    · have hiff : ∀ s, (.inf s ∈ acc :: a :: l) ↔ .inf s ∈ fadd acc a :: l := fun s => by
        rw [List.mem_cons, List.mem_cons, List.mem_cons, hmem, or_assoc]
      rw [hiff, hiff]
      exact ih (List.forall_mem_cons.mpr ⟨hsum, hl⟩)

/-! ### Weighted sums over a block (R122, R124) -/

theorem elemF_div_mod (b : Block Word) (k : Fin 64) : elemF b (k.val / 8) (k.val % 8) = f64Unpack b[k] := by
  rw [elemF, Nat.div_add_mod]
  simp

/-- The sum of R122 or R124 over the elements of `b`, the outer index their column, `f` the factors. -/
def weightedSum (f : Nat → Nat → F64 → F64) (b : Block Word) : F64 := sumInOrder fun i j => f i j (elemF b j i)

/-- Its terms, in order. -/
def weightedTerms (f : Nat → Nat → F64 → F64) (b : Block Word) : List F64 :=
  (List.range 64).map fun n => f (n / 8) (n % 8) (elemF b (n % 8) (n / 8))

theorem weightedSum_eq (f : Nat → Nat → F64 → F64) (b : Block Word) :
    weightedSum f b = (weightedTerms f b).foldl fadd fzero := by
  rw [weightedSum, weightedTerms, sumInOrder, List.foldl_map, fzero]

theorem mem_weightedTerms {f : Nat → Nat → F64 → F64} {b : Block Word} {a : F64} :
    a ∈ weightedTerms f b ↔ ∃ k : Fin 64, f (k.val % 8) (k.val / 8) (f64Unpack b[k]) = a := by
  simp only [weightedTerms, List.mem_map, List.mem_range]
  constructor
  · rintro ⟨n, hn, rfl⟩
    have hcol : (8 * (n % 8) + n / 8) % 8 = n / 8 := by omega
    have hrow : (8 * (n % 8) + n / 8) / 8 = n % 8 := by omega
    refine ⟨⟨8 * (n % 8) + n / 8, by omega⟩, ?_⟩
    rw [← elemF_div_mod]
    simp only [hcol, hrow]
  · rintro ⟨k, rfl⟩
    have hcol : (8 * (k.val % 8) + k.val / 8) / 8 = k.val % 8 := by omega
    have hrow : (8 * (k.val % 8) + k.val / 8) % 8 = k.val / 8 := by omega
    exact ⟨8 * (k.val % 8) + k.val / 8, by omega, by rw [hcol, hrow, elemF_div_mod]⟩

/-- What NaN, infinite and zero elements of `b` make of a result `r`; `sg` gives the sign of the term of an infinite element. -/
structure SpecialResult (b : Block Word) (sg : Fin 64 → Bool → Bool) (r : F64) : Prop where
  nan (k : Fin 64) : f64Unpack b[k] = .nan → r = .nan
  infinite (k : Fin 64) (neg : Bool) : f64Unpack b[k] = .inf neg → isfinite r = false
  extreme : (∀ k : Fin 64, ZeroOrInfinite b[k]) → InfinitySum b sg r
  zero : (∀ k : Fin 64, b[k] = 0 ∨ b[k] = 0x8000_0000_0000_0000) → r = fzero

section
variable {f : Nat → Nat → F64 → F64} {sg : Nat → Nat → Bool → Bool} {g : F64 → F64} {b : Block Word}
variable (hf : ∀ i < 8, ∀ j < 8, Scales (sg i j) (f i j)) (hg : Scales (fun s => s) g)
include hf

/-- The factors of the term of one element. -/
theorem scales_element (k : Fin 64) : Scales (sg (k.val % 8) (k.val / 8)) (f (k.val % 8) (k.val / 8)) :=
  hf _ (Nat.mod_lt _ (by decide)) _ (by omega)

/-- The infinite terms are those of the infinite elements. -/
theorem inf_mem_weightedTerms (h : ∀ k : Fin 64, ZeroOrInfinite b[k]) (out : Bool) :
    .inf out ∈ fzero :: weightedTerms f b ↔
      ∃ (k : Fin 64) (neg : Bool), f64Unpack b[k] = .inf neg ∧ sg (k.val % 8) (k.val / 8) neg = out := by
  rw [List.mem_cons, or_iff_right (by rintro ⟨⟩), mem_weightedTerms]
  refine exists_congr fun k => ?_
  have hk := scales_element hf k
  rcases h k with ⟨s, hs⟩ | ⟨s, hs⟩
  · rw [hs, hk.zero]
    simp
  · rw [hs, hk.inf]
    simp

theorem extreme_weightedTerms (h : ∀ k : Fin 64, ZeroOrInfinite b[k]) : ∀ a ∈ fzero :: weightedTerms f b, Extreme a := by
  refine List.forall_mem_cons.mpr ⟨.inl ⟨false, rfl⟩, fun a ha => ?_⟩
  obtain ⟨k, rfl⟩ := mem_weightedTerms.mp ha
  have hk := scales_element hf k
  rcases h k with ⟨s, hs⟩ | ⟨s, hs⟩
  · exact .inl ⟨_, by rw [hs, hk.zero]⟩
  · exact .inr ⟨_, by rw [hs, hk.inf]⟩

include hg

/-- The special cases of a weighted sum with a positive factor outside. -/
theorem specialResult_weightedSum : SpecialResult b (fun k => sg (k.val % 8) (k.val / 8)) (g (weightedSum f b)) := by
  rw [weightedSum_eq]
  refine ⟨fun k hk => ?_, fun k neg hk => hg.isfinite_eq_false ?_, fun h => ⟨?_, ?_⟩, fun h => ?_⟩
  · have hmem : .nan ∈ weightedTerms f b := mem_weightedTerms.mpr ⟨k, by rw [hk, (scales_element hf k).nan]⟩
    rw [foldl_fadd_nan (List.mem_cons_of_mem _ hmem), hg.nan]
  · have hmem : .inf _ ∈ weightedTerms f b := mem_weightedTerms.mpr ⟨k, by rw [hk, (scales_element hf k).inf]⟩
    exact foldl_fadd_isfinite (List.mem_cons_of_mem _ hmem) rfl
  · rintro out ⟨k, neg, hk⟩ hall
    have hin := (inf_mem_weightedTerms hf h out).mpr ⟨k, neg, hk, hall k neg hk⟩
    have hout : .inf (!out) ∉ fzero :: weightedTerms f b := fun hmem => by
      obtain ⟨k', neg', hk', hsg⟩ := (inf_mem_weightedTerms hf h _).mp hmem
      exact absurd ((hall k' neg' hk').symm.trans hsg) (by cases out <;> decide)
    rw [(foldl_fadd_extreme (extreme_weightedTerms hf h) out).1 hin hout, hg.inf]
  · rintro ⟨k, neg, k', neg', hk, hk', hne⟩
    have hin := (inf_mem_weightedTerms hf h _).mpr ⟨k, neg, hk, rfl⟩
    have hin' := (inf_mem_weightedTerms hf h _).mpr ⟨k', neg', hk', Bool.eq_not_of_ne (Ne.symm hne)⟩
    rw [(foldl_fadd_extreme (extreme_weightedTerms hf h) _).2 hin hin', hg.nan]
  · have hzero : ∀ a ∈ weightedTerms f b, ∃ s, a = .num s 0 0 := fun a ha => by
      obtain ⟨k, rfl⟩ := mem_weightedTerms.mp ha
      obtain ⟨s, hs⟩ : ∃ s, f64Unpack b[k] = .num s 0 0 := by
        rcases h k with hk | hk
        · exact ⟨false, by rw [hk]; decide⟩
        · exact ⟨true, by rw [hk]; decide⟩
      exact ⟨_, by rw [hs, (scales_element hf k).zero]⟩
    rw [foldl_fadd_zeros hzero, fzero, hg.zero]

end

/-! ### The two transforms (R122, R124) -/

theorem isRegular_cosF : ∀ x < 8, ∀ u < 8, isRegular (cosPattern x u).msb (cosF x u) = true := by decide +kernel

theorem isRegular_alphaF (k : Nat) : isRegular false (alphaF k) = true := by
  rw [alphaF, alphaPattern]
  split <;> decide +kernel

theorem isRegular_alphaF_mul (u v : Nat) : isRegular false (fmul (alphaF u) (alphaF v)) = true := by
  rw [alphaF, alphaF, alphaPattern, alphaPattern]
  split <;> split <;> decide +kernel

theorem isRegular_scF : isRegular false scF = true := by decide +kernel

theorem isRegular_scF_mul (u v : Nat) : isRegular false (fmul (fmul scF (alphaF u)) (alphaF v)) = true := by
  rw [alphaF, alphaF, alphaPattern, alphaPattern]
  split <;> split <;> decide +kernel

/-- The factors of an element under two cosines. -/
theorem scales_cosines {x u y v : Nat} (hx : x < 8) (hu : u < 8) (hy : y < 8) (hv : v < 8) :
    Scales (fun neg => termNeg neg (cosPattern x u) (cosPattern y v)) fun a => fmul (fmul a (cosF x u)) (cosF y v) :=
  scales_comp (scales_fmul_right (isRegular_cosF x hx u hu)) (scales_fmul_right (isRegular_cosF y hy v hv))

theorem specialResult_fdctElem (b : Block Word) {u v : Nat} (hu : u < 8) (hv : v < 8) :
    SpecialResult b (fun k neg => termNeg neg (cosPattern (k.val % 8) u) (cosPattern (k.val / 8) v)) (fdctElem b u v) := by
  rw [fdctElem_eq]
  exact specialResult_weightedSum (fun x hx y hy => scales_cosines hx hu hy hv) (scales_fmul_left (isRegular_scF_mul u v))

theorem specialResult_idctElem (b : Block Word) {x y : Nat} (hx : x < 8) (hy : y < 8) :
    SpecialResult b (fun k neg => termNeg neg (cosPattern x (k.val % 8)) (cosPattern y (k.val / 8))) (idctElem b x y) := by
  rw [idctElem_eq]
  exact specialResult_weightedSum
    (fun u hu v hv => scales_comp (scales_fmul_left (isRegular_alphaF_mul u v)) (scales_cosines hx hu hy hv))
    (scales_fmul_left isRegular_scF)

/-- What the pattern of a special result unpacks to. -/
theorem specialResult_pack {b : Block Word} {sg : Fin 64 → Bool → Bool} {r : F64} (h : SpecialResult b sg r) (free : BitVec 53) :
    SpecialResult b sg (f64Unpack (f64Pack free r)) := by
  refine ⟨fun k hk => ?_, fun k neg hk => ?_, fun hext => ⟨fun out hsome hall => ?_, fun hdiff => ?_⟩, fun hz => ?_⟩
  · rw [h.nan k hk, f64Unpack_f64Pack_nan]
  · have hr := h.infinite k neg hk
    cases r with
    | nan => rw [f64Unpack_f64Pack_nan, isfinite]
    | inf s => rw [f64Unpack_f64Pack_inf, isfinite]
    | num s m e => cases hr
  · rw [(h.extreme hext).1 out hsome hall, f64Unpack_f64Pack_inf]
  · rw [(h.extreme hext).2 hdiff, f64Unpack_f64Pack_nan]
  · rw [h.zero hz, fzero, f64Unpack_f64Pack_num ⟨by decide, by decide, .inr rfl⟩]

/-- Every element of a packed block of special results. -/
theorem specialResult_packBlock {b : Block Word} {sg : Nat → Nat → Fin 64 → Bool → Bool} {f : Nat → Nat → F64}
    (h : ∀ {i j : Nat}, i < 8 → j < 8 → SpecialResult b (sg i j) (f i j)) (n : Nat) (j : Fin 64) :
    SpecialResult b (sg (j.val % 8) (j.val / 8)) (f64Unpack (packBlock n f)[j]) := by
  rw [Fin.getElem_fin, getElem_packBlock n f j.val j.isLt]
  exact specialResult_pack (h (Nat.mod_lt _ (by decide)) (by omega)) _

theorem packBlock_of_zeros {b : Block Word} {sg : Nat → Nat → Fin 64 → Bool → Bool} {f : Nat → Nat → F64}
    (h : ∀ {i j : Nat}, i < 8 → j < 8 → SpecialResult b (sg i j) (f i j)) (n : Nat)
    (hz : ∀ k : Fin 64, b[k] = 0 ∨ b[k] = 0x8000_0000_0000_0000) : packBlock n f = Vector.replicate 64 0 := by
  refine block_ext fun j => ?_
  rw [Fin.getElem_fin, getElem_packBlock n f j.val j.isLt, (h (Nat.mod_lt _ (by decide)) (by omega)).zero hz, Fin.getElem_fin,
    Vector.getElem_replicate]
  rfl

/-- Settles O12: the special results, element by element. -/
theorem transformsOfSpecialBlocks : Obligations.TransformsOfSpecialBlocks := by
  refine ⟨fun s t k => ⟨fun hk h => ?_, fun hk h => ?_⟩, fun s t k neg => ⟨fun hk h => ?_, fun hk h => ?_⟩,
    fun s t => ⟨fun hext h => ?_, fun hext h => ?_⟩, fun s t => ⟨fun hz h => ?_, fun hz h => ?_⟩⟩
  all_goals obtain rfl := Host.Outcome.next.inj h
  · exact ⟨rfl, fun j => (specialResult_packBlock (specialResult_fdctElem s.S) s.nanDraws j).nan k hk⟩
  · exact ⟨rfl, fun j => (specialResult_packBlock (specialResult_idctElem s.C) s.nanDraws j).nan k hk⟩
  · exact ⟨rfl, fun j => (specialResult_packBlock (specialResult_fdctElem s.S) s.nanDraws j).infinite k neg hk⟩
  · exact ⟨rfl, fun j => (specialResult_packBlock (specialResult_idctElem s.C) s.nanDraws j).infinite k neg hk⟩
  · exact fun j => (specialResult_packBlock (specialResult_fdctElem s.S) s.nanDraws j).extreme hext
  · exact fun j => (specialResult_packBlock (specialResult_idctElem s.C) s.nanDraws j).extreme hext
  · exact packBlock_of_zeros (specialResult_fdctElem s.S) s.nanDraws hz
  · exact packBlock_of_zeros (specialResult_idctElem s.C) s.nanDraws hz

end Sys2Proof.Machine
end
